-- ==== Sys2Proof/Word.lean ====
section
/-! DEFINITION. The words of the block: plain bit vectors (R7: every value is unsigned, bit 0 least significant). -/

namespace Sys2Proof

/-- One byte of a region, a payload or a header. -/
abbrev Byte := BitVec 8

/-- A 16-bit value: an Ethernet length or an EtherType (R29, D13). -/
abbrev Half := BitVec 16

/-- A 32-bit value: a command word, a CAN identifier, a drop counter, a driver buffer index (R6, R70). -/
abbrev Word := BitVec 32

end Sys2Proof
end

