-- ==== Sys2Proof/Syntax.lean ====
section
/-! DEFINITION. The nine commands of R73, one constructor per row of spec/opcode_table.json. -/

namespace Sys2Proof

/-- The operation a command word selects (R73). -/
inductive Op where
  | rbInit | rbPush | rbPop | rbDrops
  | canrxInit | canrxWrite | canrxRead | canrxDrops
  | ethtxSend
deriving DecidableEq, Repr

/-- A decoded command: the operation and, for the three that have one, its target controller number (R70, R71).
Data travels in the operand record (R72), which the command port holds. -/
inductive Instr where
  /-- RB.INIT (R100). -/
  | rbInit
  /-- RB.PUSH (R101). -/
  | rbPush
  /-- RB.POP (R102). -/
  | rbPop
  /-- RB.DROPS (R103). -/
  | rbDrops
  /-- CANRX.INIT (R120). -/
  | canrxInit
  /-- CANRX.WRITE to controller `tgt` (R122). -/
  | canrxWrite (tgt : Byte)
  /-- CANRX.READ from controller `tgt` (R123). -/
  | canrxRead (tgt : Byte)
  /-- CANRX.DROPS of controller `tgt` (R124). -/
  | canrxDrops (tgt : Byte)
  /-- ETHTX.SEND (R142). -/
  | ethtxSend
deriving DecidableEq, Repr

/-- The operation of an instruction. -/
def Instr.op : Instr → Op
  | .rbInit => .rbInit
  | .rbPush => .rbPush
  | .rbPop => .rbPop
  | .rbDrops => .rbDrops
  | .canrxInit => .canrxInit
  | .canrxWrite _ => .canrxWrite
  | .canrxRead _ => .canrxRead
  | .canrxDrops _ => .canrxDrops
  | .ethtxSend => .ethtxSend

/-- The target field of an instruction; 0 where the format requires 0 (R70). -/
def Instr.tgt : Instr → Byte
  | .rbInit => 0
  | .rbPush => 0
  | .rbPop => 0
  | .rbDrops => 0
  | .canrxInit => 0
  | .canrxWrite t => t
  | .canrxRead t => t
  | .canrxDrops t => t
  | .ethtxSend => 0

end Sys2Proof
end

