-- ==== Sys2Proof/Config.lean ====
section
/-! DEFINITION. The implementation parameters of R6, the fixed constants, and the free values. -/

namespace Sys2Proof.Config

/-- `NUM_CAN_CTRL`, fixed 2 (R6). -/
def numCanCtrl : Nat := 2

/-- `ETH_HDR_LEN`, fixed 14: 6 + 6 + 2 header bytes (R6). -/
def ethHdrLen : Nat := 14

/-- The unspecified payload bytes of a stored CanFrame (R122, U3): draw number `k` for the buffer of
controller `c`. Nothing constrains them (log 9). -/
opaque freeByte : (c : Nat) → (k : Nat) → Byte

/-- `ceil(log2 n)`, as R6 uses it for the width of an index. -/
def ceilLog2 (n : Nat) : Nat := if n ≤ 1 then 0 else Nat.log2 (n - 1) + 1

/-- `IDX_W(N)`, the width of `wr` and `rd` of a buffer of `n` slots (R6, D11). -/
def idxWidth (n : Nat) : Nat := max 1 (ceilLog2 n)

/-- The build-time parameters of one exposed generic RingBuffer: `N` and the size of `T` in bytes (R6, D29). -/
structure RbParams where
  /-- `N`, the number of slots. -/
  capacity : Nat
  /-- The size of a record of type `T`, in bytes (log 8). -/
  recordBytes : Nat
deriving DecidableEq, Repr

/-- The parameters of R6 that a model takes as an argument. No step changes them (R37). -/
structure Params where
  /-- One entry for each generic RingBuffer exposed with a command port of its own (R70, log 6). -/
  rb : List RbParams
  /-- `N_CAN`. -/
  nCan : Nat
  /-- `CAN_PAYLOAD_MAX`. -/
  canPayloadMax : Nat
  /-- `EXT_MARKER_MASK`. -/
  extMarkerMask : Word
  /-- `ETH_CTRL_IDX`. -/
  ethCtrlIdx : Nat
deriving DecidableEq, Repr

/-- The defaults of R6 (log 2); one exposed generic buffer of 10 slots of 4-byte records is the model's choice (log 6). -/
def Params.default : Params where
  rb := [{ capacity := 10, recordBytes := 4 }]
  nCan := 10
  canPayloadMax := 8
  extMarkerMask := 0x80000000#32
  ethCtrlIdx := 0

end Sys2Proof.Config
end

