-- ==== Sys2Proof/WellFormed.lean ====
section
/-! DEFINITION. What makes an instruction and a set of parameters well formed. The checks on the environment's
inputs (operand records, lent regions) stand in Safety.lean, beside the state they are about. -/

namespace Sys2Proof

/-- Every instruction of `Instr` is well formed: R71 makes all 256 values of `tgt` legal encodings, and the types
hold nothing else. One arm each, so that a new instruction must say what it admits. -/
def Instr.wellFormed : Instr → Bool
  | .rbInit => true
  | .rbPush => true
  | .rbPop => true
  | .rbDrops => true
  | .canrxInit => true
  | .canrxWrite _ => true
  | .canrxRead _ => true
  | .canrxDrops _ => true
  | .ethtxSend => true

/-- R6 and D11: a generic buffer has at least one slot. -/
def Config.RbParams.wellFormed (p : Config.RbParams) : Bool := decide (1 ≤ p.capacity)

/-- R6: every capacity is at least 1 (D11) and `CAN_PAYLOAD_MAX` is 8 or 64 (D4). -/
def Config.Params.wellFormed (p : Config.Params) : Bool :=
  p.rb.all Config.RbParams.wellFormed && decide (1 ≤ p.nCan)
    && (p.canPayloadMax == 8 || p.canPayloadMax == 64)

end Sys2Proof
end

