-- ==== Sys2Proof/Decode.lean ====
section
/-! DEFINITION. The decoder of R78, total on all 2^32 words, and the encoder of R73. -/

namespace Sys2Proof

/-- Why a command word is illegal (R74). The block raises F_ILLEGAL_CMD for each of them. -/
inductive DecodeError where
  /-- R74 (a): the reserved field is not 0. -/
  | reservedNotZero (w : Word)
  /-- R74 (b): the operation code is not one of the nine. -/
  | unassignedOp (w : Word)
  /-- R74 (c): the operation takes no target and the target field is not 0. -/
  | targetNotZero (w : Word)
deriving DecidableEq, Repr

/-- The operation code `op` of R73. -/
def Op.code : Op → Byte
  | .rbInit => 0x01
  | .rbPush => 0x02
  | .rbPop => 0x03
  | .rbDrops => 0x04
  | .canrxInit => 0x11
  | .canrxWrite => 0x12
  | .canrxRead => 0x13
  | .canrxDrops => 0x14
  | .ethtxSend => 0x21

/-- The opcode map of R73, read from the code to the operation. -/
def Op.ofCode (c : Byte) : Option Op :=
  if c = 0x01 then some .rbInit
  else if c = 0x02 then some .rbPush
  else if c = 0x03 then some .rbPop
  else if c = 0x04 then some .rbDrops
  else if c = 0x11 then some .canrxInit
  else if c = 0x12 then some .canrxWrite
  else if c = 0x13 then some .canrxRead
  else if c = 0x14 then some .canrxDrops
  else if c = 0x21 then some .ethtxSend
  else none

/-- `tgt0` of R78: the operations whose target field must be 0. -/
def Op.takesNoTarget : Op → Bool
  | .rbInit | .rbPush | .rbPop | .rbDrops | .canrxInit | .ethtxSend => true
  | .canrxWrite | .canrxRead | .canrxDrops => false

/-- `Command(op, tgt)` of R78. -/
def Op.toInstr (tgt : Byte) : Op → Instr
  | .rbInit => .rbInit
  | .rbPush => .rbPush
  | .rbPop => .rbPop
  | .rbDrops => .rbDrops
  | .canrxInit => .canrxInit
  | .canrxWrite => .canrxWrite tgt
  | .canrxRead => .canrxRead tgt
  | .canrxDrops => .canrxDrops tgt
  | .ethtxSend => .ethtxSend

/-- Field `op`, bits [7:0] (R70). -/
def Word.opField (w : Word) : Byte := w.extractLsb' 0 8

/-- Field `tgt`, bits [15:8] (R70, R71). -/
def Word.tgtField (w : Word) : Byte := w.extractLsb' 8 8

/-- Field `rsv`, bits [31:16] (R70). -/
def Word.rsvField (w : Word) : Half := w.extractLsb' 16 16

/-- The decode function of R78, its checks in R78's order. -/
def decode (w : Word) : Except DecodeError Instr :=
  if Word.rsvField w ≠ 0 then .error (.reservedNotZero w)
  else
    match Op.ofCode (Word.opField w) with
    | none => .error (.unassignedOp w)
    | some op =>
      if op.takesNoTarget = true ∧ Word.tgtField w ≠ 0 then .error (.targetNotZero w)
      else .ok (op.toInstr (Word.tgtField w))

/-- The command word of an instruction: `rsv ++ tgt ++ op` (R70, R73). -/
def encode (i : Instr) : Word := (0#16 ++ i.tgt) ++ i.op.code

/-- The command word of `nbits` bits whose value is `w`: every command word is exactly 32 bits, with no shorter, longer or
prefixed form (R75), so any other width, and a value that 32 bits do not hold, is no command word. The block stores no
instruction, so no byte order enters (R21, R64). -/
def tableWord? (nbits w : Nat) : Option Word :=
  if nbits = 32 ∧ w < 2 ^ 32 then some (BitVec.ofNat 32 w) else none

/-- The instruction the decoder reads from a word of the opcode table. -/
def decodeTableWord (nbits w : Nat) : Option Instr :=
  match tableWord? nbits w with
  | none => none
  | some v =>
    match decode v with
    | .ok i => some i
    | .error _ => none

end Sys2Proof
end

