-- ==== Sys2Proof/Machine/State.lean ====
section
/-! DEFINITION. The state of the RingBuffer block as plain data: everything 10_state.md gives it, what stands at
its boundary, and the environment's pending steps. -/

namespace Sys2Proof.Machine

/-! ### Byte regions (20_memory.md R50) -/

/-- The bytes of one region by offset, in canonical form: offsets strictly rising, and no entry equal to what an
unlisted offset reads as (`Memory.unlisted`, `Memory.wf` in Ops). -/
abbrev Memory := List Host.Cell

/-- A byte region: a finite sequence of bytes with a size (R50), addressed by byte offset from 0 (R53). -/
structure Region where
  /-- How many bytes the region holds. -/
  size : Nat
  /-- Its bytes. -/
  cells : Memory
deriving DecidableEq, Repr

/-- The regions one side has lent to the block. A reference to one (R29 "reference to a caller byte region") is its
number in the store, a plain Nat; a reference that names none denotes a region of 0 bytes (log 10). -/
abbrev RegionStore := List Region

/-! ### RingBuffer<T,N> (R22) -/

/-- A record of a generic instance's type `T`: opaque bytes, copied whole (R6, D29; log 8). -/
abbrev Record := List Byte

/-- A slot: a valid flag and a record (R22, R23). -/
structure Slot (α : Type) where
  /-- The valid flag: Valid (`true`, 1) or Invalid (`false`, 0). -/
  valid : Bool
  /-- The stored item. -/
  data : α
deriving DecidableEq, Repr

/-- Whether INIT has run (R26); UNINIT = 0, READY = 1. -/
inductive Phase where
  | uninit
  | ready
deriving DecidableEq, Repr

/-- A RingBuffer instance; `N` is the number of its slots, fixed at build time (R37). -/
structure RingBuffer (α : Type) where
  /-- The slot array. -/
  slots : List (Slot α)
  /-- `writeIndex`: the slot the next push tries. -/
  wr : Nat
  /-- `readIndex`: the slot the next pop tries. -/
  rd : Nat
  /-- The count of pushes dropped as BufferFull (R25). -/
  drops : BitVec 32
  /-- UNINIT or READY (R26). -/
  phase : Phase
deriving DecidableEq, Repr

/-! ### CanRxDemux (R27, R28) -/

/-- The record of a CanRxDemux buffer (R27); only the first `length` bytes of `data` are defined. -/
structure CanFrame where
  /-- The normalised identifier (R121). -/
  id : Word
  /-- The number of meaningful payload bytes. -/
  length : Byte
  /-- `CAN_PAYLOAD_MAX` payload bytes. -/
  data : List Byte
deriving DecidableEq, Repr

/-- Controller identity (R28): Can0 is 0, Can1 is 1. -/
inductive Controller where
  | can0
  | can1
deriving DecidableEq, Repr

/-- The two buffers of CanRxDemux, and nothing else (R28). -/
structure CanRxDemux where
  /-- `can.buf[0]`. -/
  buf0 : RingBuffer CanFrame
  /-- `can.buf[1]`. -/
  buf1 : RingBuffer CanFrame
deriving DecidableEq, Repr

/-! ### EthTxAssembler (R29, R30) -/

/-- The five states of `eth.fsm` (R30); their 3-bit codes are `EthFsm.code`. -/
inductive EthFsm where
  | idle
  | acquire
  | reconcile
  | copy
  | submit
deriving DecidableEq, Repr

/-- The status ProvideTxBuffer answers (R29, R140). -/
inductive ProvideStatus where
  | ok
  | eNotOk
  | overflow
deriving DecidableEq, Repr

/-- The status Transmit answers (R141). -/
inductive TransmitStatus where
  | ok
  | eNotOk
deriving DecidableEq, Repr

/-- The result codes of R76; their 8-bit values are `ResultCode.code`. `invalidMailbox` is never produced. -/
inductive ResultCode where
  | ok
  | bufferFull
  | bufferEmpty
  | invalidController
  | invalidMailbox
  | driverBusy
  | malformedFrame
  | bufferAcquireFailed
deriving DecidableEq, Repr

/-- A MAC address: six bytes, `b0` the frame's first (R52). -/
structure MacAddr where
  /-- Frame byte 0. -/
  b0 : Byte
  /-- Frame byte 1. -/
  b1 : Byte
  /-- Frame byte 2. -/
  b2 : Byte
  /-- Frame byte 3. -/
  b3 : Byte
  /-- Frame byte 4. -/
  b4 : Byte
  /-- Frame byte 5. -/
  b5 : Byte
deriving DecidableEq, Repr

/-- The state of EthTxAssembler (R29). -/
structure EthTx where
  /-- `eth.fsm`. -/
  fsm : EthFsm
  /-- `eth.frame`: the frame image of the send in progress. -/
  frame : Nat
  /-- `eth.len`: its `len` operand. -/
  len : Half
  /-- `eth.reqLen`: the payload length asked of the driver. -/
  reqLen : Half
  /-- `eth.provStatus`. -/
  provStatus : ProvideStatus
  /-- `eth.bufIdx`. -/
  bufIdx : Word
  /-- `eth.bufRef`. -/
  bufRef : Nat
  /-- `eth.granted`. -/
  granted : Half
  /-- `eth.etherType`. -/
  etherType : Half
  /-- `eth.dstMac`. -/
  dstMac : MacAddr
  /-- `eth.result`: the result of the last completed send. -/
  result : ResultCode
deriving DecidableEq, Repr

/-- A request the block has issued to ETHDRV and that is not answered yet (R140, R141; log 14). -/
inductive DriverRequest where
  /-- `ProvideTxBuffer(ctrl, &bufIdx, &bufPtr, &lengthInOut)`, `lengthInOut` on entry. -/
  | provideTxBuffer (ctrl : Nat) (lengthInOut : Half)
  /-- `Transmit(ctrl, bufIdx, frameType, confirmFlag, length, destMac)`. -/
  | transmit (ctrl : Nat) (bufIdx : Word) (frameType : Half) (confirmFlag : Bool) (length : Half) (destMac : MacAddr)
deriving DecidableEq, Repr

/-- ETHDRV's answer to ProvideTxBuffer: a draw (R140). -/
structure ProvideAnswer where
  /-- The status. -/
  status : ProvideStatus
  /-- The driver's buffer index. -/
  bufIdx : Word
  /-- The driver region handed over. -/
  bufPtr : Nat
  /-- `lengthInOut` on return. -/
  lengthInOut : Half
deriving DecidableEq, Repr

/-! ### Contexts and agents (R5, R32) -/

/-- The ISR of one ring buffer: a CAN controller's, or a generic instance's (R5, R34). -/
inductive Producer where
  | can (c : Controller)
  | rb (i : Nat)
deriving DecidableEq, Repr

/-- The agent that issues a command (R5). -/
inductive Issuer where
  | startup
  | producer (p : Producer)
  | consumer
deriving DecidableEq, Repr

/-- Which task-context code runs (R181, R192): the initialisation code, which is left for good when the CONSUMER's task
loop starts, or that loop. R190's "initial mode" is STARTUP. -/
inductive Task where
  | startup
  | consumer
deriving DecidableEq, Repr

/-- The ambient input `ctx` of R32. -/
inductive Context where
  | startup
  | producer
  | consumer
deriving DecidableEq, Repr

/-! ### Faults of the spec (R171) -/

/-- The instance a fault names. -/
inductive InstanceId where
  /-- A generic instance, by its port number. -/
  | rb (i : Nat)
  /-- `can.buf[c]`. -/
  | canBuf (c : Controller)
  /-- Both CAN buffers, as CANRX.INIT addresses them (R120 `F_REINIT(can)`). -/
  | can
deriving DecidableEq, Repr

/-- The model faults of R171, each with the info it records. A step that raises one is a NEXT state with the
sticky record set (R172). Safe: nothing can be proved of a run past it. -/
inductive ModelFault where
  /-- F_ILLEGAL_CMD, raised by decoding (R74): the word. -/
  | illegalCmd (word : Word)
  /-- F_CONTEXT, raised by an operation in a context that may not issue it (R179): op, ctx, cs, agent. -/
  | context (op : Op) (ctx : Context) (cs : Bool) (agent : Issuer)
  /-- F_UNINIT, raised by an operation before INIT (R26): the instance. -/
  | uninit (inst : InstanceId)
  /-- F_REINIT, raised by a second INIT (R26): the instance. -/
  | reinit (inst : InstanceId)
  /-- F_ETHTX_BUSY, raised by ETHTX.SEND outside IDLE (R142): `eth.fsm`. -/
  | ethtxBusy (fsm : EthFsm)
  /-- F_CALLER_REGION, raised where a caller region is too short (R8): the region, the bytes needed. -/
  | callerRegion (region : Nat) (needed : Nat)
  /-- F_DRIVER_REGION, raised where the granted region is too short (R145): the region, the bytes needed. -/
  | driverRegion (region : Nat) (needed : Nat)
deriving DecidableEq, Repr

/-! ### The command port and the environment -/

/-- The operand records of R72 as one record at the command port: an operation reads its own fields and no other
(log 19). -/
structure Operands where
  /-- RB.PUSH `item`. -/
  item : Record
  /-- CANRX.WRITE `rawId`. -/
  rawId : Word
  /-- CANRX.WRITE `length`. -/
  length : Byte
  /-- CANRX.WRITE `data`: a caller region. -/
  data : Nat
  /-- ETHTX.SEND `frame`: a caller region. -/
  frame : Nat
  /-- ETHTX.SEND `len`. -/
  len : Half
deriving DecidableEq, Repr

/-- A command as it is presented: who issues it, at which generic instance's port (read by RB.* only, R70; log 6),
the command word and the operand record. -/
structure Command where
  /-- The issuing agent, which gives `ctx` (R32). -/
  issuer : Issuer
  /-- The number of the generic instance whose command port is used. -/
  port : Nat
  /-- The 32-bit command word. -/
  word : Word
  /-- The operand record. -/
  ops : Operands
deriving DecidableEq, Repr

/-- The data of a response (R77). -/
inductive RespData where
  /-- No data. -/
  | none
  /-- The popped record of RB.POP. -/
  | record (r : Record)
  /-- The popped frame of CANRX.READ. -/
  | frame (f : CanFrame)
  /-- A drop count. -/
  | count (n : BitVec 32)
deriving DecidableEq, Repr

/-- A response record (R77) and the agent it is returned to. -/
structure Response where
  /-- The agent whose operation completed. -/
  agent : Issuer
  /-- The result code. -/
  result : ResultCode
  /-- The data. -/
  data : RespData
deriving DecidableEq, Repr

/-- One step of an agent, ready to be taken (R5, R79). -/
inductive Input where
  /-- A command at the command port. -/
  | command (c : Command)
  /-- CS_ENTER of the CONSUMER (R56). -/
  | csEnter
  /-- CS_EXIT of the CONSUMER (R56). -/
  | csExit
  /-- ETHDRV answers ProvideTxBuffer (R140). -/
  | provideAnswer (a : ProvideAnswer)
  /-- ETHDRV answers Transmit (R141). -/
  | transmitAnswer (t : TransmitStatus)
  /-- One internal step of the block, RECONCILE or COPY (R79). -/
  | internal
  /-- A caller hands over a byte region with these bytes (R50, R62). -/
  | lendCaller (ref : Nat) (bytes : List Byte)
  /-- The driver hands over a byte region with these bytes (R50, R62). -/
  | lendDriver (ref : Nat) (bytes : List Byte)
  /-- Power-up (R36, R190), which ends the run (R172). -/
  | powerUp
deriving DecidableEq, Repr

/-- The whole state. -/
structure State where
  /-- The parameters of R6 (the model's own field, log 2). -/
  params : Config.Params
  /-- The generic RingBuffer instances exposed with a command port of their own (R22, R70). -/
  rb : List (RingBuffer Record)
  /-- CanRxDemux (R28). -/
  can : CanRxDemux
  /-- EthTxAssembler (R29). -/
  eth : EthTx
  /-- The CONSUMER's critical-section bit (R32, R56). -/
  cs : Bool
  /-- Which task-context code runs (R181, R192; log 16). -/
  task : Task
  /-- The sticky fault record (R172). -/
  faulted : Option ModelFault
  /-- Whether a power-up has ended this run (R172; the model's own field, log 17). -/
  ended : Bool
  /-- The request ETHDRV has not answered yet (R140, R141; log 14). -/
  driverRequest : Option DriverRequest
  /-- The caller byte regions (R50, R66). -/
  caller : RegionStore
  /-- The driver byte regions (R50, R67). -/
  driver : RegionStore
  /-- The command at the command port (R70, R72; log 19). -/
  port : Command
  /-- The response the latest step returned, if it returned one (R77; log 13). -/
  resp : Option Response
  /-- The steps the environment has ready, oldest first (the model's own field, log 4). -/
  inputs : List Input
  /-- Unspecified bytes drawn so far for `can.buf[0]` (the model's own field, log 9). -/
  draws0 : Nat
  /-- Unspecified bytes drawn so far for `can.buf[1]` (the model's own field, log 9). -/
  draws1 : Nat
deriving DecidableEq, Repr

/-- Why a step answers no state. -/
inductive Fault where
  /-- Raised by `step` in a state whose sticky fault record is set: no agent has a step any more (R172). Safe: the
  model stops where the spec says the block stops. -/
  | stopped (f : ModelFault)
  /-- Raised by `step` after a power-up: the run is over (R172; log 17). Safe: nothing can be proved of a run past its
  end. -/
  | runEnded
  /-- Raised by a push or a pop whose index names no slot: R24 says such an index never occurs, and gives no
  behaviour for it (log 7). Safe: the model stops. -/
  | slotIndexOutOfRange (b : InstanceId)
deriving DecidableEq, Repr

/-- Why an instruction is refused. -/
inductive Refusal where
  /-- Raised by `exec` for an instruction that has no meaning yet. Safe: nothing is claimed of it. -/
  | notModelled (mnemonic : String)
  /-- Raised by an RB.* command presented at a port number that belongs to no exposed instance: there is no such
  command port (R37, R70; log 6). Safe: the model stops. -/
  | noSuchPort (port : Nat)
deriving DecidableEq, Repr

/-- The outcome of a step or of a meaning. -/
abbrev Result := Host.Outcome State Fault Refusal

/-! ### Power-up (R35, R190) -/

/-- An instance of `n` slots at power-up: UNINIT, everything else unspecified (R35), here the named values of log 1. -/
def RingBuffer.powerUp {α : Type} (n : Nat) (d : α) : RingBuffer α where
  slots := List.replicate n { valid := false, data := d }
  wr := 0
  rd := 0
  drops := 0
  phase := .uninit

/-- A CanFrame at power-up (log 1). -/
def CanFrame.powerUp (p : Config.Params) : CanFrame where
  id := 0
  length := 0
  data := List.replicate p.canPayloadMax 0

/-- The generic instances at power-up. -/
def RingBuffer.powerUpAll (p : Config.Params) : List (RingBuffer Record) :=
  p.rb.map fun q => RingBuffer.powerUp q.capacity (List.replicate q.recordBytes 0)

/-- CanRxDemux at power-up. -/
def CanRxDemux.powerUp (p : Config.Params) : CanRxDemux where
  buf0 := RingBuffer.powerUp p.nCan (CanFrame.powerUp p)
  buf1 := RingBuffer.powerUp p.nCan (CanFrame.powerUp p)

/-- EthTxAssembler at power-up: IDLE (R35), the latches unspecified, here the named values of log 1. -/
def EthTx.powerUp : EthTx where
  fsm := .idle
  frame := 0
  len := 0
  reqLen := 0
  provStatus := .ok
  bufIdx := 0
  bufRef := 0
  granted := 0
  etherType := 0
  dstMac := { b0 := 0, b1 := 0, b2 := 0, b3 := 0, b4 := 0, b5 := 0 }
  result := .ok

/-- An operand record of zeros, its item a record of `bytes` zero bytes: DESIGN CHOICE for the record at the command
port right after power-up, of which R32 and R72 say nothing (log 31). -/
def Operands.zero (bytes : Nat) : Operands where
  item := List.replicate bytes 0
  rawId := 0
  length := 0
  data := 0
  frame := 0
  len := 0

/-- Power-up of the block in state `s` (R36, R190): every element takes its power-up value, and the run is over (R172).
The parameters, the regions that belong to callers and the driver, the pending inputs and the draw counters are not the
block's, and stay (log 17). -/
def State.powerUp (s : State) : State :=
  { s with
    rb := RingBuffer.powerUpAll s.params
    can := CanRxDemux.powerUp s.params
    eth := EthTx.powerUp
    cs := false
    task := .startup
    faulted := none
    ended := true
    driverRequest := none
    resp := none }

/-- The machine with parameters `p` right after power-up, with nothing lent and nothing pending. -/
def State.initial (p : Config.Params) : State where
  params := p
  rb := RingBuffer.powerUpAll p
  can := CanRxDemux.powerUp p
  eth := EthTx.powerUp
  cs := false
  task := .startup
  faulted := none
  ended := false
  driverRequest := none
  caller := []
  driver := []
  port := { issuer := .startup, port := 0, word := 0, ops := Operands.zero ((p.rb.head?.map (·.recordBytes)).getD 0) }
  resp := none
  inputs := []
  draws0 := 0
  draws1 := 0

/-- The machine right after reset, with R6's default parameters. -/
def State.reset : State := State.initial Config.Params.default

end Sys2Proof.Machine
end

