-- ==== Sys2Proof/Machine/Flags.lean ====
section
/-! DEFINITION. The block's only flags, the valid flags of the slots (R23), and the boolean view of a result. -/

namespace Sys2Proof.Machine

/-- `N` of an instance: the number of its slots (R6, R37). -/
def RingBuffer.capacity {α : Type} (b : RingBuffer α) : Nat := b.slots.length

/-- Invalid→Valid, with the stored record: what a push does to slot `i` (R23, R101). -/
def RingBuffer.markValid {α : Type} (b : RingBuffer α) (i : Nat) (x : α) : RingBuffer α :=
  { b with slots := b.slots.set i { valid := true, data := x } }

/-- Valid→Invalid: what a pop does to slot `i`; the record stays (R23, R102). -/
def RingBuffer.markInvalid {α : Type} (b : RingBuffer α) (i : Nat) (sl : Slot α) : RingBuffer α :=
  { b with slots := b.slots.set i { sl with valid := false } }

/-- Every flag to Invalid: what INIT does; no record is written (R23, R100). -/
def RingBuffer.markAllInvalid {α : Type} (b : RingBuffer α) : RingBuffer α :=
  { b with slots := b.slots.map fun sl => { sl with valid := false } }

/-- The source's `bool`: `result == Ok` (R76, R113, R151). -/
def ResultCode.isOk (r : ResultCode) : Bool := r == .ok

/-- The 8-bit value of a result code (R76). -/
def ResultCode.code : ResultCode → Byte
  | .ok => 0
  | .bufferFull => 1
  | .bufferEmpty => 2
  | .invalidController => 3
  | .invalidMailbox => 4
  | .driverBusy => 5
  | .malformedFrame => 6
  | .bufferAcquireFailed => 7

/-- The 3-bit value of `eth.fsm` (R30). -/
def EthFsm.code : EthFsm → BitVec 3
  | .idle => 0
  | .acquire => 1
  | .reconcile => 2
  | .copy => 3
  | .submit => 4

/-- The 2-bit value of `eth.provStatus` (R29). -/
def ProvideStatus.code : ProvideStatus → BitVec 2
  | .ok => 0
  | .eNotOk => 1
  | .overflow => 2

/-- The 1-bit value of a phase (R22). -/
def Phase.code : Phase → BitVec 1
  | .uninit => 0
  | .ready => 1

end Sys2Proof.Machine
end

