-- ==== Sys2Proof/Machine/Ops.lean ====
section
/-! DEFINITION. The shared operations: byte regions, raising a fault, returning a response, contexts, and the
bodies of INIT, PUSH and POP. -/

namespace Sys2Proof.Machine

/-! ### The bytes of a region -/

/-- What an offset reads as that no entry lists (DESIGN CHOICE, log 11). -/
def Memory.unlisted : Byte := 0

/-- The byte at offset `a`. -/
def Memory.read : Memory → Nat → Byte
  | [], _ => Memory.unlisted
  | (k, v) :: m, a => if k = a then v else Memory.read m a

/-- An entry in front of a memory, left out if it says what an unlisted offset says. -/
def Memory.consCell (a : Nat) (v : Byte) (m : Memory) : Memory :=
  if v = Memory.unlisted then m else (a, v) :: m

/-- The byte at offset `a` becomes `v`; the canonical form is kept. -/
def Memory.write : Memory → Nat → Byte → Memory
  | [], a, v => Memory.consCell a v []
  | (k, w) :: m, a, v =>
    if a < k then Memory.consCell a v ((k, w) :: m)
    else if a = k then Memory.consCell a v m
    else (k, w) :: Memory.write m a v

/-- `n` bytes from offset `a` up. -/
def Memory.readBytes (m : Memory) (a : Nat) : Nat → List Byte
  | 0 => []
  | n + 1 => Memory.read m a :: Memory.readBytes m (a + 1) n

/-- The bytes `vs` to the offsets from `a` up, in order. -/
def Memory.writeBytes (m : Memory) (a : Nat) : List Byte → Memory
  | [] => m
  | v :: vs => Memory.writeBytes (Memory.write m a v) (a + 1) vs

/-- Every entry's offset is above `lo`, offsets rise strictly, and no entry says what an unlisted offset says. -/
def Memory.wfAbove (lo : Nat) : Memory → Bool
  | [] => true
  | (k, v) :: m => decide (lo ≤ k) && decide (v ≠ Memory.unlisted) && Memory.wfAbove (k + 1) m

/-- The canonical form: offsets strictly rising, no entry equal to what an unlisted offset reads as. -/
def Memory.wf (m : Memory) : Bool := Memory.wfAbove 0 m

/-! ### Regions and stores (R8, R50) -/

/-- A region of no bytes. -/
def Region.empty : Region := { size := 0, cells := [] }

/-- The region that holds exactly these bytes. -/
def Region.ofBytes (bytes : List Byte) : Region :=
  { size := bytes.length, cells := Memory.writeBytes [] 0 bytes }

/-- A region's form: canonical cells, all below its size. -/
def Region.wf (r : Region) : Bool :=
  Memory.wf r.cells && r.cells.all fun c => decide (c.1 < r.size)

/-- The region a reference denotes (log 10). -/
def RegionStore.region (st : RegionStore) (ref : Nat) : Region := (st[ref]?).getD Region.empty

/-- `size(region)`. -/
def RegionStore.size (st : RegionStore) (ref : Nat) : Nat := (RegionStore.region st ref).size

/-- The byte of a region at an offset, if the region has one there. -/
def RegionStore.byte? (st : RegionStore) (ref : Nat) (off : Nat) : Option Byte :=
  if off < RegionStore.size st ref then some (Memory.read (RegionStore.region st ref).cells off) else none

/-- `MemRead(region, off, n)` (R8); none where the region is too short. -/
def RegionStore.memRead (st : RegionStore) (ref : Nat) (off n : Nat) : Option (List Byte) :=
  if off + n ≤ RegionStore.size st ref then
    some (Memory.readBytes (RegionStore.region st ref).cells off n)
  else none

/-- `MemWrite(region, off, n, v)` with `n` the length of `v` (R8); none where the region is too short. -/
def RegionStore.memWrite (st : RegionStore) (ref : Nat) (off : Nat) (v : List Byte) :
    Option RegionStore :=
  if off + v.length ≤ RegionStore.size st ref then
    let r := RegionStore.region st ref
    some (st.set ref { r with cells := Memory.writeBytes r.cells off v })
  else none

/-- Reference `ref` denotes `r` from now on; references below it that named nothing denote empty regions. -/
def RegionStore.lend : RegionStore → Nat → Region → RegionStore
  | [], 0, r => [r]
  | [], n + 1, r => Region.empty :: RegionStore.lend [] n r
  | _ :: st, 0, r => r :: st
  | x :: st, n + 1, r => x :: RegionStore.lend st n r

/-- Every region of the store has its form. -/
def RegionStore.wf (st : RegionStore) : Bool := st.all Region.wf

/-! ### Raising a fault, returning a response (R172, R77) -/

/-- Taking a model fault (R172): no block state is written, the sticky record is set, no response is returned. -/
def State.raise (s : State) (f : ModelFault) : State := { s with faulted := some f, resp := none }

/-- Completing an operation: its response is returned to the agent that issued it (R77). -/
def State.respond (s : State) (r : ResultCode) (d : RespData) : State :=
  { s with resp := some { agent := s.port.issuer, result := r, data := d } }

/-- A step that raises a fault. -/
def State.fail (s : State) (f : ModelFault) : Result := .next (s.raise f)

/-- A step that completes its operation. -/
def State.done (s : State) (r : ResultCode) (d : RespData) : Result := .next (s.respond r d)

/-! ### Contexts (R32, R179) -/

/-- The context of an agent (R32). -/
def Issuer.context : Issuer → Context
  | .startup => .startup
  | .producer _ => .producer
  | .consumer => .consumer

/-- `ctx` of the command at the port (R32). -/
def State.ctx (s : State) : Context := s.port.issuer.context

/-- The F_CONTEXT fault with its info: op, ctx, cs, agent (R171). -/
def State.contextFault (s : State) (op : Op) : ModelFault := .context op s.ctx s.cs s.port.issuer

/-! ### Ring buffer bodies (R100 to R102, R104) -/

/-- `inc_N(i) = (i + 1) mod N` (R7, R104). -/
def incMod (n i : Nat) : Nat := (i + 1) % n

/-- What INIT leaves of an instance (R100). -/
def RingBuffer.init {α : Type} (b : RingBuffer α) : RingBuffer α :=
  { b.markAllInvalid with wr := 0, rd := 0, drops := 0, phase := .ready }

/-- The PUSH body of R101: the result and the instance after it; none if `wr` names no slot (log 7). -/
def RingBuffer.push {α : Type} (b : RingBuffer α) (x : α) : Option (ResultCode × RingBuffer α) :=
  match b.slots[b.wr]? with
  | none => none
  | some sl =>
    if sl.valid then some (.bufferFull, { b with drops := b.drops + 1 })
    else some (.ok, { b.markValid b.wr x with wr := incMod b.capacity b.wr })

/-- The POP body of R102: the record, if there is one, and the instance after it; none if `rd` names no slot
(log 7). -/
def RingBuffer.pop {α : Type} (b : RingBuffer α) : Option (Option α × RingBuffer α) :=
  match b.slots[b.rd]? with
  | none => none
  | some sl =>
    if sl.valid then some (some sl.data, { b.markInvalid b.rd sl with rd := incMod b.capacity b.rd })
    else some (none, b)

/-! ### The instances of a state -/

/-- The generic instance at whose command port the command stands (R70). -/
def State.portBuffer? (s : State) : Option (RingBuffer Record) := s.rb[s.port.port]?

/-- The same instance replaced. -/
def State.setPortBuffer (s : State) (b : RingBuffer Record) : State :=
  { s with rb := s.rb.set s.port.port b }

/-- The controller a target number names (R28, R71); none for 2 to 255. -/
def Controller.ofTgt (tgt : Byte) : Option Controller :=
  if tgt = 0 then some .can0 else if tgt = 1 then some .can1 else none

/-- `can.buf[c]` (R28). -/
def CanRxDemux.buf (d : CanRxDemux) : Controller → RingBuffer CanFrame
  | .can0 => d.buf0
  | .can1 => d.buf1

/-- `can.buf[c]` replaced. -/
def CanRxDemux.setBuf (d : CanRxDemux) (c : Controller) (b : RingBuffer CanFrame) : CanRxDemux :=
  match c with
  | .can0 => { d with buf0 := b }
  | .can1 => { d with buf1 := b }

/-- `can.buf[c]` of a state replaced. -/
def State.setCanBuf (s : State) (c : Controller) (b : RingBuffer CanFrame) : State :=
  { s with can := s.can.setBuf c b }

end Sys2Proof.Machine
end

