-- ==== Sys2Proof/Machine/Operands.lean ====
section
/-! DEFINITION. What the operations compute from their operands: the stored CanFrame (R121, R122) and the header
fields of a frame image (R52). -/

namespace Sys2Proof.Machine

/-- The number of a controller: Can0 is 0, Can1 is 1 (R28). -/
def Controller.number : Controller → Nat
  | .can0 => 0
  | .can1 => 1

/-- `normalise(rawId)`: the marker bits are cleared and nothing else (R121). -/
def normalise (mask rawId : Word) : Word := rawId &&& ~~~mask

/-- How many unspecified bytes have been drawn for `can.buf[c]` (log 9). -/
def State.draws (s : State) : Controller → Nat
  | .can0 => s.draws0
  | .can1 => s.draws1

/-- `n` more bytes drawn for `can.buf[c]` (log 9). -/
def State.addDraws (s : State) (c : Controller) (n : Nat) : State :=
  match c with
  | .can0 => { s with draws0 := s.draws0 + n }
  | .can1 => { s with draws1 := s.draws1 + n }

/-- `n` unspecified bytes for `can.buf[c]`, from draw number `k` on (R122, log 9). -/
def freeBytes (c : Controller) (k : Nat) : Nat → List Byte
  | 0 => []
  | n + 1 => Config.freeByte c.number k :: freeBytes c (k + 1) n

/-- How many payload bytes a frame of `length` leaves unspecified: `CAN_PAYLOAD_MAX - length` (R122). -/
def State.padding (s : State) (length : Byte) : Nat := s.params.canPayloadMax - length.toNat

/-- The record CANRX.WRITE builds (R122): the normalised identifier, the length, the payload bytes in order (R51),
and unspecified bytes up to `CAN_PAYLOAD_MAX` (D6). -/
def State.canRecord (s : State) (c : Controller) (rawId : Word) (length : Byte) (bytes : List Byte) : CanFrame where
  id := normalise s.params.extMarkerMask rawId
  length := length
  data := bytes ++ freeBytes c (s.draws c) (s.padding length)

/-- The six bytes of an address in order, the first as `b0` (R52). -/
def MacAddr.ofBytes (l : List Byte) : MacAddr where
  b0 := l.getD 0 0
  b1 := l.getD 1 0
  b2 := l.getD 2 0
  b3 := l.getD 3 0
  b4 := l.getD 4 0
  b5 := l.getD 5 0

/-- The EtherType from its two header bytes, most significant first (R52, R145). -/
def etherTypeOf (hdr : List Byte) : Half :=
  ((hdr.getD 0 0).zeroExtend 16 <<< 8) ||| (hdr.getD 1 0).zeroExtend 16

end Sys2Proof.Machine
end

