-- ==== Sys2Proof/Machine/CanRxOps.lean ====
section
/-! DEFINITION. The meanings of the CanRxDemux family (41_canrx_demux.md): CANRX.INIT, CANRX.WRITE, CANRX.READ,
CANRX.DROPS. The checks stand in R174's order. -/

namespace Sys2Proof.Machine

/-- CANRX.INIT (R120): both buffers in one step, or neither. -/
def execCanrxInit (s : State) : Result :=
  if s.ctx ≠ .startup then s.fail (s.contextFault .canrxInit)
  else if s.can.buf0.phase = .ready ∨ s.can.buf1.phase = .ready then s.fail (.reinit .can)
  else
    State.done { s with can := { buf0 := s.can.buf0.init, buf1 := s.can.buf1.init } } .ok .none

/-- The PUSH body on `can.buf[c]` with the record built from `bytes` (R122). The unspecified bytes count as drawn
only where the record is stored (log 9). -/
def State.canPush (s : State) (c : Controller) (bytes : List Byte) : Result :=
  match (s.can.buf c).push (s.canRecord c s.port.ops.rawId s.port.ops.length bytes) with
  | none => .fault (.slotIndexOutOfRange (.canBuf c))
  | some (.ok, b) => ((s.setCanBuf c b).addDraws c (s.padding s.port.ops.length)).done .ok .none
  | some (r, b) => (s.setCanBuf c b).done r .none

/-- CANRX.WRITE (R122). -/
def execCanrxWrite (tgt : Byte) (s : State) : Result :=
  if s.ctx ≠ .producer then s.fail (s.contextFault .canrxWrite)
  else
    match Controller.ofTgt tgt with
    | none => s.done .invalidController .none
    | some c =>
      if s.port.issuer ≠ .producer (.can c) then s.fail (s.contextFault .canrxWrite)
      else if (s.can.buf c).phase ≠ .ready then s.fail (.uninit (.canBuf c))
      else if s.params.canPayloadMax < s.port.ops.length.toNat then s.done .malformedFrame .none
      else
        match RegionStore.memRead s.caller s.port.ops.data 0 s.port.ops.length.toNat with
        | none => s.fail (.callerRegion s.port.ops.data s.port.ops.length.toNat)
        | some bytes => s.canPush c bytes

/-- CANRX.READ (R123). -/
def execCanrxRead (tgt : Byte) (s : State) : Result :=
  if s.ctx ≠ .consumer ∨ s.cs ≠ true then s.fail (s.contextFault .canrxRead)
  else
    match Controller.ofTgt tgt with
    | none => s.done .invalidController .none
    | some c =>
      if (s.can.buf c).phase ≠ .ready then s.fail (.uninit (.canBuf c))
      else
        match (s.can.buf c).pop with
        | none => .fault (.slotIndexOutOfRange (.canBuf c))
        | some (none, _) => s.done .bufferEmpty .none
        | some (some v, b) => (s.setCanBuf c b).done .ok (.frame v)

/-- CANRX.DROPS (R124): any context may issue it (R179). -/
def execCanrxDrops (tgt : Byte) (s : State) : Result :=
  match Controller.ofTgt tgt with
  | none => s.done .invalidController .none
  | some c =>
    if (s.can.buf c).phase ≠ .ready then s.fail (.uninit (.canBuf c))
    else s.done .ok (.count (s.can.buf c).drops)

end Sys2Proof.Machine
end

