-- ==== Sys2Proof/Machine/EthTxOps.lean ====
section
/-! DEFINITION. ETHTX.SEND (R142) and the later transitions of its machine (R143 to R146). -/

namespace Sys2Proof.Machine

/-- ETHTX.SEND (R142): the guard, the checks, and the request for a driver buffer. Its response comes at the step
that brings `eth.fsm` back to IDLE (R147), which for a malformed frame is this one. -/
def execEthtxSend (s : State) : Result :=
  if s.ctx ≠ .consumer then s.fail (s.contextFault .ethtxSend)
  else if s.eth.fsm ≠ .idle then s.fail (.ethtxBusy s.eth.fsm)
  else if s.port.ops.len.toNat ≤ Config.ethHdrLen then
    State.done { s with eth := { s.eth with result := .malformedFrame } } .malformedFrame .none
  else if RegionStore.size s.caller s.port.ops.frame < s.port.ops.len.toNat then
    s.fail (.callerRegion s.port.ops.frame s.port.ops.len.toNat)
  else
    let reqLen := s.port.ops.len - BitVec.ofNat 16 Config.ethHdrLen
    .next { s with
      eth := { s.eth with frame := s.port.ops.frame, len := s.port.ops.len, reqLen := reqLen, fsm := .acquire }
      driverRequest := some (.provideTxBuffer s.params.ethCtrlIdx reqLen)
      resp := none }

/-- A send completes: IDLE, the result latched and returned to the CONSUMER (R147). DESIGN CHOICE: every other latch of
`eth` keeps what was last written to it, as R31 and the end state of vector L3-3 read, where U24 allows any value
(log 30). -/
def State.completeSend (s : State) (r : ResultCode) : State :=
  { s with
    eth := { s.eth with result := r, fsm := .idle }
    resp := some { agent := .consumer, result := r, data := .none } }

/-- ACQUIRE → RECONCILE on the driver's answer (R143). -/
def ethAcquire (a : ProvideAnswer) (s : State) : Result :=
  .next { s with
    eth := { s.eth with
      provStatus := a.status, bufIdx := a.bufIdx, bufRef := a.bufPtr, granted := a.lengthInOut, fsm := .reconcile }
    driverRequest := none
    resp := none }

/-- RECONCILE → IDLE or COPY (R144). -/
def ethReconcile (s : State) : Result :=
  if s.eth.provStatus ≠ .ok then .next (s.completeSend .bufferAcquireFailed)
  else if s.eth.granted.toNat < s.eth.reqLen.toNat then .next (s.completeSend .bufferAcquireFailed)
  else .next { s with eth := { s.eth with fsm := .copy }, resp := none }

/-- The state COPY leaves (R145): the payload in the driver buffer, the header fields latched, Transmit issued. -/
def State.copied (s : State) (drv : RegionStore) (mac hdr : List Byte) : State :=
  { s with
    driver := drv
    eth := { s.eth with dstMac := MacAddr.ofBytes mac, etherType := etherTypeOf hdr, fsm := .submit }
    driverRequest :=
      some (.transmit s.params.ethCtrlIdx s.eth.bufIdx (etherTypeOf hdr) true s.eth.reqLen (MacAddr.ofBytes mac))
    resp := none }

/-- COPY → SUBMIT (R145); the region accesses are checked in R145's order (R8, log 24). DESIGN CHOICE: a granted region
that is too short keeps all its bytes after F_DRIVER_REGION, which vector E12 leaves unspecified (log 29). -/
def ethCopy (s : State) : Result :=
  let n := s.eth.reqLen.toNat
  match RegionStore.memRead s.caller s.eth.frame Config.ethHdrLen n with
  | none => s.fail (.callerRegion s.eth.frame (Config.ethHdrLen + n))
  | some payload =>
    match RegionStore.memWrite s.driver s.eth.bufRef 0 payload with
    | none => s.fail (.driverRegion s.eth.bufRef n)
    | some drv =>
      match RegionStore.memRead s.caller s.eth.frame 0 6 with
      | none => s.fail (.callerRegion s.eth.frame 6)
      | some mac =>
        match RegionStore.memRead s.caller s.eth.frame 12 2 with
        | none => s.fail (.callerRegion s.eth.frame 14)
        | some hdr => .next (s.copied drv mac hdr)

/-- SUBMIT → IDLE on the driver's answer (R146). -/
def ethSubmit (t : TransmitStatus) (s : State) : Result :=
  let s' : State := { s with driverRequest := none }
  match t with
  | .ok => .next (s'.completeSend .ok)
  | .eNotOk => .next (s'.completeSend .driverBusy)

/-- The block's internal step, where it has one (R30): RECONCILE or COPY. -/
def ethInternal (s : State) : Result :=
  match s.eth.fsm with
  | .reconcile => ethReconcile s
  | .copy => ethCopy s
  | .idle => .next { s with resp := none }
  | .acquire => .next { s with resp := none }
  | .submit => .next { s with resp := none }

end Sys2Proof.Machine
end

