-- ==== Sys2Proof/Machine/RingBufferOps.lean ====
section
/-! DEFINITION. The meanings of the RingBuffer family (40_ringbuffer.md): RB.INIT, RB.PUSH, RB.POP, RB.DROPS. The
checks stand in R174's order. -/

namespace Sys2Proof.Machine

/-- RB.INIT (R100). -/
def execRbInit (s : State) : Result :=
  match s.portBuffer? with
  | none => .refused (.noSuchPort s.port.port)
  | some b =>
    if s.ctx ≠ .startup then s.fail (s.contextFault .rbInit)
    else if b.phase = .ready then s.fail (.reinit (.rb s.port.port))
    else (s.setPortBuffer b.init).done .ok .none

/-- RB.PUSH (R101): only the PRODUCER of this instance may issue it (R34, R179). -/
def execRbPush (s : State) : Result :=
  match s.portBuffer? with
  | none => .refused (.noSuchPort s.port.port)
  | some b =>
    if s.port.issuer ≠ .producer (.rb s.port.port) then s.fail (s.contextFault .rbPush)
    else if b.phase ≠ .ready then s.fail (.uninit (.rb s.port.port))
    else
      match b.push s.port.ops.item with
      | none => .fault (.slotIndexOutOfRange (.rb s.port.port))
      | some (r, b') => (s.setPortBuffer b').done r .none

/-- RB.POP (R102): only the CONSUMER inside its critical section may issue it. -/
def execRbPop (s : State) : Result :=
  match s.portBuffer? with
  | none => .refused (.noSuchPort s.port.port)
  | some b =>
    if s.ctx ≠ .consumer ∨ s.cs ≠ true then s.fail (s.contextFault .rbPop)
    else if b.phase ≠ .ready then s.fail (.uninit (.rb s.port.port))
    else
      match b.pop with
      | none => .fault (.slotIndexOutOfRange (.rb s.port.port))
      | some (none, _) => s.done .bufferEmpty .none
      | some (some v, b') => (s.setPortBuffer b').done .ok (.record v)

/-- RB.DROPS (R103): any context may issue it (R179). -/
def execRbDrops (s : State) : Result :=
  match s.portBuffer? with
  | none => .refused (.noSuchPort s.port.port)
  | some b =>
    if b.phase ≠ .ready then s.fail (.uninit (.rb s.port.port))
    else s.done .ok (.count b.drops)

end Sys2Proof.Machine
end

