-- ==== Sys2Proof/Machine/Dispatch.lean ====
section
/-! DEFINITION. The meaning of each instruction, one arm per constructor. -/

namespace Sys2Proof.Machine

/-- What the command at the port does, once it has decoded to `i`. -/
def exec (i : Instr) (s : State) : Host.Outcome State Fault Refusal :=
  match i with
  | .rbInit => Sys2Proof.Machine.execRbInit s
  | .rbPush => Sys2Proof.Machine.execRbPush s
  | .rbPop => Sys2Proof.Machine.execRbPop s
  | .rbDrops => Sys2Proof.Machine.execRbDrops s
  | .canrxInit => Sys2Proof.Machine.execCanrxInit s
  | .canrxWrite tgt => Sys2Proof.Machine.execCanrxWrite tgt s
  | .canrxRead tgt => Sys2Proof.Machine.execCanrxRead tgt s
  | .canrxDrops tgt => Sys2Proof.Machine.execCanrxDrops tgt s
  | .ethtxSend => Sys2Proof.Machine.execEthtxSend s

end Sys2Proof.Machine
end

