-- ==== Sys2Proof/Machine/Agents.lean ====
section
/-! DEFINITION. Which agent may step, which of the ready steps comes next, and what one does. -/

namespace Sys2Proof.Machine

/-! ### Enabledness -/

/-- Whether there is such a PRODUCER: one per CAN controller, and one per generic instance (R5, R34). -/
def Producer.exists? (s : State) : Producer → Bool
  | .can _ => true
  | .rb i => s.rb[i]?.isSome

/-- Whether an agent may step: STARTUP until the CONSUMER's loop starts, never after (R181, R192; log 16), a PRODUCER
that there is (R5, R34) while cs = 0 (R56, R176), the CONSUMER while it waits for no send (R147). -/
def Issuer.enabled (s : State) : Issuer → Bool
  | .startup => s.task == .startup
  | .producer p => !s.cs && p.exists? s
  | .consumer => s.eth.fsm == .idle

/-- Whether the block has an internal step: RECONCILE or COPY (R30). -/
def State.internalEnabled (s : State) : Bool := s.eth.fsm == .reconcile || s.eth.fsm == .copy

/-- Whether a ready step is enabled in a block that has not faulted, in a run that is not over. -/
def Input.enabledUnfaulted (s : State) : Input → Bool
  | .command c => c.issuer.enabled s
  | .csEnter => Issuer.enabled s .consumer
  | .csExit => Issuer.enabled s .consumer
  | .provideAnswer _ => s.eth.fsm == .acquire
  | .transmitAnswer _ => s.eth.fsm == .submit
  | .internal => s.internalEnabled
  | .lendCaller ref _ => s.eth.fsm == .idle || s.eth.frame != ref
  | .lendDriver _ _ => true
  | .powerUp => true

/-- Whether a ready step is enabled: none once the run is over, and only power-up once a fault is recorded (R172). -/
def Input.enabled (s : State) (x : Input) : Bool :=
  if s.ended then false
  else if s.faulted.isSome then decide (x = .powerUp) else x.enabledUnfaulted s

/-! ### Choosing a step -/

/-- A chosen step with the ready steps before it, which stay ready, and those after it. -/
structure Choice where
  /-- The ready steps before the chosen one: none of them is enabled. -/
  before : List Input
  /-- The step chosen. -/
  chosen : Input
  /-- The ready steps after it. -/
  after : List Input
deriving DecidableEq, Repr

/-- The oldest ready step that is enabled (log 4). -/
def State.choose (s : State) : List Input → Option Choice
  | [] => none
  | x :: xs =>
    if x.enabled s then some { before := [], chosen := x, after := xs }
    else
      match s.choose xs with
      | none => none
      | some c => some { c with before := x :: c.before }

/-- What stays ready after a chosen step: everything else, in its order. -/
def Choice.remaining (c : Choice) : List Input := c.before ++ c.after

/-! ### Taking a step -/

/-- A command is presented at the command port and runs: decode (R78), then the meaning; an illegal word raises
F_ILLEGAL_CMD before anything else (R74, R174). -/
def runCommand (c : Command) (s : State) : Result :=
  let s' : State := { s with port := c }
  match decode c.word with
  | .ok i => exec i s'
  | .error _ => s'.fail (.illegalCmd c.word)

/-- `s` as an agent takes a step: the CONSUMER's first step is the start of its task loop (R192; log 16). -/
def State.enterTask (s : State) : Issuer → State
  | .consumer => { s with task := .consumer }
  | .startup => s
  | .producer _ => s

/-- One agent's step, or one of the environment's. -/
def takeInput (x : Input) (s : State) : Result :=
  match x with
  | .command c => runCommand c (s.enterTask c.issuer)
  | .csEnter => .next { s.enterTask .consumer with cs := true, resp := none }
  | .csExit => .next { s.enterTask .consumer with cs := false, resp := none }
  | .provideAnswer a => ethAcquire a s
  | .transmitAnswer t => ethSubmit t s
  | .internal => ethInternal s
  | .lendCaller ref bytes =>
    .next { s with caller := RegionStore.lend s.caller ref (Region.ofBytes bytes), resp := none }
  | .lendDriver ref bytes =>
    .next { s with driver := RegionStore.lend s.driver ref (Region.ofBytes bytes), resp := none }
  | .powerUp => .next s.powerUp

/-- A step where no ready step is enabled: a run that is over and a faulted block have stopped (R172); RECONCILE and COPY go on by
themselves (R30); otherwise the block waits (R150, R190). -/
def idleStep (s : State) : Result :=
  if s.ended then .fault .runEnded
  else
    match s.faulted with
    | some f => .fault (.stopped f)
    | none => ethInternal s

/-- One step of the machine: the oldest enabled step of the environment, or the block's own. -/
def advance (s : State) : Result :=
  match s.choose s.inputs with
  | some c => takeInput c.chosen { s with inputs := c.remaining }
  | none => idleStep s

/-! ### Presenting one word -/

/-- The agent that R179 lets issue an operation, used where a bare word must be given an issuer (log 3). DESIGN CHOICE
where the spec leaves more than one: STARTUP reads a drop counter, which any agent may, and PRODUCER(Can0) issues a
CANRX.WRITE of an unknown target (2 to 255), which any PRODUCER may (R122's order of checks, vectors CV7 and PR3). STARTUP for RB.PUSH at a port of no
instance, which has no PRODUCER. -/
def naturalIssuer (s : State) : Instr → Issuer
  | .rbInit => .startup
  | .rbPush => if s.rb[s.port.port]?.isSome then .producer (.rb s.port.port) else .startup
  | .rbPop => .consumer
  | .rbDrops => .startup
  | .canrxInit => .startup
  | .canrxWrite tgt => .producer (.can ((Controller.ofTgt tgt).getD .can0))
  | .canrxRead _ => .consumer
  | .canrxDrops _ => .startup
  | .ethtxSend => .consumer

/-- The agent a bare word is issued by; STARTUP for an illegal one. -/
def wordIssuer (s : State) (w : Word) : Issuer :=
  match decode w with
  | .ok i => naturalIssuer s i
  | .error _ => .startup

/-- `s` with `c` as the oldest ready step, and with what keeps the issuer of `c` from stepping taken away: a run that is
over and a fault record (R172), for STARTUP that it was left (R181), for a PRODUCER the critical section (R56), for the
CONSUMER a send in progress (R147). -/
def State.present (s : State) (c : Command) : State :=
  { s with
    ended := false
    faulted := none
    task := (match c.issuer with | .startup => .startup | .producer _ => s.task | .consumer => s.task)
    cs := (match c.issuer with | .producer _ => false | .startup => s.cs | .consumer => s.cs)
    eth := (match c.issuer with
      | .consumer => { s.eth with fsm := .idle }
      | .startup => s.eth
      | .producer _ => s.eth)
    inputs := .command c :: s.inputs }

end Sys2Proof.Machine
end

