-- ==== Sys2Proof/Machine/Step.lean ====
section
/-! DEFINITION. The step of the machine, and how one instruction word is placed before it. -/

namespace Sys2Proof.Machine

/-- One step of the machine. -/
def step : State → Host.Outcome State Fault Refusal := advance

/-- `s` with the command word `w` ready as the next step, with the operand record and the port number that stand at
the command port, issued by the agent the operation belongs to (log 3). -/
def State.withFetchWord (s : State) (nbits w : Nat) : State :=
  match tableWord? nbits w with
  | none => s
  | some v => s.present { issuer := wordIssuer s v, port := s.port.port, word := v, ops := s.port.ops }

end Sys2Proof.Machine
end

