-- ==== Sys2Proof/Safety.lean ====
section
/-! DEFINITION. What the statements speak of: the tables of R77, R173 and R179 as the spec prints them, the
invariants of R105 and R27, the observation of R200, and sequences of operations on one instance. -/

namespace Sys2Proof.Machine

/-! ### The tables of the spec -/

/-- The fault names of R171, without their info. -/
inductive FaultKind where
  | illegalCmd | context | uninit | reinit | ethtxBusy | callerRegion | driverRegion
deriving DecidableEq, Repr

/-- The name of a fault. -/
def ModelFault.kind : ModelFault → FaultKind
  | .illegalCmd _ => .illegalCmd
  | .context _ _ _ _ => .context
  | .uninit _ => .uninit
  | .reinit _ => .reinit
  | .ethtxBusy _ => .ethtxBusy
  | .callerRegion _ _ => .callerRegion
  | .driverRegion _ _ => .driverRegion

/-- The result columns of R173, row by row. -/
def opResults : Op → List ResultCode
  | .rbInit => [.ok]
  | .rbPush => [.ok, .bufferFull]
  | .rbPop => [.ok, .bufferEmpty]
  | .rbDrops => [.ok]
  | .canrxInit => [.ok]
  | .canrxWrite => [.ok, .bufferFull, .invalidController, .malformedFrame]
  | .canrxRead => [.ok, .bufferEmpty, .invalidController]
  | .canrxDrops => [.ok, .invalidController]
  | .ethtxSend => [.ok, .malformedFrame, .bufferAcquireFailed, .driverBusy]

/-- The fault columns of R173, row by row. -/
def opFaults : Op → List FaultKind
  | .rbInit => [.illegalCmd, .context, .reinit]
  | .rbPush => [.illegalCmd, .context, .uninit]
  | .rbPop => [.illegalCmd, .context, .uninit]
  | .rbDrops => [.illegalCmd, .uninit]
  | .canrxInit => [.illegalCmd, .context, .reinit]
  | .canrxWrite => [.illegalCmd, .context, .uninit, .callerRegion]
  | .canrxRead => [.illegalCmd, .context, .uninit]
  | .canrxDrops => [.illegalCmd, .uninit]
  | .ethtxSend => [.illegalCmd, .context, .ethtxBusy, .callerRegion, .driverRegion]

/-- The `data` column of R77: which data a response of an operation carries with a result. -/
def RespData.fits (d : RespData) (op : Op) (r : ResultCode) : Bool :=
  match op, r, d with
  | .rbPop, .ok, .record _ => true
  | .rbPop, .ok, _ => false
  | .canrxRead, .ok, .frame _ => true
  | .canrxRead, .ok, _ => false
  | .rbDrops, .ok, .count _ => true
  | .rbDrops, .ok, _ => false
  | .canrxDrops, .ok, .count _ => true
  | .canrxDrops, .ok, _ => false
  | _, _, .none => true
  | _, _, _ => false

/-- The table of R179: which agent may issue which operation, with `cs`; a PRODUCER only for its own instance
(R34), where the target names one. -/
def permitted (i : Instr) (agent : Issuer) (port : Nat) (cs : Bool) : Bool :=
  match i, agent with
  | .rbInit, .startup => true
  | .rbInit, _ => false
  | .canrxInit, .startup => true
  | .canrxInit, _ => false
  | .rbPush, .producer p => p == .rb port
  | .rbPush, _ => false
  | .canrxWrite tgt, .producer p =>
    match Controller.ofTgt tgt with
    | some c => p == .can c
    | none => true
  | .canrxWrite _, _ => false
  | .rbPop, .consumer => cs
  | .rbPop, _ => false
  | .canrxRead _, .consumer => cs
  | .canrxRead _, _ => false
  | .rbDrops, _ => true
  | .canrxDrops _, _ => true
  | .ethtxSend, .consumer => true
  | .ethtxSend, _ => false

/-! ### Ring buffers: occupancy, contents (R105, R200) -/

/-- `k` of R105: the number of Valid slots. -/
def RingBuffer.count {α : Type} (b : RingBuffer α) : Nat := b.slots.countP (·.valid)

/-- The occupancy invariant of R105, with the index ranges of R110. -/
def RingBuffer.occupancy {α : Type} (b : RingBuffer α) : Prop :=
  b.rd < b.capacity ∧ b.wr < b.capacity ∧ b.count ≤ b.capacity
    ∧ b.wr = (b.rd + b.count) % b.capacity
    ∧ ∀ (i : Nat) (sl : Slot α), b.slots[i]? = some sl →
        (sl.valid = true ↔ ∃ j, j < b.count ∧ i = (b.rd + j) % b.capacity)

/-- The occupancy sequence of R200: the records of the Valid slots in order from `rd`. -/
def RingBuffer.contents {α : Type} (b : RingBuffer α) : List α :=
  (List.range b.count).filterMap fun j => (b.slots[(b.rd + j) % b.capacity]?).map (·.data)

/-- R105 from its INIT onward: a READY instance meets the occupancy invariant. -/
def RingBuffer.sound {α : Type} (b : RingBuffer α) : Prop := b.phase = .ready → b.occupancy

/-- Every instance of the block is sound. -/
def State.ringsSound (s : State) : Prop :=
  (∀ b ∈ s.rb, b.sound) ∧ s.can.buf0.sound ∧ s.can.buf1.sound

/-! ### What may change a slot (R23) -/

/-- The target field that names a controller (R28). -/
def Controller.tgt : Controller → Byte
  | .can0 => 0
  | .can1 => 1

/-- How a slot may change from `x` to `y`: from Invalid to Valid only where `toValid`, from Valid to Invalid only where
`toInvalid`, and its data only as it becomes Valid. -/
def Slot.changesOnlyBy {α : Type} (x y : Slot α) (toValid toInvalid : Prop) : Prop :=
  (x.valid = false → y.valid = true → toValid) ∧ (x.valid = true → y.valid = false → toInvalid)
    ∧ (x.data ≠ y.data → x.valid = false ∧ y.valid = true)

/-- R23 between two states `s` and `t` with operation `i` of command `c` in between: every slot of a generic instance
is set only by its PRODUCER's RB.PUSH at `wr`, and cleared only by RB.INIT and by the CONSUMER's RB.POP at `rd`; every
slot of a CAN buffer likewise, by CANRX.WRITE, CANRX.INIT and CANRX.READ. -/
def State.slotsFollow (s : State) (i : Instr) (c : Command) (t : State) : Prop :=
  (∀ (p k : Nat) (b b' : RingBuffer Record) (x y : Slot Record),
      s.rb[p]? = some b → t.rb[p]? = some b' → b.slots[k]? = some x → b'.slots[k]? = some y →
      x.changesOnlyBy y
        (i = .rbPush ∧ p = c.port ∧ k = b.wr ∧ c.issuer = .producer (.rb p))
        (p = c.port ∧ ((i = .rbInit ∧ c.issuer = .startup)
          ∨ (i = .rbPop ∧ k = b.rd ∧ c.issuer = .consumer ∧ s.cs = true))))
    ∧ ∀ (d : Controller) (k : Nat) (x y : Slot CanFrame),
      (s.can.buf d).slots[k]? = some x → (t.can.buf d).slots[k]? = some y →
      x.changesOnlyBy y
        (i = .canrxWrite d.tgt ∧ k = (s.can.buf d).wr ∧ c.issuer = .producer (.can d))
        ((i = .canrxInit ∧ c.issuer = .startup)
          ∨ (i = .canrxRead d.tgt ∧ k = (s.can.buf d).rd ∧ c.issuer = .consumer
            ∧ s.cs = true))

/-! ### The other invariants -/

/-- R37: the instances and their numbers of slots are those the build parameters give, and every one has a slot. -/
def State.shapeFixed (s : State) : Prop :=
  s.params.wellFormed = true
    ∧ s.rb.map RingBuffer.capacity = s.params.rb.map (·.capacity)
    ∧ s.can.buf0.capacity = s.params.nCan ∧ s.can.buf1.capacity = s.params.nCan

/-- A CanFrame of R27 whose identifier has no marker bit left (R121). -/
def CanFrame.wellFormed (p : Config.Params) (f : CanFrame) : Bool :=
  decide (f.length.toNat ≤ p.canPayloadMax) && decide (f.data.length = p.canPayloadMax)
    && decide (f.id &&& p.extMarkerMask = 0)

/-- In a READY CAN buffer every Valid slot holds a well-formed frame. -/
def State.framesWellFormed (s : State) : Prop :=
  ∀ c : Controller, (s.can.buf c).phase = .ready →
    ∀ sl ∈ (s.can.buf c).slots, sl.valid = true → sl.data.wellFormed s.params = true

/-- Both stores of byte regions are in canonical form. -/
def State.storesWf (s : State) : Prop :=
  RegionStore.wf s.caller = true ∧ RegionStore.wf s.driver = true

/-- What holds of a send in progress: the length arithmetic of R152, the frame's size (R142), the grant (R144), and
the one request that is pending in each state (R140, R141, R149). -/
def State.sendConsistent (s : State) : Prop :=
  (s.eth.fsm ≠ .idle →
      15 ≤ s.eth.len.toNat ∧ s.eth.reqLen.toNat = s.eth.len.toNat - 14
        ∧ s.eth.len.toNat ≤ RegionStore.size s.caller s.eth.frame)
    ∧ (s.eth.fsm = .copy ∨ s.eth.fsm = .submit →
        s.eth.provStatus = .ok ∧ s.eth.reqLen.toNat ≤ s.eth.granted.toNat)
    ∧ s.driverRequest =
        (match s.eth.fsm with
        | .idle => none
        | .acquire => some (.provideTxBuffer s.params.ethCtrlIdx s.eth.reqLen)
        | .reconcile => none
        | .copy => none
        | .submit =>
          some (.transmit s.params.ethCtrlIdx s.eth.bufIdx s.eth.etherType true s.eth.reqLen s.eth.dstMac))

/-- While the initialisation code runs, the CONSUMER's loop has not started: no critical section is held and no send is
in progress (R181, R192). -/
def State.taskOrder (s : State) : Prop := s.task = .startup → s.cs = false ∧ s.eth.fsm = .idle

/-- The environment's duty on a ready step: an RB.PUSH operand is one record of the instance's type `T` (R72). -/
def Input.wellFormed (p : Config.Params) : Input → Bool
  | .command c =>
    match decode c.word, p.rb[c.port]? with
    | .ok .rbPush, some q => decide (c.ops.item.length = q.recordBytes)
    | _, _ => true
  | .csEnter => true
  | .csExit => true
  | .provideAnswer _ => true
  | .transmitAnswer _ => true
  | .internal => true
  | .lendCaller _ _ => true
  | .lendDriver _ _ => true
  | .powerUp => true

/-- Every slot of every generic instance holds a record of its type's size (R6, D29), and so does every record
about to be pushed. -/
def State.recordsSized (s : State) : Prop :=
  (∀ x ∈ s.inputs, x.wellFormed s.params = true)
    ∧ ∀ (i : Nat) (b : RingBuffer Record) (q : Config.RbParams),
        s.rb[i]? = some b → s.params.rb[i]? = some q → ∀ sl ∈ b.slots, sl.data.length = q.recordBytes

/-! ### Runs (R172, R200) -/

/-- No fault is recorded (R172). -/
def State.noFault (s : State) : Prop := s.faulted = none

/-- Whether a ready step is one that an agent has left to issue (R200). -/
def Input.ofAgent : Input → Bool
  | .command _ => true
  | .csEnter => true
  | .csExit => true
  | .provideAnswer _ => true
  | .transmitAnswer _ => true
  | .internal => false
  | .lendCaller _ _ => false
  | .lendDriver _ _ => false
  | .powerUp => false

/-- The end of a run (R200), of a run that no power-up has ended (R172). -/
def State.endOfRun (s : State) : Prop :=
  s.ended = false ∧ s.faulted = none ∧ s.eth.fsm = .idle ∧ s.cs = false ∧ ∀ x ∈ s.inputs, x.ofAgent = false

/-! ### Sequences of operations on one generic instance (R105 to R112) -/

/-- One operation on a generic instance, issued by the agent that may issue it. -/
inductive RbEvent where
  | push (item : Record)
  | pop
  | drops
deriving DecidableEq, Repr

/-- The instruction of an event. -/
def RbEvent.instr : RbEvent → Instr
  | .push _ => .rbPush
  | .pop => .rbPop
  | .drops => .rbDrops

/-- The command of an event at instance `p`, its other operands as they stand. -/
def RbEvent.command (p : Nat) (ops : Operands) : RbEvent → Command
  | .push item =>
    { issuer := .producer (.rb p), port := p, word := encode .rbPush, ops := { ops with item := item } }
  | .pop => { issuer := .consumer, port := p, word := encode .rbPop, ops := ops }
  | .drops => { issuer := .consumer, port := p, word := encode .rbDrops, ops := ops }

/-- The event is presented to the block; a pop stands inside the critical section (R56). -/
def RbEvent.issue (p : Nat) (e : RbEvent) (s : State) : Result :=
  runCommand (e.command p s.port.ops) { s with cs := decide (e = .pop) }

/-- What a sequence of operations on one buffer did: the accepted items, the records returned, the pushes dropped. -/
structure Tally (α : Type) where
  /-- Items of the pushes that returned Ok, in order (`A` of R107). -/
  accepted : List α
  /-- Records returned by the pops that returned Ok, in order (`P` of R107). -/
  popped : List α
  /-- The number of pushes that returned BufferFull (R112). -/
  dropped : Nat
deriving DecidableEq, Repr

/-- An empty tally. -/
def Tally.zero {α : Type} : Tally α := { accepted := [], popped := [], dropped := 0 }

/-- One event counted by the response it got. -/
def RbEvent.count (e : RbEvent) (r : Option Response) (a : Tally Record) : Tally Record :=
  match e, r with
  | .push item, some { agent := _, result := .ok, data := _ } => { a with accepted := a.accepted ++ [item] }
  | .push _, some { agent := _, result := .bufferFull, data := _ } => { a with dropped := a.dropped + 1 }
  | .pop, some { agent := _, result := .ok, data := .record v } => { a with popped := a.popped ++ [v] }
  | _, _ => a

/-- A sequence of events at instance `p`, counted; none if one of them raises a fault, stops or is refused. -/
def RbEvent.runAll (p : Nat) : List RbEvent → Tally Record → State → Option (Tally Record × State)
  | [], a, s => some (a, s)
  | e :: es, a, s =>
    match e.issue p s with
    | .next t => if t.faulted.isSome then none else RbEvent.runAll p es (e.count t.resp a) t
    | .fault _ => none
    | .refused _ => none

/-! ### Sequences of operations on the two CAN buffers (R125) -/

/-- One operation on a controller's buffer, issued by the agent that may issue it. -/
inductive CanEvent where
  | write (c : Controller) (rawId : Word) (length : Byte) (data : Nat)
  | read (c : Controller)
  | drops (c : Controller)
deriving DecidableEq, Repr

/-- The controller of an event. -/
def CanEvent.controller : CanEvent → Controller
  | .write c _ _ _ => c
  | .read c => c
  | .drops c => c

/-- The command of an event, its other operands as they stand. -/
def CanEvent.command (ops : Operands) : CanEvent → Command
  | .write c rawId length data =>
    { issuer := .producer (.can c), port := 0, word := encode (.canrxWrite c.tgt),
      ops := { ops with rawId := rawId, length := length, data := data } }
  | .read c => { issuer := .consumer, port := 0, word := encode (.canrxRead c.tgt), ops := ops }
  | .drops c => { issuer := .consumer, port := 0, word := encode (.canrxDrops c.tgt), ops := ops }

/-- Whether an event is a read. -/
def CanEvent.isRead : CanEvent → Bool
  | .write _ _ _ _ => false
  | .read _ => true
  | .drops _ => false

/-- The event is presented to the block; a read stands inside the critical section (R56). -/
def CanEvent.issue (e : CanEvent) (s : State) : Result :=
  runCommand (e.command s.port.ops) { s with cs := e.isRead }

/-- The defined part of a stored frame (R27): identifier, length, and the bytes below `length`. -/
def CanFrame.defined (f : CanFrame) : Word × Byte × List Byte := (f.id, f.length, f.data.take f.length.toNat)

/-- The defined part of the frame a write hands over, if its region holds the bytes (R121, R122). -/
def CanEvent.frame? (e : CanEvent) (s : State) : Option (Word × Byte × List Byte) :=
  match e with
  | .write _ rawId length data =>
    (RegionStore.memRead s.caller data 0 length.toNat).map fun bytes =>
      (rawId &&& ~~~s.params.extMarkerMask, length, bytes)
  | .read _ => none
  | .drops _ => none

/-- One event counted for controller `c`, by the response it got. -/
def CanEvent.count (c : Controller) (e : CanEvent) (s : State) (r : Option Response)
    (a : Tally (Word × Byte × List Byte)) : Tally (Word × Byte × List Byte) :=
  if e.controller ≠ c then a
  else
    match e.frame? s, r with
    | some f, some { agent := _, result := .ok, data := .none } => { a with accepted := a.accepted ++ [f] }
    | some _, some { agent := _, result := .bufferFull, data := _ } => { a with dropped := a.dropped + 1 }
    | _, some { agent := _, result := .ok, data := .frame f } => { a with popped := a.popped ++ [f.defined] }
    | _, _ => a

/-- A sequence of events on the two buffers, counted for controller `c`; none if one of them raises a fault, stops
or is refused. -/
def CanEvent.runAll (c : Controller) :
    List CanEvent → Tally (Word × Byte × List Byte) → State → Option (Tally (Word × Byte × List Byte) × State)
  | [], a, s => some (a, s)
  | e :: es, a, s =>
    match e.issue s with
    | .next t => if t.faulted.isSome then none else CanEvent.runAll c es (e.count c s t.resp a) t
    | .fault _ => none
    | .refused _ => none

end Sys2Proof.Machine
end

