-- ==== Sys2Proof/Certificates/Slice0/Obligations.lean ====
section
/-! DEFINITION. The statements for the provers: one `def Obligations.<Name> : Prop` each, listed in OBLIGATIONS.json. -/

open Sys2Proof Sys2Proof.Machine

/-! ### Encoding and decoding (30_encoding.md) -/

/-- Words written out from R73 and R74, with what they decode to (vectors X1 to X15 of 95_test_vectors.md). -/
def Obligations.DecodeGivesTheWordsOfTheOpcodeMap : Prop :=
  decode 0x00000001#32 = .ok .rbInit ∧ decode 0x00000002#32 = .ok .rbPush ∧ decode 0x00000003#32 = .ok .rbPop
    ∧ decode 0x00000004#32 = .ok .rbDrops ∧ decode 0x00000011#32 = .ok .canrxInit
    ∧ decode 0x00000012#32 = .ok (.canrxWrite 0) ∧ decode 0x00000112#32 = .ok (.canrxWrite 1)
    ∧ decode 0x0000FF13#32 = .ok (.canrxRead 255) ∧ decode 0x00000214#32 = .ok (.canrxDrops 2)
    ∧ decode 0x00000021#32 = .ok .ethtxSend
    ∧ decode 0x00000000#32 = .error (.unassignedOp 0x00000000#32)
    ∧ decode 0x00000101#32 = .error (.targetNotZero 0x00000101#32)
    ∧ decode 0x00000121#32 = .error (.targetNotZero 0x00000121#32)
    ∧ decode 0x00010012#32 = .error (.reservedNotZero 0x00010012#32)
    ∧ decode 0x80000013#32 = .error (.reservedNotZero 0x80000013#32)

/-- Decode and encode agree in both directions, over every instruction and all 2^32 words: a word decodes to `i`
exactly if it is the encoding of `i` (R70, R73, R78). Every instruction is well formed (R71). -/
def Obligations.DecodeAndEncodeAgree : Prop :=
  (∀ i : Instr, i.wellFormed = true ∧ decode (encode i) = .ok i)
    ∧ ∀ (w : Word) (i : Instr), decode w = .ok i → w = encode i

/-- R74: a word is illegal exactly if its reserved half is not 0, its operation byte is none of the nine values, or
it names an operation that takes no target and its target byte is not 0. The bytes are written as quotients and
remainders of the word. Presenting an illegal word raises F_ILLEGAL_CMD with the word, and changes nothing but what
taking a fault changes and the command port. -/
def Obligations.IllegalWordsRaiseIllegalCmd : Prop :=
  ∀ (w : Word),
    ((∃ e, decode w = .error e) ↔
      (w.toNat / 65536 ≠ 0
        ∨ w.toNat % 256 ∉ [0x01, 0x02, 0x03, 0x04, 0x11, 0x12, 0x13, 0x14, 0x21]
        ∨ (w.toNat % 256 ∈ [0x01, 0x02, 0x03, 0x04, 0x11, 0x21] ∧ w.toNat / 256 % 256 ≠ 0)))
    ∧ ∀ (c : Command) (s : State), c.word = w → (∃ e, decode w = .error e) →
        runCommand c s = .next { s with port := c, faulted := some (.illegalCmd w), resp := none }

/-! ### The step runs the decoded command -/

/-- When the oldest enabled step is a command whose word decodes to a well-formed instruction `i`, the step is `exec`
of `i` in the state where that command stands at the port and is no longer pending (R21, R70), and where the CONSUMER's
loop runs if the command is the CONSUMER's (R181; log 16). -/
def Obligations.StepRunsTheDecodedCommand : Prop :=
  ∀ (s : State) (c : Command) (before after : List Input) (i : Instr),
    s.choose s.inputs = some { before := before, chosen := .command c, after := after } →
    decode c.word = .ok i → i.wellFormed = true →
    step s = exec i { s with
      inputs := before ++ after
      port := c
      task := if c.issuer = .consumer then .consumer else s.task }

/-- A step takes the oldest pending input that is enabled and leaves every other one pending in its order (log 4). -/
def Obligations.StepTakesTheOldestEnabledInput : Prop :=
  ∀ (s : State) (before after : List Input) (x : Input),
    s.inputs = before ++ x :: after → (∀ y ∈ before, y.enabled s = false) → x.enabled s = true →
    step s = takeInput x { s with inputs := before ++ after }

/-- The word of any instruction, placed by `withFetchWord`, is what the very next step runs, in every state, issued by
an agent that R179 permits (the CONSUMER for a pop inside its critical section; RB.PUSH at a port of an instance), with
everything else as it stood but for what would keep that agent from stepping (log 3): a run that is over and a fault
record, for STARTUP that it was left, for a PRODUCER the critical section, for the CONSUMER a send in progress. -/
def Obligations.FetchWordIsRunNext : Prop :=
  ∀ (s : State) (i : Instr),
    step (s.withFetchWord 32 (encode i).toNat) = exec i { s with
        ended := false
        faulted := none
        task := if (naturalIssuer s i).context = .startup then .startup
          else if (naturalIssuer s i).context = .consumer then .consumer else s.task
        cs := if (naturalIssuer s i).context = .producer then false else s.cs
        eth := if (naturalIssuer s i).context = .consumer then { s.eth with fsm := .idle } else s.eth
        port := { issuer := naturalIssuer s i, port := s.port.port, word := encode i, ops := s.port.ops } }
      ∧ ((i = .rbPush → (s.rb[s.port.port]?).isSome = true) →
          permitted i (naturalIssuer s i) s.port.port true = true)

/-! ### RingBuffer (40_ringbuffer.md) -/

/-- R100, whole: the encoding, both exceptions, and the state INIT leaves, whatever the power-up values were. -/
def Obligations.RbInitFollowsItsRule : Prop :=
  encode .rbInit = 0x00000001#32 ∧
  ∀ (s : State) (b : RingBuffer Record), s.rb[s.port.port]? = some b →
    (s.ctx ≠ .startup → exec .rbInit s = .next (s.raise (.context .rbInit s.ctx s.cs s.port.issuer)))
    ∧ (s.ctx = .startup → b.phase = .ready → exec .rbInit s = .next (s.raise (.reinit (.rb s.port.port))))
    ∧ (s.ctx = .startup → b.phase = .uninit →
        exec .rbInit s = .next { s with
          rb := s.rb.set s.port.port
            { slots := b.slots.map (fun sl => { valid := false, data := sl.data }), wr := 0, rd := 0, drops := 0,
              phase := .ready }
          resp := some { agent := .startup, result := .ok, data := .none } })

/-- R101: the encoding, both exceptions, the Ok push and the drop on a full buffer, with everything else unchanged. That
a PRODUCER which is not this instance's own gets F_CONTEXT, whatever the phase, is not in R101's pseudocode, which
tests `ctx` only: it is deduced from R101's Exceptions line, R34 and R195 (log 25), so this is no statement of R101
alone. -/
def Obligations.RbPushFollowsItsRule : Prop :=
  encode .rbPush = 0x00000002#32 ∧
  ∀ (s : State) (b : RingBuffer Record), s.rb[s.port.port]? = some b →
    (s.port.issuer ≠ .producer (.rb s.port.port) →
      exec .rbPush s = .next (s.raise (.context .rbPush s.ctx s.cs s.port.issuer)))
    ∧ (s.port.issuer = .producer (.rb s.port.port) → b.phase = .uninit →
        exec .rbPush s = .next (s.raise (.uninit (.rb s.port.port))))
    ∧ ∀ sl : Slot Record, s.port.issuer = .producer (.rb s.port.port) → b.phase = .ready →
        b.slots[b.wr]? = some sl →
        (sl.valid = true →
          exec .rbPush s = .next { s with
            rb := s.rb.set s.port.port { b with drops := b.drops + 1 }
            resp := some { agent := s.port.issuer, result := .bufferFull, data := .none } })
        ∧ (sl.valid = false →
          exec .rbPush s = .next { s with
            rb := s.rb.set s.port.port
              { b with
                slots := b.slots.set b.wr { valid := true, data := s.port.ops.item }
                wr := (b.wr + 1) % b.slots.length }
            resp := some { agent := s.port.issuer, result := .ok, data := .none } })

/-- R102: the encoding, both exceptions, the Ok pop, and the pop of an empty buffer, which changes nothing. -/
def Obligations.RbPopFollowsItsRule : Prop :=
  encode .rbPop = 0x00000003#32 ∧
  ∀ (s : State) (b : RingBuffer Record), s.rb[s.port.port]? = some b →
    ((s.ctx ≠ .consumer ∨ s.cs = false) →
      exec .rbPop s = .next (s.raise (.context .rbPop s.ctx s.cs s.port.issuer)))
    ∧ (s.ctx = .consumer → s.cs = true → b.phase = .uninit →
        exec .rbPop s = .next (s.raise (.uninit (.rb s.port.port))))
    ∧ ∀ sl : Slot Record, s.ctx = .consumer → s.cs = true → b.phase = .ready → b.slots[b.rd]? = some sl →
        (sl.valid = false →
          exec .rbPop s = .next { s with
            resp := some { agent := .consumer, result := .bufferEmpty, data := .none } })
        ∧ (sl.valid = true →
          exec .rbPop s = .next { s with
            rb := s.rb.set s.port.port
              { b with
                slots := b.slots.set b.rd { valid := false, data := sl.data }
                rd := (b.rd + 1) % b.slots.length }
            resp := some { agent := .consumer, result := .ok, data := .record sl.data } })

/-- R103: the encoding, the exception, and the count returned to any context, with no state written. -/
def Obligations.RbDropsFollowsItsRule : Prop :=
  encode .rbDrops = 0x00000004#32 ∧
  ∀ (s : State) (b : RingBuffer Record), s.rb[s.port.port]? = some b →
    (b.phase = .uninit → exec .rbDrops s = .next (s.raise (.uninit (.rb s.port.port))))
    ∧ (b.phase = .ready →
        exec .rbDrops s = .next { s with
          resp := some { agent := s.port.issuer, result := .ok, data := .count b.drops } })

/-- The model's own stops (log 6, log 7), in both directions. An RB.* command at a port that belongs to no instance is
refused by name, and whatever is refused is such a command. A push or pop by the agent that may issue it, on a READY
instance, faults by name where its index names no slot (for CANRX.WRITE, where its length and its region let it come to
the push), and whatever faults is such a push or pop. -/
def Obligations.OnlyTheNamedStopsStop : Prop :=
  ∀ (i : Instr) (s : State),
    (s.rb[s.port.port]? = none → i.op = .rbInit ∨ i.op = .rbPush ∨ i.op = .rbPop ∨ i.op = .rbDrops →
        exec i s = .refused (.noSuchPort s.port.port))
    ∧ (∀ f, exec i s = .fault f →
        (∃ b, s.rb[s.port.port]? = some b ∧ f = .slotIndexOutOfRange (.rb s.port.port) ∧ b.phase = .ready
            ∧ ((i = .rbPush ∧ s.port.issuer = .producer (.rb s.port.port) ∧ b.slots.length ≤ b.wr)
              ∨ (i = .rbPop ∧ s.port.issuer = .consumer ∧ s.cs = true ∧ b.slots.length ≤ b.rd)))
        ∨ ∃ c : Controller, f = .slotIndexOutOfRange (.canBuf c) ∧ (s.can.buf c).phase = .ready
            ∧ ((i = .canrxWrite c.tgt ∧ s.port.issuer = .producer (.can c)
                  ∧ s.port.ops.length.toNat ≤ s.params.canPayloadMax
                  ∧ s.port.ops.length.toNat ≤ RegionStore.size s.caller s.port.ops.data
                  ∧ (s.can.buf c).slots.length ≤ (s.can.buf c).wr)
              ∨ (i = .canrxRead c.tgt ∧ s.port.issuer = .consumer ∧ s.cs = true
                  ∧ (s.can.buf c).slots.length ≤ (s.can.buf c).rd)))
    ∧ (∀ b : RingBuffer Record, s.rb[s.port.port]? = some b → b.phase = .ready →
        (i = .rbPush → s.port.issuer = .producer (.rb s.port.port) → b.slots.length ≤ b.wr →
          exec i s = .fault (.slotIndexOutOfRange (.rb s.port.port)))
        ∧ (i = .rbPop → s.port.issuer = .consumer → s.cs = true → b.slots.length ≤ b.rd →
          exec i s = .fault (.slotIndexOutOfRange (.rb s.port.port))))
    ∧ (∀ c : Controller, (s.can.buf c).phase = .ready →
        (i = .canrxWrite c.tgt → s.port.issuer = .producer (.can c) →
          s.port.ops.length.toNat ≤ s.params.canPayloadMax →
          s.port.ops.length.toNat ≤ RegionStore.size s.caller s.port.ops.data →
          (s.can.buf c).slots.length ≤ (s.can.buf c).wr →
          exec i s = .fault (.slotIndexOutOfRange (.canBuf c)))
        ∧ (i = .canrxRead c.tgt → s.port.issuer = .consumer → s.cs = true →
          (s.can.buf c).slots.length ≤ (s.can.buf c).rd →
          exec i s = .fault (.slotIndexOutOfRange (.canBuf c))))
    ∧ ∀ r, exec i s = .refused r → r = .noSuchPort s.port.port ∧ s.rb[s.port.port]? = none
        ∧ (i.op = .rbInit ∨ i.op = .rbPush ∨ i.op = .rbPop ∨ i.op = .rbDrops)

/-- R104: `inc_N` yields no value of N or more, is the constant 0 for N = 1, is `(i + 1) AND (N - 1)` for a power of
two, and the width IDX_W(N) of R6 holds every index below N. -/
def Obligations.IndexArithmeticStaysInRange : Prop :=
  (∀ n i : Nat, i < n → incMod n i < n ∧ incMod n i = if i = n - 1 then 0 else i + 1)
    ∧ (∀ i : Nat, incMod 1 i = 0)
    ∧ (∀ k i : Nat, i < 2 ^ k → incMod (2 ^ k) i = (i + 1) &&& (2 ^ k - 1))
    ∧ ∀ n i : Nat, i < n → i < 2 ^ Config.idxWidth n

/-! ### Laws of a ring buffer
The spec marks R105 to R112 as its own inferences from R100 to R104 (40_ringbuffer.md, 3. Laws). -/

/-- R106, for every record type (so for the generic instances and the CAN buffers alike): with the occupancy
invariant, the buffer is full exactly when the slot at `wr` is Valid, and empty exactly when the slot at `rd` is
Invalid, and in both cases `wr = rd`. -/
def Obligations.FullAndEmptyAreReadFromTheValidFlag : Prop :=
  ∀ (α : Type) (b : RingBuffer α), b.occupancy →
    (b.count = b.capacity ↔ ∃ sl, b.slots[b.wr]? = some sl ∧ sl.valid = true)
    ∧ (b.count = 0 ↔ ∃ sl, b.slots[b.rd]? = some sl ∧ sl.valid = false)
    ∧ (b.count = b.capacity → b.wr = b.rd) ∧ (b.count = 0 → b.wr = b.rd)

/-- A push and a pop of any record type, as operations on the occupancy sequence (R107, R108, R109): an Ok push appends its record, a
BufferFull push leaves the sequence as it was with the count of drops one higher, an Ok pop takes the first record
away and returns it, a BufferEmpty pop leaves the whole buffer as it was; and the occupancy invariant is kept. -/
def Obligations.PushAndPopActOnTheContents : Prop :=
  ∀ (α : Type) (b b' : RingBuffer α), b.occupancy →
    (∀ (x : α) (r : ResultCode), b.push x = some (r, b') →
      b'.occupancy
        ∧ ((r = .ok ∧ b.count < b.capacity ∧ b'.contents = b.contents ++ [x] ∧ b'.drops = b.drops)
          ∨ (r = .bufferFull ∧ b.count = b.capacity ∧ b'.contents = b.contents ∧ b'.drops = b.drops + 1)))
    ∧ ∀ o : Option α, b.pop = some (o, b') →
        b'.occupancy ∧ b'.drops = b.drops
          ∧ ((∃ v, o = some v ∧ b.contents = v :: b'.contents) ∨ (o = none ∧ b.contents = [] ∧ b' = b))

/-- R107 and R112 on the machine: any sequence of RB.PUSH, RB.POP and RB.DROPS on an initialised instance runs to its
end; what was stored before, followed by the accepted items, is the popped records followed by what is stored after,
and the drop counter counts the BufferFull pushes modulo 2^32. -/
def Obligations.GenericBufferIsFifo : Prop :=
  ∀ (p : Nat) (es : List RbEvent) (s : State) (b : RingBuffer Record),
    s.rb[p]? = some b → b.phase = .ready → b.occupancy → s.faulted = none →
    ∃ (a : Tally Record) (t : State) (b' : RingBuffer Record),
      RbEvent.runAll p es Tally.zero s = some (a, t) ∧ t.rb[p]? = some b' ∧ b'.phase = .ready ∧ b'.occupancy
        ∧ b.contents ++ a.accepted = a.popped ++ b'.contents
        ∧ b'.drops = b.drops + BitVec.ofNat 32 a.dropped

/-- R107 since INIT: after RB.INIT, in every sequence of operations, the records returned by the Ok pops are a first
part of the items of the Ok pushes. -/
def Obligations.PopsArePartOfPushesSinceInit : Prop :=
  ∀ (s s' t : State) (b : RingBuffer Record) (es : List RbEvent) (a : Tally Record),
    s.rb[s.port.port]? = some b → 1 ≤ b.capacity → s.faulted = none → exec .rbInit s = .next s' →
    s'.faulted = none → RbEvent.runAll s.port.port es Tally.zero s' = some (a, t) →
    a.popped <+: a.accepted

/-- R111: from an empty instance of N slots, N pushes in a row all return Ok, the next one returns BufferFull, and
after m pops exactly m further pushes return Ok before the next BufferFull. -/
def Obligations.CapacityIsExactlyN : Prop :=
  ∀ (p : Nat) (s : State) (b : RingBuffer Record) (xs ys : List Record) (x y : Record) (m : Nat),
    s.rb[p]? = some b → b.phase = .ready → b.occupancy → b.count = 0 → s.faulted = none →
    xs.length = b.capacity → m ≤ b.capacity → ys.length = m →
    ∃ t, RbEvent.runAll p
        (xs.map .push ++ [.push x] ++ List.replicate m .pop ++ ys.map .push ++ [.push y]) Tally.zero s
      = some ({ accepted := xs ++ ys, popped := xs.take m, dropped := 2 }, t)

/-! ### CanRxDemux (41_canrx_demux.md) -/

/-- R120: the encoding, both exceptions with neither buffer changed, and both buffers initialised in one step. -/
def Obligations.CanrxInitFollowsItsRule : Prop :=
  encode .canrxInit = 0x00000011#32 ∧
  ∀ s : State,
    (s.ctx ≠ .startup → exec .canrxInit s = .next (s.raise (.context .canrxInit s.ctx s.cs s.port.issuer)))
    ∧ (s.ctx = .startup → (s.can.buf0.phase = .ready ∨ s.can.buf1.phase = .ready) →
        exec .canrxInit s = .next (s.raise (.reinit .can)))
    ∧ (s.ctx = .startup → s.can.buf0.phase = .uninit → s.can.buf1.phase = .uninit →
        exec .canrxInit s = .next { s with
          can := {
            buf0 := { slots := s.can.buf0.slots.map (fun sl => { valid := false, data := sl.data }), wr := 0, rd := 0,
                      drops := 0, phase := .ready }
            buf1 := { slots := s.can.buf1.slots.map (fun sl => { valid := false, data := sl.data }), wr := 0, rd := 0,
                      drops := 0, phase := .ready } }
          resp := some { agent := .startup, result := .ok, data := .none } })

/-- R121: `normalise` clears the marker bits and keeps every other bit; with the default mask the rule's examples. -/
def Obligations.NormaliseClearsOnlyTheMarker : Prop :=
  (∀ (mask raw : Word) (k : Nat), (normalise mask raw).getLsbD k = (raw.getLsbD k && !mask.getLsbD k))
    ∧ normalise Config.Params.default.extMarkerMask 0x80000123#32 = 0x00000123#32
    ∧ normalise Config.Params.default.extMarkerMask 0x00000123#32 = 0x00000123#32
    ∧ normalise Config.Params.default.extMarkerMask 0x9FFFFFFF#32 = 0x1FFFFFFF#32

/-- R122. Its failing outcomes in its order: context, unknown controller, another controller's PRODUCER, phase,
length, region; nothing but the response or the fault record changes. Then its push: the Ok write stores the normalised
identifier, the length and the caller's bytes in order in the slot at `wr`, which becomes Valid, and advances `wr`; on
a full buffer only the drop counter moves. The bytes from `length` up are whatever they are: there are just enough of
them. -/
def Obligations.CanrxWriteFollowsItsRule : Prop :=
  (∀ (s : State) (tgt : Byte),
      encode (.canrxWrite tgt) = 0x00000012#32 ||| (tgt.zeroExtend 32 <<< 8)
      ∧ (s.ctx ≠ .producer →
          exec (.canrxWrite tgt) s = .next (s.raise (.context .canrxWrite s.ctx s.cs s.port.issuer)))
      ∧ (s.ctx = .producer → 2 ≤ tgt.toNat →
          exec (.canrxWrite tgt) s = .next { s with
            resp := some { agent := s.port.issuer, result := .invalidController, data := .none } })
      ∧ ∀ c : Controller, tgt.toNat = c.number → s.ctx = .producer →
          (s.port.issuer ≠ .producer (.can c) →
            exec (.canrxWrite tgt) s = .next (s.raise (.context .canrxWrite s.ctx s.cs s.port.issuer)))
          ∧ (s.port.issuer = .producer (.can c) → (s.can.buf c).phase = .uninit →
            exec (.canrxWrite tgt) s = .next (s.raise (.uninit (.canBuf c))))
          ∧ (s.port.issuer = .producer (.can c) → (s.can.buf c).phase = .ready →
              s.params.canPayloadMax < s.port.ops.length.toNat →
            exec (.canrxWrite tgt) s = .next { s with
              resp := some { agent := s.port.issuer, result := .malformedFrame, data := .none } })
          ∧ (s.port.issuer = .producer (.can c) → (s.can.buf c).phase = .ready →
              s.port.ops.length.toNat ≤ s.params.canPayloadMax →
              RegionStore.size s.caller s.port.ops.data < s.port.ops.length.toNat →
            exec (.canrxWrite tgt) s = .next (s.raise (.callerRegion s.port.ops.data s.port.ops.length.toNat))))
  ∧ (∀ (s : State) (tgt : Byte) (c : Controller) (sl : Slot CanFrame),
      tgt.toNat = c.number → s.port.issuer = .producer (.can c) → (s.can.buf c).phase = .ready →
      s.port.ops.length.toNat ≤ s.params.canPayloadMax →
      s.port.ops.length.toNat ≤ RegionStore.size s.caller s.port.ops.data →
      (s.can.buf c).slots[(s.can.buf c).wr]? = some sl →
      (sl.valid = true →
        exec (.canrxWrite tgt) s = .next { s with
          can := s.can.setBuf c { s.can.buf c with drops := (s.can.buf c).drops + 1 }
          resp := some { agent := s.port.issuer, result := .bufferFull, data := .none } })
      ∧ (sl.valid = false →
        ∃ rec : CanFrame,
          rec.id = normalise s.params.extMarkerMask s.port.ops.rawId ∧ rec.length = s.port.ops.length
            ∧ rec.data.length = s.params.canPayloadMax
            ∧ (∀ k, k < s.port.ops.length.toNat →
                rec.data[k]? = RegionStore.byte? s.caller s.port.ops.data k)
            ∧ exec (.canrxWrite tgt) s =
                .next ((({ s with
                  can := s.can.setBuf c
                    { s.can.buf c with
                      slots := (s.can.buf c).slots.set (s.can.buf c).wr { valid := true, data := rec }
                      wr := ((s.can.buf c).wr + 1) % (s.can.buf c).slots.length } } : State).addDraws c
                    (s.params.canPayloadMax - s.port.ops.length.toNat)).respond .ok .none)))

/-- R123: the encoding, the context check, the unknown controller, the phase, the empty buffer, and the Ok read. -/
def Obligations.CanrxReadFollowsItsRule : Prop :=
  ∀ (s : State) (tgt : Byte),
    encode (.canrxRead tgt) = 0x00000013#32 ||| (tgt.zeroExtend 32 <<< 8)
    ∧ ((s.ctx ≠ .consumer ∨ s.cs = false) →
        exec (.canrxRead tgt) s = .next (s.raise (.context .canrxRead s.ctx s.cs s.port.issuer)))
    ∧ (s.ctx = .consumer → s.cs = true → 2 ≤ tgt.toNat →
        exec (.canrxRead tgt) s = .next { s with
          resp := some { agent := .consumer, result := .invalidController, data := .none } })
    ∧ ∀ c : Controller, tgt.toNat = c.number → s.ctx = .consumer → s.cs = true →
        ((s.can.buf c).phase = .uninit →
          exec (.canrxRead tgt) s = .next (s.raise (.uninit (.canBuf c))))
        ∧ ∀ sl : Slot CanFrame, (s.can.buf c).phase = .ready →
            (s.can.buf c).slots[(s.can.buf c).rd]? = some sl →
            (sl.valid = false →
              exec (.canrxRead tgt) s = .next { s with
                resp := some { agent := .consumer, result := .bufferEmpty, data := .none } })
            ∧ (sl.valid = true →
              exec (.canrxRead tgt) s = .next { s with
                can := s.can.setBuf c
                  { s.can.buf c with
                    slots := (s.can.buf c).slots.set (s.can.buf c).rd { valid := false, data := sl.data }
                    rd := ((s.can.buf c).rd + 1) % (s.can.buf c).slots.length }
                resp := some { agent := .consumer, result := .ok, data := .frame sl.data } })

/-- R124: the encoding, the unknown controller, the phase, and the controller's own count, to any context, with no state
written. The count is per controller: no CANRX.WRITE of another target changes it, and a write that answers
MalformedFrame or InvalidController is not counted at all. -/
def Obligations.CanrxDropsFollowsItsRule : Prop :=
  (∀ (s : State) (tgt : Byte),
      encode (.canrxDrops tgt) = 0x00000014#32 ||| (tgt.zeroExtend 32 <<< 8)
      ∧ (2 ≤ tgt.toNat →
          exec (.canrxDrops tgt) s = .next { s with
            resp := some { agent := s.port.issuer, result := .invalidController, data := .none } })
      ∧ ∀ c : Controller, tgt.toNat = c.number →
          ((s.can.buf c).phase = .uninit → exec (.canrxDrops tgt) s = .next (s.raise (.uninit (.canBuf c))))
          ∧ ((s.can.buf c).phase = .ready →
            exec (.canrxDrops tgt) s = .next { s with
              resp := some { agent := s.port.issuer, result := .ok, data := .count (s.can.buf c).drops } }))
  ∧ ∀ (s t : State) (tgt : Byte) (d : Controller), exec (.canrxWrite tgt) s = .next t →
      (tgt.toNat ≠ d.number → (t.can.buf d).drops = (s.can.buf d).drops)
      ∧ ∀ r : Response, t.resp = some r →
          r.result = .malformedFrame ∨ r.result = .invalidController → (t.can.buf d).drops = (s.can.buf d).drops

/-- R125, which the spec marks as its own inference, on the machine: any sequence of CANRX.WRITE, CANRX.READ and
CANRX.DROPS on the two initialised buffers, in any order, runs to its end, where every write of an admitted length has
a region that holds its bytes (a longer one returns MalformedFrame and needs no region, R122); and for each controller,
what its buffer held before, followed by the frames accepted for it, is the frames read from it followed by what it
holds after. So the frames of one controller are delivered in their order and none crosses over. Its drop counter
counts its BufferFull writes, and no MalformedFrame (R124). Frames are compared by their defined part (R27). -/
def Obligations.EachCanBufferIsFifo : Prop :=
  ∀ (c : Controller) (es : List CanEvent) (s : State),
    (∀ d : Controller, (s.can.buf d).phase = .ready ∧ (s.can.buf d).occupancy) → s.faulted = none →
    (∀ e ∈ es, ∀ (d : Controller) (rawId : Word) (length : Byte) (data : Nat), e = .write d rawId length data →
      length.toNat ≤ s.params.canPayloadMax → length.toNat ≤ RegionStore.size s.caller data) →
    ∃ (a : Tally (Word × Byte × List Byte)) (t : State),
      CanEvent.runAll c es Tally.zero s = some (a, t)
        ∧ (∀ d : Controller, (t.can.buf d).phase = .ready ∧ (t.can.buf d).occupancy)
        ∧ (s.can.buf c).contents.map CanFrame.defined ++ a.accepted
            = a.popped ++ (t.can.buf c).contents.map CanFrame.defined
        ∧ (t.can.buf c).drops = (s.can.buf c).drops + BitVec.ofNat 32 a.dropped

/-- R59, which the spec marks as its own inference: a write of one controller and a write of the other commute on the block's state. -/
def Obligations.WritesOfTheTwoControllersCommute : Prop :=
  ∀ (s a b ab ba : State) (x y : Command),
    x.word = 0x00000012#32 → y.word = 0x00000112#32 →
    runCommand x s = .next a → a.faulted = none → runCommand y a = .next ab → ab.faulted = none →
    runCommand y s = .next b → b.faulted = none → runCommand x b = .next ba → ba.faulted = none →
    ab.can = ba.can ∧ ab.rb = ba.rb ∧ ab.eth = ba.eth ∧ ab.draws0 = ba.draws0 ∧ ab.draws1 = ba.draws1
      ∧ ab.resp.map (·.result) = b.resp.map (·.result) ∧ ba.resp.map (·.result) = a.resp.map (·.result)

/-! ### EthTxAssembler (42_ethtx.md) -/

/-- R142: the encoding, the exceptions, the guard at 14 bytes before the region check, and the request issued. That the
latches which R142 does not write stay as an earlier send left them is the model's choice, where U24 allows any value
(log 30), so this is no statement of R142 alone. -/
def Obligations.EthtxSendFollowsItsRule : Prop :=
  encode .ethtxSend = 0x00000021#32 ∧
  ∀ s : State,
    (s.ctx ≠ .consumer → exec .ethtxSend s = .next (s.raise (.context .ethtxSend s.ctx s.cs s.port.issuer)))
    ∧ (s.ctx = .consumer → s.eth.fsm ≠ .idle → exec .ethtxSend s = .next (s.raise (.ethtxBusy s.eth.fsm)))
    ∧ (s.ctx = .consumer → s.eth.fsm = .idle → s.port.ops.len.toNat ≤ 14 →
        exec .ethtxSend s = .next { s with
          eth := { s.eth with result := .malformedFrame }
          resp := some { agent := .consumer, result := .malformedFrame, data := .none } })
    ∧ (s.ctx = .consumer → s.eth.fsm = .idle → 14 < s.port.ops.len.toNat →
        RegionStore.size s.caller s.port.ops.frame < s.port.ops.len.toNat →
        exec .ethtxSend s = .next (s.raise (.callerRegion s.port.ops.frame s.port.ops.len.toNat)))
    ∧ (s.ctx = .consumer → s.eth.fsm = .idle → 14 < s.port.ops.len.toNat →
        s.port.ops.len.toNat ≤ RegionStore.size s.caller s.port.ops.frame →
        exec .ethtxSend s = .next { s with
          eth := { s.eth with
            frame := s.port.ops.frame, len := s.port.ops.len, reqLen := s.port.ops.len - 14#16, fsm := .acquire }
          driverRequest := some (.provideTxBuffer s.params.ethCtrlIdx (s.port.ops.len - 14#16))
          resp := none })

/-- R143: the answer to ProvideTxBuffer is taken in ACQUIRE only, where the block has no step of its own; all of it is
latched, RECONCILE follows, and no result is produced. -/
def Obligations.AcquireLatchesTheAnswer : Prop :=
  ∀ (s : State) (a : ProvideAnswer), s.ended = false → s.faulted = none →
    ((Input.provideAnswer a).enabled s = true ↔ s.eth.fsm = .acquire)
    ∧ (s.eth.fsm = .acquire → Input.internal.enabled s = false)
    ∧ takeInput (.provideAnswer a) s = .next { s with
        eth := { s.eth with
          provStatus := a.status, bufIdx := a.bufIdx, bufRef := a.bufPtr, granted := a.lengthInOut,
          fsm := .reconcile }
        driverRequest := none
        resp := none }

/-- R144: RECONCILE, an internal step, fails the send with BufferAcquireFailed where the driver refused or granted too little, and goes
on to COPY otherwise; the driver's buffers and its request are untouched. That a failed send leaves the other latches as
they were is the model's choice, where U24 allows any value (log 30), so this is no statement of R144 alone. -/
def Obligations.ReconcileFollowsItsRule : Prop :=
  ∀ s : State, s.eth.fsm = .reconcile →
    (s.ended = false → s.faulted = none → Input.internal.enabled s = true)
    ∧ ((s.eth.provStatus ≠ .ok ∨ s.eth.granted.toNat < s.eth.reqLen.toNat) →
      takeInput .internal s = .next { s with
        eth := { s.eth with result := .bufferAcquireFailed, fsm := .idle }
        resp := some { agent := .consumer, result := .bufferAcquireFailed, data := .none } })
    ∧ (s.eth.provStatus = .ok → s.eth.reqLen.toNat ≤ s.eth.granted.toNat →
      takeInput .internal s = .next { s with eth := { s.eth with fsm := .copy }, resp := none })

/-- R145, with three points that are the model's own reading and not R145's words, so that this is no statement of the
rule alone: where the header fields stand is R52's general knowledge (log 20); that COPY raises F_CALLER_REGION, and
with 14 + reqLen as the bytes needed, is deduced from R8 (log 24); that a granted region too short keeps its bytes
after F_DRIVER_REGION is a choice, which vector E12 leaves unspecified (log 29). COPY is an internal step. Where the frame and the granted region are long enough, the payload arrives in
order in the first `reqLen` bytes of the granted region, no other byte of any region changes, the destination MAC is
frame bytes 0 to 5, the EtherType is frame bytes 12 and 13, the first the more significant, and Transmit is issued
with them. Where the granted region is too short, F_DRIVER_REGION; where the frame image, which is read first, is too
short (R8), F_CALLER_REGION; then nothing is copied. -/
def Obligations.CopyFollowsItsRule : Prop :=
  ∀ s : State, s.eth.fsm = .copy →
    (s.ended = false → s.faulted = none → Input.internal.enabled s = true)
    ∧ (s.storesWf →
      14 + s.eth.reqLen.toNat ≤ RegionStore.size s.caller s.eth.frame →
      s.eth.reqLen.toNat ≤ RegionStore.size s.driver s.eth.bufRef →
      ∃ (t : State) (f : Nat → Byte),
        (∀ k, k < 14 → RegionStore.byte? s.caller s.eth.frame k = some (f k))
          ∧ takeInput .internal s = .next t
          ∧ (∀ k, k < s.eth.reqLen.toNat →
              RegionStore.byte? t.driver s.eth.bufRef k = RegionStore.byte? s.caller s.eth.frame (14 + k))
          ∧ (∀ ref k, ¬ (ref = s.eth.bufRef ∧ k < s.eth.reqLen.toNat) →
              RegionStore.byte? t.driver ref k = RegionStore.byte? s.driver ref k)
          ∧ t = { s with
              driver := t.driver
              eth := { s.eth with
                dstMac := { b0 := f 0, b1 := f 1, b2 := f 2, b3 := f 3, b4 := f 4, b5 := f 5 }
                etherType := f 12 ++ f 13
                fsm := .submit }
              driverRequest := some (.transmit s.params.ethCtrlIdx s.eth.bufIdx (f 12 ++ f 13) true s.eth.reqLen
                { b0 := f 0, b1 := f 1, b2 := f 2, b3 := f 3, b4 := f 4, b5 := f 5 })
              resp := none })
    ∧ (RegionStore.size s.caller s.eth.frame < 14 + s.eth.reqLen.toNat →
        takeInput .internal s = .next (s.raise (.callerRegion s.eth.frame (14 + s.eth.reqLen.toNat))))
      ∧ (14 + s.eth.reqLen.toNat ≤ RegionStore.size s.caller s.eth.frame →
          RegionStore.size s.driver s.eth.bufRef < s.eth.reqLen.toNat →
        takeInput .internal s = .next (s.raise (.driverRegion s.eth.bufRef s.eth.reqLen.toNat)))

/-- R146: the answer to Transmit is taken in SUBMIT only, and completes the send with Ok or DriverBusy. That the other
latches stay as they were is the model's choice, where U24 allows any value after a send (log 30), so this is no
statement of R146 alone. -/
def Obligations.SubmitCompletesTheSend : Prop :=
  ∀ (s : State) (t : TransmitStatus), s.ended = false → s.faulted = none →
    ((Input.transmitAnswer t).enabled s = true ↔ s.eth.fsm = .submit)
    ∧ takeInput (.transmitAnswer .ok) s = .next { s with
        eth := { s.eth with result := .ok, fsm := .idle }
        driverRequest := none
        resp := some { agent := .consumer, result := .ok, data := .none } }
    ∧ takeInput (.transmitAnswer .eNotOk) s = .next { s with
        eth := { s.eth with result := .driverBusy, fsm := .idle }
        driverRequest := none
        resp := some { agent := .consumer, result := .driverBusy, data := .none } }

/-- R148, the one-step view, which the spec marks as its own inference, on the machine, for a send of more than 14 bytes: with the command, the driver's answer
`a` and its answer `ts` pending, three steps complete a refused or short grant with BufferAcquireFailed, no Transmit
pending and the driver's buffers untouched; where the grant is large enough and its region holds the payload, after
the COPY step Transmit is pending with the arguments of R148's table, and five steps complete the send with Ok or
DriverBusy, the payload in the granted region, for every answer of the driver. Not in this statement: a send of up to
14 bytes (EthtxSendFollowsItsRule), a granted region that is too short (CopyFollowsItsRule), and PRODUCER steps in
between (ConsumerWaitsForItsSend). -/
def Obligations.SendFollowsTheOneStepView : Prop :=
  ∀ (s : State) (c : Command) (a : ProvideAnswer) (ts : TransmitStatus),
    s.ended = false → s.faulted = none → s.eth.fsm = .idle → s.driverRequest = none → s.storesWf →
    s.inputs = [.command c, .provideAnswer a, .transmitAnswer ts] →
    c.word = 0x00000021#32 → c.issuer = .consumer → 14 < c.ops.len.toNat →
    c.ops.len.toNat ≤ RegionStore.size s.caller c.ops.frame →
    (∃ t1, Host.Core.run core 1 s = .next t1
      ∧ t1.driverRequest = some (.provideTxBuffer s.params.ethCtrlIdx (c.ops.len - 14#16)))
    ∧ ((a.status ≠ .ok ∨ a.lengthInOut.toNat < c.ops.len.toNat - 14) →
        ∃ t3, Host.Core.run core 3 s = .next t3 ∧ t3.eth.fsm = .idle ∧ t3.driver = s.driver
          ∧ t3.driverRequest = none
          ∧ t3.resp = some { agent := .consumer, result := .bufferAcquireFailed, data := .none })
    ∧ (a.status = .ok → c.ops.len.toNat - 14 ≤ a.lengthInOut.toNat →
        c.ops.len.toNat - 14 ≤ RegionStore.size s.driver a.bufPtr →
        ∃ t4 t5 f0 f1 f2 f3 f4 f5 f12 f13,
          Host.Core.run core 4 s = .next t4 ∧ Host.Core.run core 5 s = .next t5
          ∧ RegionStore.memRead s.caller c.ops.frame 0 6 = some [f0, f1, f2, f3, f4, f5]
          ∧ RegionStore.memRead s.caller c.ops.frame 12 2 = some [f12, f13]
          ∧ t4.driverRequest = some (.transmit s.params.ethCtrlIdx a.bufIdx (f12 ++ f13) true (c.ops.len - 14#16)
              { b0 := f0, b1 := f1, b2 := f2, b3 := f3, b4 := f4, b5 := f5 })
          ∧ (∀ k, k < c.ops.len.toNat - 14 →
              RegionStore.byte? t5.driver a.bufPtr k = RegionStore.byte? s.caller c.ops.frame (14 + k))
          ∧ (∀ ref k, ¬ (ref = a.bufPtr ∧ k < c.ops.len.toNat - 14) →
              RegionStore.byte? t5.driver ref k = RegionStore.byte? s.driver ref k)
          ∧ t5.eth.fsm = .idle ∧ t5.driverRequest = none
          ∧ t5.resp = some { agent := .consumer, result := (if ts = .ok then .ok else .driverBusy), data := .none })

/-- R149, which the spec marks as its own inference. A step leaves a new request pending for the driver only where
ETHTX.SEND leaves IDLE (ProvideTxBuffer), or where COPY goes to SUBMIT after an OK answer with a large enough grant
(Transmit). And a step that is no power-up either leaves `eth.fsm` and the pending request as they are, or makes one of
the six moves of the protocol: IDLE to ACQUIRE to RECONCILE to COPY to SUBMIT to IDLE, or RECONCILE to IDLE. So no send
reaches IDLE-to-ACQUIRE or COPY-to-SUBMIT twice: there is no second request and no retry. -/
def Obligations.RequestsAreIssuedOncePerSend : Prop :=
  (∀ (s t : State) (r : DriverRequest),
      step s = .next t → t.driverRequest = some r → s.driverRequest ≠ some r → s.sendConsistent →
      (s.eth.fsm = .idle ∧ t.eth.fsm = .acquire ∧ r = .provideTxBuffer s.params.ethCtrlIdx t.eth.reqLen)
        ∨ (s.eth.fsm = .copy ∧ t.eth.fsm = .submit ∧ s.eth.provStatus = .ok
            ∧ s.eth.reqLen.toNat ≤ s.eth.granted.toNat
            ∧ r = .transmit s.params.ethCtrlIdx s.eth.bufIdx t.eth.etherType true s.eth.reqLen t.eth.dstMac))
    ∧ ∀ s t : State,
      step s = .next t → (∀ c : Choice, s.choose s.inputs = some c → c.chosen ≠ .powerUp) →
      (t.eth.fsm = s.eth.fsm ∧ t.driverRequest = s.driverRequest)
        ∨ (s.eth.fsm = .idle ∧ t.eth.fsm = .acquire
            ∧ t.driverRequest = some (.provideTxBuffer s.params.ethCtrlIdx t.eth.reqLen))
        ∨ (s.eth.fsm = .acquire ∧ t.eth.fsm = .reconcile ∧ t.driverRequest = none)
        ∨ (s.eth.fsm = .reconcile ∧ t.eth.fsm = .idle ∧ t.driverRequest = s.driverRequest
            ∧ t.eth.result = .bufferAcquireFailed
            ∧ (s.eth.provStatus ≠ .ok ∨ s.eth.granted.toNat < s.eth.reqLen.toNat))
        ∨ (s.eth.fsm = .reconcile ∧ t.eth.fsm = .copy ∧ t.driverRequest = s.driverRequest
            ∧ s.eth.provStatus = .ok ∧ s.eth.reqLen.toNat ≤ s.eth.granted.toNat)
        ∨ (s.eth.fsm = .copy ∧ t.eth.fsm = .submit
            ∧ t.driverRequest = some (.transmit s.params.ethCtrlIdx s.eth.bufIdx t.eth.etherType true s.eth.reqLen
                t.eth.dstMac))
        ∨ (s.eth.fsm = .submit ∧ t.eth.fsm = .idle ∧ t.driverRequest = none)

/-! ### Contexts, faults, results (60_exceptions.md) -/

/-- R179: an operation raises F_CONTEXT, with op, ctx, cs and agent, exactly if the table of R179 does not permit its
issuer; an RB.* operation stands at a port of an existing instance (log 6). That the table's "own instance" makes a
foreign PRODUCER of RB.PUSH fault is log 25; that a PRODUCER may name a target that is no controller is R122's order of
checks. -/
def Obligations.ContextFaultExactlyWhereNotPermitted : Prop :=
  ∀ (i : Instr) (s : State), s.faulted = none →
    (i.op = .rbInit ∨ i.op = .rbPush ∨ i.op = .rbPop ∨ i.op = .rbDrops → (s.rb[s.port.port]?).isSome = true) →
    (exec i s = .next (s.raise (.context i.op s.ctx s.cs s.port.issuer))
      ↔ permitted i s.port.issuer s.port.port s.cs = false)

/-- R172: an operation that raises a fault writes nothing but the fault record, and returns no response; of all the
steps there are only a command (its word stands at the port, a legal word or not) and an internal step raise one, in
the same way; once a fault is recorded, a step is a stop unless a power-up is pending; the only step there is that
power-up, which clears the record and ends the run, after which every step is a stop. So neither a faulted state nor
one after it is the end of a run that R200 speaks of (`endOfRun`, log 28). The model's own reading in this: the stop is an answer of `step`
(log 5), a power-up is a pending input whose step restores the block in the state where the run is over (log 17), the
CONSUMER's command is the start of its loop (log 16), and a COPY that faults leaves the granted region as it was
(log 29). -/
def Obligations.FaultStopsTheBlockUntilPowerUp : Prop :=
  (∀ (i : Instr) (s t : State) (f : ModelFault),
      s.faulted = none → exec i s = .next t → t.faulted = some f → t = { s with faulted := some f, resp := none })
    ∧ (∀ (x : Input) (s t : State) (f : ModelFault),
        s.faulted = none → takeInput x s = .next t → t.faulted = some f →
        (∃ c, x = .command c ∧ t = { s with
            task := if c.issuer = .consumer then .consumer else s.task
            port := c
            faulted := some f
            resp := none })
          ∨ (x = .internal ∧ t = { s with faulted := some f, resp := none }))
    ∧ (∀ (s : State) (f : ModelFault), s.ended = false → s.faulted = some f → Input.powerUp ∉ s.inputs →
        step s = .fault (.stopped f))
    ∧ (∀ (s t : State) (f : ModelFault), s.faulted = some f → step s = .next t →
        ∃ before after, s.inputs = before ++ .powerUp :: after ∧ t = { s.powerUp with inputs := before ++ after })
    ∧ (∀ s : State, s.ended = true → step s = .fault .runEnded)
    ∧ (∀ (s t : State) (c : Choice), s.choose s.inputs = some c → c.chosen = .powerUp → step s = .next t →
        t.ended = true ∧ ¬ t.endOfRun)
    ∧ ∀ (s t : State) (f : ModelFault), s.faulted = some f →
        ¬ s.endOfRun ∧ (step s = .next t → ¬ t.endOfRun ∧ step t = .fault .runEnded)

/-- R173, which the spec marks as its own inference: every result and every fault an operation's own step can produce is in its row of the table; the one step
with neither is the ETHTX.SEND that leaves IDLE. -/
def Obligations.OutcomesAreInTheTable : Prop :=
  ∀ (i : Instr) (s t : State), s.faulted = none → exec i s = .next t →
    (∃ f, t.faulted = some f ∧ f.kind ∈ opFaults i.op ∧ t.resp = none)
      ∨ (t.faulted = none ∧ ∃ r, t.resp = some r ∧ r.result ∈ opResults i.op ∧ r.agent = s.port.issuer)
      ∨ (t.faulted = none ∧ t.resp = none ∧ i = .ethtxSend ∧ s.eth.fsm = .idle ∧ t.eth.fsm = .acquire)

/-- R77: the data of every response is of the kind its row gives: a record, a frame, a count, or none. -/
def Obligations.ResponsesCarryTheirData : Prop :=
  ∀ (i : Instr) (s t : State) (r : Response), exec i s = .next t → t.resp = some r →
    r.data.fits i.op r.result = true

/-- R76: the values of the result codes, and code 4 and the codes from 8 up are never produced by a step. -/
def Obligations.ResultCodesAreTheTable : Prop :=
  (ResultCode.ok.code = 0 ∧ ResultCode.bufferFull.code = 1 ∧ ResultCode.bufferEmpty.code = 2
    ∧ ResultCode.invalidController.code = 3 ∧ ResultCode.invalidMailbox.code = 4 ∧ ResultCode.driverBusy.code = 5
    ∧ ResultCode.malformedFrame.code = 6 ∧ ResultCode.bufferAcquireFailed.code = 7)
  ∧ ∀ (s t : State) (r : Response), step s = .next t → t.resp = some r →
      r.result.code ≠ 4 ∧ r.result.code.toNat < 8

/-! ### Frames and isolation (10_state.md R33, 20_memory.md) -/

/-- No command stores to a byte region: after any instruction every byte of every caller and driver region reads as
before, the parameters, the pending inputs, the port and the critical section are as before, and every operation but
ETHTX.SEND leaves EthTxAssembler and the driver's request as they were (R33, R66, R67). -/
def Obligations.CommandsLeaveRegionsAndOtherStateAlone : Prop :=
  ∀ (i : Instr) (s t : State), exec i s = .next t →
    (∀ ref k, RegionStore.byte? t.caller ref k = RegionStore.byte? s.caller ref k)
    ∧ (∀ ref k, RegionStore.byte? t.driver ref k = RegionStore.byte? s.driver ref k)
    ∧ t.params = s.params ∧ t.inputs = s.inputs ∧ t.port = s.port ∧ t.cs = s.cs ∧ t.task = s.task
    ∧ t.ended = s.ended
    ∧ (i ≠ .ethtxSend → t.eth = s.eth ∧ t.driverRequest = s.driverRequest)
    ∧ (i.op = .ethtxSend → t.rb = s.rb ∧ t.can = s.can)

/-- R33: an RB.* operation changes no instance but the one at its port and nothing of CanRxDemux; a CANRX.* operation
changes no generic instance; CANRX.WRITE and CANRX.READ change only the buffer their target names (R125), and an
unknown target changes none (R71). -/
def Obligations.OperationsTouchOnlyTheirInstance : Prop :=
  ∀ (i : Instr) (s t : State), exec i s = .next t →
    (i.op = .rbInit ∨ i.op = .rbPush ∨ i.op = .rbPop ∨ i.op = .rbDrops →
      t.can = s.can ∧ ∀ p, p ≠ s.port.port → t.rb[p]? = s.rb[p]?)
    ∧ (i.op = .canrxInit ∨ i.op = .canrxWrite ∨ i.op = .canrxRead ∨ i.op = .canrxDrops → t.rb = s.rb)
    ∧ (∀ tgt, i = .canrxWrite tgt ∨ i = .canrxRead tgt →
        ∀ d : Controller, tgt.toNat ≠ d.number → t.can.buf d = s.can.buf d)

/-- R23, of every slot of every instance. An operation makes an Invalid slot Valid only if it is the push of its own
instance, at `wr`, by the instance's PRODUCER; it makes a Valid slot Invalid only if it is the pop of its own instance,
at `rd`, by the CONSUMER inside its critical section, or the INIT of the instance by STARTUP; a slot's data changes only
as it becomes Valid (`State.slotsFollow`). A step that is no power-up leaves every instance as it is, or runs a command
and changes slots as that command's operation does. -/
def Obligations.ValidFlagsChangeOnlyByTheirOperation : Prop :=
  (∀ (i : Instr) (s t : State), exec i s = .next t → s.slotsFollow i s.port t)
    ∧ ∀ s t : State, step s = .next t → (∀ c : Choice, s.choose s.inputs = some c → c.chosen ≠ .powerUp) →
        (t.rb = s.rb ∧ t.can = s.can)
          ∨ ∃ (c : Choice) (x : Command) (i : Instr), s.choose s.inputs = some c ∧ c.chosen = .command x
              ∧ decode x.word = .ok i ∧ s.slotsFollow i x t

/-- R26: the only operation that changes a phase is the INIT of its instance, from UNINIT to READY, CANRX.INIT for
both CAN buffers at once; and no step but a power-up takes a READY instance back to UNINIT. -/
def Obligations.PhaseMovesOnlyFromUninitToReady : Prop :=
  (∀ (i : Instr) (s t : State), exec i s = .next t →
      (∀ (p : Nat) (b b' : RingBuffer Record), s.rb[p]? = some b → t.rb[p]? = some b' → b'.phase ≠ b.phase →
        i = .rbInit ∧ p = s.port.port ∧ s.ctx = .startup ∧ b.phase = .uninit ∧ b'.phase = .ready)
      ∧ ∀ d : Controller, (t.can.buf d).phase ≠ (s.can.buf d).phase →
        i = .canrxInit ∧ s.ctx = .startup ∧ (∀ e : Controller, (s.can.buf e).phase = .uninit)
          ∧ ∀ e : Controller, (t.can.buf e).phase = .ready)
    ∧ ∀ s t : State, step s = .next t → (∀ c : Choice, s.choose s.inputs = some c → c.chosen ≠ .powerUp) →
        (∀ (p : Nat) (b : RingBuffer Record), s.rb[p]? = some b → b.phase = .ready →
          ∃ b', t.rb[p]? = some b' ∧ b'.phase = .ready)
        ∧ ∀ d : Controller, (s.can.buf d).phase = .ready → (t.can.buf d).phase = .ready

/-- R66: no step of the block or of an agent changes a byte of a caller region; only its owner handing it over does. And
while a send is in progress not even that changes the frame image of that send (R66, R196; that the handing over waits
is log 12): its region is the same before and after every step, and it stays the send's frame image. -/
def Obligations.CallerRegionsAreNeverWritten : Prop :=
  (∀ s t : State, step s = .next t →
      (∀ (c : Choice) (ref : Nat) (bytes : List Byte),
        s.choose s.inputs = some c → c.chosen ≠ .lendCaller ref bytes) →
      t.caller = s.caller)
    ∧ ∀ s t : State, step s = .next t → s.eth.fsm ≠ .idle →
        (∀ k, RegionStore.byte? t.caller s.eth.frame k = RegionStore.byte? s.caller s.eth.frame k)
          ∧ RegionStore.region t.caller s.eth.frame = RegionStore.region s.caller s.eth.frame
          ∧ (t.eth.fsm ≠ .idle → t.eth.frame = s.eth.frame)

/-- R67 (a COPY that faults writes nothing: log 29): only the COPY step and the driver itself change a byte of a driver region; the COPY step only bytes
0 to `reqLen`-1 of the granted region. -/
def Obligations.DriverRegionsAreWrittenOnlyByCopy : Prop :=
  ∀ (s t : State) (ref k : Nat), s.storesWf → step s = .next t →
    (∀ (c : Choice) (bytes : List Byte), s.choose s.inputs = some c → c.chosen ≠ .lendDriver ref bytes) →
    RegionStore.byte? t.driver ref k ≠ RegionStore.byte? s.driver ref k →
    s.eth.fsm = .copy ∧ t.eth.fsm = .submit ∧ ref = s.eth.bufRef ∧ k < s.eth.reqLen.toNat

/-! ### Agents and the critical section (20_memory.md R56, 42_ethtx.md R147) -/

/-- R56: CS_ENTER sets cs and CS_EXIT clears it, changing nothing else but the response (and, as steps of the CONSUMER,
starting its loop, log 16); while cs = 1 no step of a
PRODUCER is taken; the driver's answers are enabled whatever cs is. -/
def Obligations.CriticalSectionMasksEveryProducer : Prop :=
  (∀ s : State, takeInput .csEnter s = .next { s with task := .consumer, cs := true, resp := none }
      ∧ takeInput .csExit s = .next { s with task := .consumer, cs := false, resp := none })
    ∧ (∀ (s : State) (c : Choice) (x : Command) (p : Producer), s.choose s.inputs = some c → s.cs = true →
        c.chosen = .command x → x.issuer ≠ .producer p)
    ∧ ∀ (s : State) (b : Bool) (a : ProvideAnswer) (ts : TransmitStatus),
        (Input.provideAnswer a).enabled { s with cs := b } = (Input.provideAnswer a).enabled s
          ∧ (Input.transmitAnswer ts).enabled { s with cs := b } = (Input.transmitAnswer ts).enabled s

/-- R5, R34, R56, R147, R181: a command is only ever taken from an agent that there is and that may step: STARTUP before
the CONSUMER's loop starts, a PRODUCER of a CAN controller or of an instance that exists while cs = 0, the CONSUMER
while it waits for no send; and only while no fault is recorded, in a run that is not over (R172; that a power-up sets
`ended` is the model's choice, log 17). -/
def Obligations.OnlyAgentsThatMayStepAreTaken : Prop :=
  ∀ (s : State) (c : Choice) (x : Command), s.choose s.inputs = some c → c.chosen = .command x →
    s.ended = false ∧ s.faulted = none
      ∧ (x.issuer = .startup → s.task = .startup)
      ∧ (∀ p : Producer, x.issuer = .producer p → s.cs = false ∧ ∀ i, p = .rb i → i < s.rb.length)
      ∧ (x.issuer = .consumer → s.eth.fsm = .idle)

/-- R181 and R192: STARTUP is left for good when the CONSUMER's loop starts, which in the model is the CONSUMER's first
step (log 16). A CONSUMER's step starts the loop; once it runs, no STARTUP command is taken, no instance is initialised
any more, and no step of the run goes back. -/
def Obligations.StartupIsLeftForGood : Prop :=
  (∀ (s t : State) (c : Choice), s.choose s.inputs = some c → step s = .next t →
      (c.chosen = .csEnter ∨ c.chosen = .csExit ∨ ∃ x, c.chosen = .command x ∧ x.issuer = .consumer) →
      t.task = .consumer)
    ∧ ∀ s : State, s.task = .consumer →
      (∀ (c : Choice) (x : Command), s.choose s.inputs = some c → c.chosen = .command x → x.issuer ≠ .startup)
        ∧ ∀ t : State, step s = .next t → (∀ c : Choice, s.choose s.inputs = some c → c.chosen ≠ .powerUp) →
          t.task = .consumer
            ∧ (∀ (p : Nat) (b : RingBuffer Record), s.rb[p]? = some b → b.phase = .uninit → t.rb[p]? = some b)
            ∧ ∀ d : Controller, (s.can.buf d).phase = .uninit → t.can.buf d = s.can.buf d

/-- R147: from the step that issues a send to the step that completes it, the CONSUMER has no step; a PRODUCER's
command that runs in between leaves `eth.*` and the driver's request as they were. -/
def Obligations.ConsumerWaitsForItsSend : Prop :=
  ∀ (s t : State) (c : Choice), s.choose s.inputs = some c → s.eth.fsm ≠ .idle → step s = .next t →
    c.chosen ≠ .csEnter ∧ c.chosen ≠ .csExit
      ∧ ∀ x : Command, c.chosen = .command x →
          x.issuer ≠ .consumer ∧ t.eth = s.eth ∧ t.driverRequest = s.driverRequest

/-- R198 and R150: where the driver has not answered, and no other agent has an enabled step, a send in ACQUIRE or
SUBMIT stays there; RECONCILE and COPY wait for nobody: the block's own step is taken. -/
def Obligations.SendWaitsOnlyForTheDriver : Prop :=
  ∀ s : State, s.ended = false → s.faulted = none → s.choose s.inputs = none →
    ((s.eth.fsm = .acquire ∨ s.eth.fsm = .submit ∨ s.eth.fsm = .idle) → step s = .next { s with resp := none })
    ∧ (s.eth.fsm = .reconcile ∨ s.eth.fsm = .copy → step s = takeInput .internal s)

/-! ### Reset and power-up (10_state.md R35, 70_reset_and_hazards.md R190) -/

/-- What R35 and R190 fix at power-up, for every value of the parameters: every instance UNINIT, `eth.fsm` IDLE,
cs = 0, no fault recorded, STARTUP the initial mode; and State.reset is the machine with the default parameters, in a
run that is not over (log 17). -/
def Obligations.ResetIsThePowerUpState : Prop :=
  State.reset = State.initial Config.Params.default
    ∧ ∀ p : Config.Params,
        (∀ b ∈ (State.initial p).rb, b.phase = .uninit) ∧ (State.initial p).can.buf0.phase = .uninit
          ∧ (State.initial p).can.buf1.phase = .uninit ∧ (State.initial p).eth.fsm = .idle
          ∧ (State.initial p).cs = false ∧ (State.initial p).faulted = none ∧ (State.initial p).task = .startup
          ∧ (State.initial p).ended = false

/-- R190: from power-up, every RB.* and CANRX.* operation that its context may issue and that is no INIT, on an
existing instance, raises F_UNINIT; ETHTX.SEND of a long enough frame image starts. -/
def Obligations.OperationsBeforeInitFault : Prop :=
  ∀ (p : Config.Params) (c : Command) (i : Instr) (caller : RegionStore) (cs : Bool),
    let s : State := { State.initial p with port := c, caller := caller, cs := cs }
    permitted i c.issuer c.port cs = true →
    ((i.op = .rbPush ∨ i.op = .rbPop ∨ i.op = .rbDrops) → c.port < p.rb.length →
      exec i s = .next (s.raise (.uninit (.rb c.port))))
    ∧ (∀ d : Controller, i = .canrxWrite d.tgt ∨ i = .canrxRead d.tgt ∨ i = .canrxDrops d.tgt →
      exec i s = .next (s.raise (.uninit (.canBuf d))))
    ∧ (i = .ethtxSend → 14 < c.ops.len.toNat → c.ops.len.toNat ≤ RegionStore.size caller c.ops.frame →
      ∃ t, exec i s = .next t ∧ t.eth.fsm = .acquire ∧ t.faulted = none)

/-- R36: a power-up puts every element of the block back, whatever it held before: what is left of the block depends
only on the parameters. It ends the run (R172): no step follows it. Which values the unspecified elements take is the
model's choice (log 1), and so is what stays beside the block (log 17). -/
def Obligations.PowerUpForgetsTheBlock : Prop :=
  ∀ (s : State) (xs : List Input), s.ended = false → s.inputs = .powerUp :: xs →
    ∃ t, step s = .next t ∧ t.rb = (State.initial s.params).rb ∧ t.can = (State.initial s.params).can
      ∧ t.eth = (State.initial s.params).eth ∧ t.cs = false ∧ t.task = .startup ∧ t.faulted = none
      ∧ t.driverRequest = none ∧ t.resp = none ∧ t.inputs = xs ∧ t.params = s.params ∧ t.caller = s.caller
      ∧ t.driver = s.driver ∧ t.ended = true ∧ step t = .fault .runEnded

/-! ### Invariants every step keeps -/

/-- R105 and R110, which the spec marks as its own inferences: every step keeps every READY instance in the occupancy invariant, with both indices below N. -/
def Obligations.EveryStepKeepsTheOccupancy : Prop :=
  ∀ s t : State, s.shapeFixed → s.ringsSound → step s = .next t → t.ringsSound

/-- R37: every step keeps the parameters, the set of instances, and each instance's number of slots. -/
def Obligations.EveryStepKeepsTheShape : Prop :=
  ∀ s t : State, s.shapeFixed → step s = .next t → t.params = s.params ∧ t.shapeFixed

/-- Every step keeps the byte regions of callers and of the driver in canonical form. -/
def Obligations.EveryStepKeepsTheRegionsCanonical : Prop :=
  ∀ s t : State, s.storesWf → step s = .next t → t.storesWf

/-- R152, R144, R140, R141: every step keeps a send consistent: `reqLen = len - 14` with no wrap, the frame image long
enough, COPY and SUBMIT only with a large enough grant, and the one request pending that the state calls for. -/
def Obligations.EveryStepKeepsTheSendConsistent : Prop :=
  ∀ s t : State, s.sendConsistent → step s = .next t → t.sendConsistent

/-- R27 and R121: every step keeps the frames in the Valid slots of the READY CAN buffers well formed: a length within
the capacity, as many bytes as the capacity, and no marker bit in the identifier. -/
def Obligations.EveryStepKeepsTheFramesWellFormed : Prop :=
  ∀ s t : State, s.framesWellFormed → step s = .next t → t.framesWellFormed

/-- R6 and D29: where every pending RB.PUSH carries a record of its instance's type, every step keeps every slot's
record of that type's size. -/
def Obligations.EveryStepKeepsTheRecordSize : Prop :=
  ∀ s t : State, s.recordsSized → step s = .next t → t.recordsSized

/-- R181, R192 and R5's "strictly interrupt-vs-cooperative-task": every step keeps it so that, while the initialisation
code runs, the CONSUMER holds no critical section and no send is in progress; so STARTUP never steps inside either. -/
def Obligations.EveryStepKeepsTheTaskOrder : Prop :=
  ∀ s t : State, s.taskOrder → step s = .next t → t.taskOrder

/-- The invariants above hold of the machine right after power-up, for every well-formed choice of the parameters,
and the default parameters are well formed. -/
def Obligations.InvariantsHoldAtPowerUp : Prop :=
  Config.Params.default.wellFormed = true ∧ ∀ p : Config.Params, p.wellFormed = true →
    (State.initial p).shapeFixed ∧ (State.initial p).ringsSound ∧ (State.initial p).storesWf
      ∧ (State.initial p).sendConsistent ∧ (State.initial p).framesWellFormed ∧ (State.initial p).recordsSized
      ∧ (State.initial p).taskOrder

/-- With the invariants, a block that has not faulted, in a run that is not over, always steps: the one thing that keeps
`step` from a next state is that the oldest enabled step is a command of an RB.* operation at a port of no instance,
which is refused by that port's name (log 6). -/
def Obligations.SoundBlockNeverGetsStuck : Prop :=
  ∀ s : State, s.ended = false → s.faulted = none → s.ringsSound →
    (∃ t, step s = .next t)
      ∨ ∃ (c : Choice) (x : Command) (i : Instr), s.choose s.inputs = some c ∧ c.chosen = .command x
          ∧ decode x.word = .ok i ∧ (i.op = .rbInit ∨ i.op = .rbPush ∨ i.op = .rbPop ∨ i.op = .rbDrops)
          ∧ s.rb[x.port]? = none ∧ step s = .refused (.noSuchPort x.port)

/-- R200: at the end of a run, where no power-up is pending, a step changes nothing that the observation of R200
reads (the instances, and what is returned), nor EthTxAssembler, and the run stays at its end. Which pending steps count
as commands that an agent has left is log 28 (deduced): a pending lend does not, and it may still change a caller's or
the driver's region, which R200 does not observe, and nothing else. That the latches of EthTxAssembler stay after a send
is the model's choice (log 30, U24). -/
def Obligations.EndOfRunIsQuiet : Prop :=
  ∀ s t : State, s.endOfRun → Input.powerUp ∉ s.inputs → step s = .next t →
    t.endOfRun ∧ t.rb = s.rb ∧ t.can = s.can ∧ t.eth = s.eth ∧ t.resp = none ∧ t.driverRequest = s.driverRequest
      ∧ ((∀ (c : Choice) (ref : Nat) (bytes : List Byte), s.choose s.inputs = some c →
            c.chosen ≠ .lendCaller ref bytes ∧ c.chosen ≠ .lendDriver ref bytes) →
          t.caller = s.caller ∧ t.driver = s.driver)
end

