-- ==== Sys2Proof/Laws/Agents.lean ====
section
/-! SUPPORT. What the choice of a step and a step can do, said once. -/

namespace Sys2Proof.Machine

/-- Everything the choice can answer: an enabled entry of the list, none before it enabled. -/
theorem State.choose_eq_some {s : State} {xs : List Input} {c : Choice} (h : s.choose xs = some c) :
    xs = c.before ++ c.chosen :: c.after ∧ c.chosen.enabled s = true
      ∧ ∀ x ∈ c.before, x.enabled s = false := by
  induction xs generalizing c with
  | nil => exact absurd h (by simp [State.choose])
  | cons x xs ih =>
    unfold State.choose at h
    split at h
    · rename_i hx
      obtain rfl := Option.some.inj h
      exact ⟨rfl, hx, by simp⟩
    · rename_i hx
      split at h
      · exact absurd h (by simp)
      · rename_i d hd
        obtain rfl := Option.some.inj h
        obtain ⟨h1, h2, h3⟩ := ih hd
        refine ⟨by simp [h1], h2, ?_⟩
        intro y hy
        rcases List.mem_cons.mp hy with rfl | hy
        · simpa using hx
        · exact h3 y hy

/-- No choice: no entry of the list is enabled. -/
theorem State.choose_eq_none {s : State} {xs : List Input} : s.choose xs = none ↔ ∀ x ∈ xs, x.enabled s = false := by
  induction xs with
  | nil => simp [State.choose]
  | cons x xs ih =>
    unfold State.choose
    split
    · rename_i hx; simp [hx]
    · rename_i hx
      split
      · rename_i hn; simp_all
      · rename_i d hd
        have : ¬ ∀ y ∈ xs, y.enabled s = false := by rw [← ih]; simp [hd]
        simp_all

/-- Everything a step can be. -/
theorem step_cases (s : State) :
    (∃ c, s.choose s.inputs = some c ∧ step s = takeInput c.chosen { s with inputs := c.remaining })
      ∨ (s.choose s.inputs = none ∧ step s = idleStep s) := by
  unfold step advance
  split
  · rename_i c h; exact .inl ⟨c, h, rfl⟩
  · rename_i h; exact .inr ⟨h, rfl⟩

theorem step_of_choose {s : State} {c : Choice} (h : s.choose s.inputs = some c) :
    step s = takeInput c.chosen { s with inputs := c.remaining } := by
  simp [step, advance, h]

theorem step_of_no_choice {s : State} (h : s.choose s.inputs = none) : step s = idleStep s := by
  simp [step, advance, h]

/-- The oldest ready step is taken where it is enabled. -/
theorem step_of_head {s : State} {x : Input} {xs : List Input} (h : s.inputs = x :: xs) (hx : x.enabled s = true) :
    step s = takeInput x { s with inputs := xs } := by
  have hc : s.choose s.inputs = some { before := [], chosen := x, after := xs } := by
    simp [h, State.choose, hx]
  rw [step_of_choose hc]
  rfl

/-- Everything a presented command can do: its operation, or F_ILLEGAL_CMD for a word that is none (R74). -/
theorem runCommand_next {c : Command} {s t : State} (h : runCommand c s = .next t) :
    (∃ i, decode c.word = .ok i ∧ exec i { s with port := c } = .next t)
      ∨ ((∃ e, decode c.word = .error e)
          ∧ t = { s with port := c, faulted := some (.illegalCmd c.word), resp := none }) := by
  unfold runCommand at h
  simp only at h
  split at h
  · rename_i i hd; exact .inl ⟨i, hd, h⟩
  · rename_i e hd; exact .inr ⟨⟨e, hd⟩, (Host.Outcome.next.inj h).symm⟩

/-- Everything a ready step can do: a command (see `runCommand_next`), or one of the others. -/
theorem takeInput_next {x : Input} {s t : State} (h : takeInput x s = .next t) :
    (∃ c, x = .command c ∧ runCommand c (s.enterTask c.issuer) = .next t)
      ∨ (∃ b, (x = .csEnter ∨ x = .csExit) ∧ t = { s with task := .consumer, cs := b, resp := none })
      ∨ (∃ a, x = .provideAnswer a ∧ ethAcquire a s = .next t)
      ∨ (∃ a r, x = .transmitAnswer a ∧ (r = .ok ∨ r = .driverBusy)
          ∧ t = State.completeSend { s with driverRequest := none } r)
      ∨ (x = .internal ∧ ethInternal s = .next t)
      ∨ (∃ ref bytes, (x = .lendCaller ref bytes ∧ t = { s with
              caller := RegionStore.lend s.caller ref (Region.ofBytes bytes), resp := none })
          ∨ (x = .lendDriver ref bytes ∧ t = { s with
              driver := RegionStore.lend s.driver ref (Region.ofBytes bytes), resp := none }))
      ∨ (x = .powerUp ∧ t = s.powerUp) := by
  cases x with
  | command c => exact .inl ⟨c, rfl, h⟩
  | csEnter => exact .inr (.inl ⟨true, .inl rfl, (Host.Outcome.next.inj h).symm⟩)
  | csExit => exact .inr (.inl ⟨false, .inr rfl, (Host.Outcome.next.inj h).symm⟩)
  | provideAnswer a => exact .inr (.inr (.inl ⟨a, rfl, h⟩))
  | transmitAnswer a =>
    refine .inr (.inr (.inr (.inl ⟨a, ?_⟩)))
    cases a with
    | ok => exact ⟨.ok, rfl, .inl rfl, (Host.Outcome.next.inj h).symm⟩
    | eNotOk => exact ⟨.driverBusy, rfl, .inr rfl, (Host.Outcome.next.inj h).symm⟩
  | internal => exact .inr (.inr (.inr (.inr (.inl ⟨rfl, h⟩))))
  | lendCaller ref bytes =>
    exact .inr (.inr (.inr (.inr (.inr (.inl ⟨ref, bytes, .inl ⟨rfl, (Host.Outcome.next.inj h).symm⟩⟩)))))
  | lendDriver ref bytes =>
    exact .inr (.inr (.inr (.inr (.inr (.inl ⟨ref, bytes, .inr ⟨rfl, (Host.Outcome.next.inj h).symm⟩⟩)))))
  | powerUp => exact .inr (.inr (.inr (.inr (.inr (.inr ⟨rfl, (Host.Outcome.next.inj h).symm⟩)))))

/-- Everything that lets a ready step be taken: the run is not over, and either no fault is recorded and the step is
enabled in itself, or it is a power-up. -/
theorem Input.enabled_cases {x : Input} {s : State} (h : x.enabled s = true) :
    s.ended = false ∧ (x = .powerUp ∨ (s.faulted = none ∧ x.enabledUnfaulted s = true)) := by
  unfold Input.enabled at h
  split at h
  · exact absurd h (by simp)
  rename_i he
  refine ⟨by simpa using he, ?_⟩
  split at h
  · exact .inl (by simpa using h)
  · rename_i hf; exact .inr ⟨by simpa using hf, h⟩

/-- Everything a step can do if it answers a next state: it takes an enabled ready step, or the block's own. -/
theorem step_next {s t : State} (h : step s = .next t) :
    (∃ c, s.choose s.inputs = some c ∧ c.chosen.enabled s = true
        ∧ takeInput c.chosen { s with inputs := c.remaining } = .next t)
      ∨ (s.choose s.inputs = none ∧ s.ended = false ∧ s.faulted = none ∧ ethInternal s = .next t) := by
  rcases step_cases s with ⟨c, hc, e⟩ | ⟨hn, e⟩
  · exact .inl ⟨c, hc, (State.choose_eq_some hc).2.1, e ▸ h⟩
  · rw [e] at h
    unfold idleStep at h
    split at h
    · exact absurd h (by simp)
    rename_i he
    split at h
    · exact absurd h (by simp)
    · rename_i hf; exact .inr ⟨hn, by simpa using he, hf, h⟩

end Sys2Proof.Machine
end

