-- ==== Sys2Proof/Laws/Exec.lean ====
section
/-! SUPPORT. What each meaning can do when it answers a next state, said once; later proofs cite these and unfold no
meaning. -/

namespace Sys2Proof.Machine

/-! ### Agents and contexts -/

theorem State.ctx_eq_startup {s : State} : s.ctx = .startup ↔ s.port.issuer = .startup := by
  unfold State.ctx Issuer.context; cases s.port.issuer <;> simp

theorem State.ctx_eq_consumer {s : State} : s.ctx = .consumer ↔ s.port.issuer = .consumer := by
  unfold State.ctx Issuer.context; cases s.port.issuer <;> simp

theorem State.ctx_eq_producer {s : State} : s.ctx = .producer ↔ ∃ p, s.port.issuer = .producer p := by
  unfold State.ctx Issuer.context; cases s.port.issuer <;> simp

theorem Phase.ne_ready {p : Phase} : p ≠ .ready ↔ p = .uninit := by cases p <;> simp

@[simp] theorem State.fail_eq_next {s t : State} {f : ModelFault} : s.fail f = .next t ↔ t = s.raise f := by
  simp [State.fail, eq_comm]

@[simp] theorem State.done_eq_next {s t : State} {r : ResultCode} {d : RespData} :
    s.done r d = .next t ↔ t = s.respond r d := by
  simp [State.done, eq_comm]

@[simp] theorem State.fail_ne_fault {s : State} {f : ModelFault} {g : Fault} : s.fail f ≠ .fault g := by
  simp [State.fail]

@[simp] theorem State.done_ne_fault {s : State} {r : ResultCode} {d : RespData} {g : Fault} :
    s.done r d ≠ .fault g := by
  simp [State.done]

@[simp] theorem State.fail_ne_refused {s : State} {f : ModelFault} {g : Refusal} : s.fail f ≠ .refused g := by
  simp [State.fail]

@[simp] theorem State.done_ne_refused {s : State} {r : ResultCode} {d : RespData} {g : Refusal} :
    s.done r d ≠ .refused g := by
  simp [State.done]

/-! ### RingBuffer -/

theorem execRbInit_next {s t : State} (h : execRbInit s = .next t) :
    ∃ b, s.portBuffer? = some b ∧
      ((s.port.issuer ≠ .startup ∧ t = s.raise (s.contextFault .rbInit))
        ∨ (s.port.issuer = .startup ∧ b.phase = .ready ∧ t = s.raise (.reinit (.rb s.port.port)))
        ∨ (s.port.issuer = .startup ∧ b.phase = .uninit ∧ t = (s.setPortBuffer b.init).respond .ok .none)) := by
  unfold execRbInit at h
  split at h
  · exact absurd h (by simp)
  rename_i b hb
  refine ⟨b, hb, ?_⟩
  split at h
  · rename_i hc; exact .inl ⟨fun e => hc (State.ctx_eq_startup.mpr e), State.fail_eq_next.mp h⟩
  rename_i hc
  have hi := State.ctx_eq_startup.mp (not_not.mp hc)
  split at h
  · rename_i hp; exact .inr (.inl ⟨hi, hp, State.fail_eq_next.mp h⟩)
  · rename_i hp; exact .inr (.inr ⟨hi, Phase.ne_ready.mp hp, State.done_eq_next.mp h⟩)

theorem execRbPush_next {s t : State} (h : execRbPush s = .next t) :
    ∃ b, s.portBuffer? = some b ∧
      ((s.port.issuer ≠ .producer (.rb s.port.port) ∧ t = s.raise (s.contextFault .rbPush))
        ∨ (s.port.issuer = .producer (.rb s.port.port) ∧ b.phase = .uninit
            ∧ t = s.raise (.uninit (.rb s.port.port)))
        ∨ (s.port.issuer = .producer (.rb s.port.port) ∧ b.phase = .ready ∧ ∃ r b',
            b.push s.port.ops.item = some (r, b') ∧ t = (s.setPortBuffer b').respond r .none)) := by
  unfold execRbPush at h
  split at h
  · exact absurd h (by simp)
  rename_i b hb
  refine ⟨b, hb, ?_⟩
  split at h
  · rename_i hc; exact .inl ⟨hc, State.fail_eq_next.mp h⟩
  rename_i hc
  have hi := not_not.mp hc
  split at h
  · rename_i hp; exact .inr (.inl ⟨hi, Phase.ne_ready.mp hp, State.fail_eq_next.mp h⟩)
  rename_i hp
  split at h
  · exact absurd h (by simp)
  · rename_i r b' hq; exact .inr (.inr ⟨hi, not_not.mp hp, r, b', hq, State.done_eq_next.mp h⟩)

theorem execRbPop_next {s t : State} (h : execRbPop s = .next t) :
    ∃ b, s.portBuffer? = some b ∧
      (((s.port.issuer ≠ .consumer ∨ s.cs = false) ∧ t = s.raise (s.contextFault .rbPop))
        ∨ (s.port.issuer = .consumer ∧ s.cs = true ∧ b.phase = .uninit ∧ t = s.raise (.uninit (.rb s.port.port)))
        ∨ (s.port.issuer = .consumer ∧ s.cs = true ∧ b.phase = .ready ∧
            ((b.pop = some (none, b) ∧ t = s.respond .bufferEmpty .none)
              ∨ ∃ v b', b.pop = some (some v, b') ∧ t = (s.setPortBuffer b').respond .ok (.record v)))) := by
  unfold execRbPop at h
  split at h
  · exact absurd h (by simp)
  rename_i b hb
  refine ⟨b, hb, ?_⟩
  split at h
  · rename_i hc
    refine .inl ⟨?_, State.fail_eq_next.mp h⟩
    exact hc.imp (fun hn e => hn (State.ctx_eq_consumer.mpr e)) (by simp)
  rename_i hc
  rw [not_or, not_not, not_not] at hc
  have hi := State.ctx_eq_consumer.mp hc.1
  split at h
  · rename_i hp; exact .inr (.inl ⟨hi, hc.2, Phase.ne_ready.mp hp, State.fail_eq_next.mp h⟩)
  rename_i hp
  refine .inr (.inr ⟨hi, hc.2, not_not.mp hp, ?_⟩)
  split at h
  · exact absurd h (by simp)
  · rename_i b' hq
    refine .inl ⟨?_, State.done_eq_next.mp h⟩
    rw [hq]
    unfold RingBuffer.pop at hq
    split at hq
    · exact absurd hq (by simp)
    · split at hq
      · exact absurd hq (by simp)
      · simpa using hq.symm
  · rename_i v b' hq; exact .inr ⟨v, b', hq, State.done_eq_next.mp h⟩

theorem execRbDrops_next {s t : State} (h : execRbDrops s = .next t) :
    ∃ b, s.portBuffer? = some b ∧
      ((b.phase = .uninit ∧ t = s.raise (.uninit (.rb s.port.port)))
        ∨ (b.phase = .ready ∧ t = s.respond .ok (.count b.drops))) := by
  unfold execRbDrops at h
  split at h
  · exact absurd h (by simp)
  rename_i b hb
  refine ⟨b, hb, ?_⟩
  split at h
  · rename_i hp; exact .inl ⟨Phase.ne_ready.mp hp, State.fail_eq_next.mp h⟩
  · rename_i hp; exact .inr ⟨not_not.mp hp, State.done_eq_next.mp h⟩

/-! ### CanRxDemux -/

theorem execCanrxInit_next {s t : State} (h : execCanrxInit s = .next t) :
    (s.port.issuer ≠ .startup ∧ t = s.raise (s.contextFault .canrxInit))
      ∨ (s.port.issuer = .startup ∧ (s.can.buf0.phase = .ready ∨ s.can.buf1.phase = .ready)
          ∧ t = s.raise (.reinit .can))
      ∨ (s.port.issuer = .startup ∧ s.can.buf0.phase = .uninit ∧ s.can.buf1.phase = .uninit
          ∧ t = State.respond { s with can := { buf0 := s.can.buf0.init, buf1 := s.can.buf1.init } } .ok .none) := by
  unfold execCanrxInit at h
  split at h
  · rename_i hc; exact .inl ⟨fun e => hc (State.ctx_eq_startup.mpr e), State.fail_eq_next.mp h⟩
  rename_i hc
  have hi := State.ctx_eq_startup.mp (not_not.mp hc)
  split at h
  · rename_i hp; exact .inr (.inl ⟨hi, hp, State.fail_eq_next.mp h⟩)
  · rename_i hp
    rw [not_or] at hp
    exact .inr (.inr ⟨hi, Phase.ne_ready.mp hp.1, Phase.ne_ready.mp hp.2, State.done_eq_next.mp h⟩)

/-- Everything the push of CANRX.WRITE can do. -/
theorem State.canPush_next {s t : State} {c : Controller} {bytes : List Byte} (h : s.canPush c bytes = .next t) :
    ∃ r b, (s.can.buf c).push (s.canRecord c s.port.ops.rawId s.port.ops.length bytes) = some (r, b)
      ∧ ((r = .ok ∧ t = ((s.setCanBuf c b).addDraws c (s.padding s.port.ops.length)).respond .ok .none)
        ∨ (r = .bufferFull ∧ t = (s.setCanBuf c b).respond .bufferFull .none)) := by
  unfold State.canPush at h
  split at h
  · exact absurd h (by simp)
  · rename_i b hq; exact ⟨_, b, hq, .inl ⟨rfl, State.done_eq_next.mp h⟩⟩
  · rename_i r b hr hq
    have hne : r ≠ .ok := hr
    have hfull : r = .bufferFull := by
      unfold RingBuffer.push at hq
      split at hq
      · exact absurd hq (by simp)
      · split at hq
        · simp only [Option.some.injEq, Prod.mk.injEq] at hq; exact hq.1.symm
        · simp only [Option.some.injEq, Prod.mk.injEq] at hq; exact absurd hq.1.symm hne
    subst hfull
    exact ⟨_, b, hq, .inr ⟨rfl, State.done_eq_next.mp h⟩⟩

theorem execCanrxWrite_next {s t : State} {tgt : Byte} (h : execCanrxWrite tgt s = .next t) :
    ((∀ p, s.port.issuer ≠ .producer p) ∧ t = s.raise (s.contextFault .canrxWrite))
      ∨ ∃ p, s.port.issuer = .producer p ∧
        ((Controller.ofTgt tgt = none ∧ t = s.respond .invalidController .none)
          ∨ ∃ c, Controller.ofTgt tgt = some c ∧
            ((p ≠ .can c ∧ t = s.raise (s.contextFault .canrxWrite))
              ∨ (p = .can c ∧ (s.can.buf c).phase = .uninit ∧ t = s.raise (.uninit (.canBuf c)))
              ∨ (p = .can c ∧ (s.can.buf c).phase = .ready
                  ∧ s.params.canPayloadMax < s.port.ops.length.toNat ∧ t = s.respond .malformedFrame .none)
              ∨ (p = .can c ∧ (s.can.buf c).phase = .ready
                  ∧ s.port.ops.length.toNat ≤ s.params.canPayloadMax
                  ∧ ((RegionStore.memRead s.caller s.port.ops.data 0 s.port.ops.length.toNat = none
                        ∧ t = s.raise (.callerRegion s.port.ops.data s.port.ops.length.toNat))
                    ∨ ∃ bytes,
                        RegionStore.memRead s.caller s.port.ops.data 0 s.port.ops.length.toNat = some bytes
                          ∧ s.canPush c bytes = .next t)))) := by
  unfold execCanrxWrite at h
  split at h
  · rename_i hc
    exact .inl ⟨fun p e => hc (State.ctx_eq_producer.mpr ⟨p, e⟩), State.fail_eq_next.mp h⟩
  rename_i hc
  obtain ⟨p, hi⟩ := State.ctx_eq_producer.mp (not_not.mp hc)
  refine .inr ⟨p, hi, ?_⟩
  split at h
  · rename_i ho; exact .inl ⟨ho, State.done_eq_next.mp h⟩
  rename_i c ho
  refine .inr ⟨c, ho, ?_⟩
  split at h
  · rename_i hn; exact .inl ⟨fun e => hn (e ▸ hi), State.fail_eq_next.mp h⟩
  rename_i hn
  have hpc : p = .can c := by
    have := not_not.mp hn
    rw [hi] at this
    exact Issuer.producer.inj this
  split at h
  · rename_i hp; exact .inr (.inl ⟨hpc, Phase.ne_ready.mp hp, State.fail_eq_next.mp h⟩)
  rename_i hp
  have hp := not_not.mp hp
  split at h
  · rename_i hl; exact .inr (.inr (.inl ⟨hpc, hp, hl, State.done_eq_next.mp h⟩))
  rename_i hl
  refine .inr (.inr (.inr ⟨hpc, hp, Nat.not_lt.mp hl, ?_⟩))
  split at h
  · rename_i hm; exact .inl ⟨hm, State.fail_eq_next.mp h⟩
  · rename_i bytes hm; exact .inr ⟨bytes, hm, h⟩

theorem execCanrxRead_next {s t : State} {tgt : Byte} (h : execCanrxRead tgt s = .next t) :
    ((s.port.issuer ≠ .consumer ∨ s.cs = false) ∧ t = s.raise (s.contextFault .canrxRead))
      ∨ (s.port.issuer = .consumer ∧ s.cs = true ∧
        ((Controller.ofTgt tgt = none ∧ t = s.respond .invalidController .none)
          ∨ ∃ c, Controller.ofTgt tgt = some c ∧
            (((s.can.buf c).phase = .uninit ∧ t = s.raise (.uninit (.canBuf c)))
              ∨ ((s.can.buf c).phase = .ready ∧
                (((s.can.buf c).pop = some (none, s.can.buf c) ∧ t = s.respond .bufferEmpty .none)
                  ∨ ∃ v b, (s.can.buf c).pop = some (some v, b)
                      ∧ t = (s.setCanBuf c b).respond .ok (.frame v)))))) := by
  unfold execCanrxRead at h
  split at h
  · rename_i hc
    refine .inl ⟨?_, State.fail_eq_next.mp h⟩
    exact hc.imp (fun hn e => hn (State.ctx_eq_consumer.mpr e)) (by simp)
  rename_i hc
  rw [not_or, not_not, not_not] at hc
  refine .inr ⟨State.ctx_eq_consumer.mp hc.1, hc.2, ?_⟩
  split at h
  · rename_i ho; exact .inl ⟨ho, State.done_eq_next.mp h⟩
  rename_i c ho
  refine .inr ⟨c, ho, ?_⟩
  split at h
  · rename_i hp; exact .inl ⟨Phase.ne_ready.mp hp, State.fail_eq_next.mp h⟩
  rename_i hp
  refine .inr ⟨not_not.mp hp, ?_⟩
  split at h
  · exact absurd h (by simp)
  · rename_i b' hq
    refine .inl ⟨?_, State.done_eq_next.mp h⟩
    rw [hq]
    unfold RingBuffer.pop at hq
    split at hq
    · exact absurd hq (by simp)
    · split at hq
      · exact absurd hq (by simp)
      · simpa using hq.symm
  · rename_i v b hq; exact .inr ⟨v, b, hq, State.done_eq_next.mp h⟩

theorem execCanrxDrops_next {s t : State} {tgt : Byte} (h : execCanrxDrops tgt s = .next t) :
    (Controller.ofTgt tgt = none ∧ t = s.respond .invalidController .none)
      ∨ ∃ c, Controller.ofTgt tgt = some c ∧
        (((s.can.buf c).phase = .uninit ∧ t = s.raise (.uninit (.canBuf c)))
          ∨ ((s.can.buf c).phase = .ready ∧ t = s.respond .ok (.count (s.can.buf c).drops))) := by
  unfold execCanrxDrops at h
  split at h
  · rename_i ho; exact .inl ⟨ho, State.done_eq_next.mp h⟩
  rename_i c ho
  refine .inr ⟨c, ho, ?_⟩
  split at h
  · rename_i hp; exact .inl ⟨Phase.ne_ready.mp hp, State.fail_eq_next.mp h⟩
  · rename_i hp; exact .inr ⟨not_not.mp hp, State.done_eq_next.mp h⟩

/-! ### EthTxAssembler -/

theorem execEthtxSend_next {s t : State} (h : execEthtxSend s = .next t) :
    (s.port.issuer ≠ .consumer ∧ t = s.raise (s.contextFault .ethtxSend))
      ∨ (s.port.issuer = .consumer ∧
        ((s.eth.fsm ≠ .idle ∧ t = s.raise (.ethtxBusy s.eth.fsm))
          ∨ (s.eth.fsm = .idle ∧ s.port.ops.len.toNat ≤ 14
              ∧ t = State.respond { s with eth := { s.eth with result := .malformedFrame } } .malformedFrame .none)
          ∨ (s.eth.fsm = .idle ∧ 14 < s.port.ops.len.toNat
              ∧ RegionStore.size s.caller s.port.ops.frame < s.port.ops.len.toNat
              ∧ t = s.raise (.callerRegion s.port.ops.frame s.port.ops.len.toNat))
          ∨ (s.eth.fsm = .idle ∧ 14 < s.port.ops.len.toNat
              ∧ s.port.ops.len.toNat ≤ RegionStore.size s.caller s.port.ops.frame
              ∧ t = { s with
                  eth := { s.eth with
                    frame := s.port.ops.frame, len := s.port.ops.len, reqLen := s.port.ops.len - 14#16,
                    fsm := .acquire }
                  driverRequest := some (.provideTxBuffer s.params.ethCtrlIdx (s.port.ops.len - 14#16))
                  resp := none }))) := by
  unfold execEthtxSend at h
  split at h
  · rename_i hc; exact .inl ⟨fun e => hc (State.ctx_eq_consumer.mpr e), State.fail_eq_next.mp h⟩
  rename_i hc
  refine .inr ⟨State.ctx_eq_consumer.mp (not_not.mp hc), ?_⟩
  split at h
  · rename_i hf; exact .inl ⟨hf, State.fail_eq_next.mp h⟩
  rename_i hf
  have hf := not_not.mp hf
  split at h
  · rename_i hl; exact .inr (.inl ⟨hf, hl, State.done_eq_next.mp h⟩)
  rename_i hl
  have hl : 14 < s.port.ops.len.toNat := Nat.not_le.mp hl
  split at h
  · rename_i hs; exact .inr (.inr (.inl ⟨hf, hl, hs, State.fail_eq_next.mp h⟩))
  · rename_i hs
    refine .inr (.inr (.inr ⟨hf, hl, Nat.not_lt.mp hs, ?_⟩))
    exact (Host.Outcome.next.inj h).symm

/-- Everything COPY can do (R145). -/
theorem ethCopy_cases (s : State) :
    (RegionStore.memRead s.caller s.eth.frame 14 s.eth.reqLen.toNat = none
        ∧ ethCopy s = .next (s.raise (.callerRegion s.eth.frame (14 + s.eth.reqLen.toNat))))
      ∨ ∃ payload, RegionStore.memRead s.caller s.eth.frame 14 s.eth.reqLen.toNat = some payload ∧
        ((RegionStore.memWrite s.driver s.eth.bufRef 0 payload = none
            ∧ ethCopy s = .next (s.raise (.driverRegion s.eth.bufRef s.eth.reqLen.toNat)))
          ∨ ∃ drv mac hdr, RegionStore.memWrite s.driver s.eth.bufRef 0 payload = some drv
              ∧ RegionStore.memRead s.caller s.eth.frame 0 6 = some mac
              ∧ RegionStore.memRead s.caller s.eth.frame 12 2 = some hdr
              ∧ ethCopy s = .next (s.copied drv mac hdr)) := by
  unfold ethCopy Config.ethHdrLen
  simp only
  cases hp : RegionStore.memRead s.caller s.eth.frame 14 s.eth.reqLen.toNat with
  | none => exact .inl ⟨rfl, rfl⟩
  | some payload =>
    refine .inr ⟨payload, rfl, ?_⟩
    cases hw : RegionStore.memWrite s.driver s.eth.bufRef 0 payload with
    | none => exact .inl ⟨rfl, by simp only [hw]; rfl⟩
    | some drv =>
      have hle : 14 + s.eth.reqLen.toNat ≤ RegionStore.size s.caller s.eth.frame := by
        unfold RegionStore.memRead at hp
        split at hp
        · assumption
        · exact absurd hp (by simp)
      have h6 : 0 + 6 ≤ RegionStore.size s.caller s.eth.frame := by omega
      have h2 : 12 + 2 ≤ RegionStore.size s.caller s.eth.frame := by omega
      simp only [hw, RegionStore.memRead, if_pos h6, if_pos h2]
      exact .inr ⟨drv, _, _, rfl, rfl, rfl, rfl⟩

/-- Everything the block's own step can do (R144, R145). -/
theorem ethInternal_next {s t : State} (h : ethInternal s = .next t) :
    ((s.eth.fsm = .idle ∨ s.eth.fsm = .acquire ∨ s.eth.fsm = .submit) ∧ t = { s with resp := none })
      ∨ (s.eth.fsm = .reconcile ∧ (s.eth.provStatus ≠ .ok ∨ s.eth.granted.toNat < s.eth.reqLen.toNat)
          ∧ t = s.completeSend .bufferAcquireFailed)
      ∨ (s.eth.fsm = .reconcile ∧ s.eth.provStatus = .ok ∧ s.eth.reqLen.toNat ≤ s.eth.granted.toNat
          ∧ t = { s with eth := { s.eth with fsm := .copy }, resp := none })
      ∨ (s.eth.fsm = .copy ∧ ethCopy s = .next t) := by
  unfold ethInternal at h
  split at h
  · rename_i hf
    unfold ethReconcile at h
    split at h
    · rename_i hs; exact .inr (.inl ⟨hf, .inl hs, (Host.Outcome.next.inj h).symm⟩)
    rename_i hs
    split at h
    · rename_i hg; exact .inr (.inl ⟨hf, .inr hg, (Host.Outcome.next.inj h).symm⟩)
    · rename_i hg
      exact .inr (.inr (.inl ⟨hf, not_not.mp hs, Nat.not_lt.mp hg, (Host.Outcome.next.inj h).symm⟩))
  · rename_i hf; exact .inr (.inr (.inr ⟨hf, h⟩))
  · rename_i hf; exact .inl ⟨.inl hf, (Host.Outcome.next.inj h).symm⟩
  · rename_i hf; exact .inl ⟨.inr (.inl hf), (Host.Outcome.next.inj h).symm⟩
  · rename_i hf; exact .inl ⟨.inr (.inr hf), (Host.Outcome.next.inj h).symm⟩

end Sys2Proof.Machine
end

