-- ==== Sys2Proof/Laws/Memory.lean ====
section
/-! SUPPORT. The laws of byte regions: a read after a write, and the canonical form. -/

namespace Sys2Proof.Machine

/-! ### One byte -/

theorem Memory.read_consCell (a : Nat) (v : Byte) (m : Memory) (x : Nat) (hx : v = Memory.unlisted → a = x →
    Memory.read m x = Memory.unlisted) :
    Memory.read (Memory.consCell a v m) x = if a = x then v else Memory.read m x := by
  unfold Memory.consCell
  split
  · rename_i h
    split
    · rename_i hax; rw [h]; exact hx h hax
    · rfl
  · rfl

/-- In a memory whose entries lie at `lo` or above, everything below reads as unlisted. -/
theorem Memory.read_below {m : Memory} {lo x : Nat} (h : Memory.wfAbove lo m = true) (hx : x < lo) :
    Memory.read m x = Memory.unlisted := by
  induction m generalizing lo with
  | nil => rfl
  | cons c m ih =>
    obtain ⟨k, v⟩ := c
    simp only [Memory.wfAbove, Bool.and_eq_true, decide_eq_true_eq] at h
    have hk : k ≠ x := by omega
    simp only [Memory.read, if_neg hk]
    exact ih h.2 (by omega)

theorem Memory.wfAbove_mono {m : Memory} {lo hi : Nat} (h : Memory.wfAbove hi m = true) (hle : lo ≤ hi) :
    Memory.wfAbove lo m = true := by
  cases m with
  | nil => rfl
  | cons c m =>
    obtain ⟨k, v⟩ := c
    simp only [Memory.wfAbove, Bool.and_eq_true, decide_eq_true_eq] at h ⊢
    exact ⟨⟨by omega, h.1.2⟩, h.2⟩

theorem Memory.consCell_wfAbove {m : Memory} {a : Nat} {v : Byte} {lo : Nat} (hlo : lo ≤ a)
    (h : Memory.wfAbove (a + 1) m = true) : Memory.wfAbove lo (Memory.consCell a v m) = true := by
  unfold Memory.consCell
  split
  · exact Memory.wfAbove_mono h (by omega)
  · rename_i hv
    simp [Memory.wfAbove, hlo, h, hv]

/-- A write keeps the canonical form. -/
theorem Memory.write_wfAbove {m : Memory} {lo a : Nat} {v : Byte} (h : Memory.wfAbove lo m = true)
    (hlo : lo ≤ a) : Memory.wfAbove lo (Memory.write m a v) = true := by
  induction m generalizing lo with
  | nil => exact Memory.consCell_wfAbove hlo rfl
  | cons c m ih =>
    obtain ⟨k, w⟩ := c
    simp only [Memory.wfAbove, Bool.and_eq_true, decide_eq_true_eq] at h
    unfold Memory.write
    split
    · rename_i hak
      refine Memory.consCell_wfAbove hlo ?_
      simp only [Memory.wfAbove, Bool.and_eq_true, decide_eq_true_eq]
      exact ⟨⟨by omega, h.1.2⟩, h.2⟩
    · split
      · rename_i heq
        exact Memory.consCell_wfAbove hlo (heq ▸ h.2)
      · simp only [Memory.wfAbove, Bool.and_eq_true, decide_eq_true_eq]
        exact ⟨h.1, ih h.2 (by omega)⟩

theorem Memory.write_wf {m : Memory} {a : Nat} {v : Byte} (h : Memory.wf m = true) :
    Memory.wf (Memory.write m a v) = true :=
  Memory.write_wfAbove h (Nat.zero_le a)

/-- What a canonical memory reads after a write. -/
theorem Memory.read_write_above {m : Memory} {lo a : Nat} {v : Byte} (h : Memory.wfAbove lo m = true) (x : Nat) :
    Memory.read (Memory.write m a v) x = if a = x then v else Memory.read m x := by
  induction m generalizing lo with
  | nil => exact Memory.read_consCell a v [] x (fun _ _ => rfl)
  | cons c m ih =>
    obtain ⟨k, w⟩ := c
    simp only [Memory.wfAbove, Bool.and_eq_true, decide_eq_true_eq] at h
    unfold Memory.write
    split
    · rename_i hak
      refine Memory.read_consCell a v _ x (fun _ hax => ?_)
      subst hax
      have hne : k ≠ a := by omega
      simp only [Memory.read, if_neg hne]
      exact Memory.read_below h.2 (by omega)
    · split
      · rename_i heq
        subst heq
        rw [Memory.read_consCell a v m x (fun _ hax => Memory.read_below h.2 (by omega))]
        by_cases hx : a = x <;> simp [Memory.read, hx]
      · rename_i hlt hne
        by_cases hk : k = x
        · have hax : a ≠ x := by omega
          simp [Memory.read, hk, hax]
        · simp only [Memory.read, if_neg hk]
          exact ih h.2

theorem Memory.read_write {m : Memory} {a : Nat} {v : Byte} (h : Memory.wf m = true) (x : Nat) :
    Memory.read (Memory.write m a v) x = if a = x then v else Memory.read m x :=
  Memory.read_write_above h x

/-! ### Many bytes -/

theorem Memory.writeBytes_wf {m : Memory} {a : Nat} {vs : List Byte} (h : Memory.wf m = true) :
    Memory.wf (Memory.writeBytes m a vs) = true := by
  induction vs generalizing m a with
  | nil => exact h
  | cons v vs ih => exact ih (Memory.write_wf h)

/-- What a canonical memory reads after bytes were written from `a` up. -/
theorem Memory.read_writeBytes {m : Memory} {a : Nat} {vs : List Byte} (h : Memory.wf m = true) (x : Nat) :
    Memory.read (Memory.writeBytes m a vs) x =
      if a ≤ x then (vs[x - a]?).getD (Memory.read m x) else Memory.read m x := by
  induction vs generalizing m a with
  | nil => simp [Memory.writeBytes]
  | cons v vs ih =>
    rw [Memory.writeBytes, ih (Memory.write_wf h), Memory.read_write h]
    rcases Nat.lt_trichotomy a x with hlt | heq | hgt
    · have hne : a ≠ x := by omega
      have h1 : x - a = (x - (a + 1)) + 1 := by omega
      rw [if_pos (by omega), if_neg hne, if_pos (by omega), h1, List.getElem?_cons_succ]
    · subst heq
      simp
    · rw [if_neg (by omega), if_neg (by omega), if_neg (by omega)]

@[simp] theorem Memory.length_readBytes (m : Memory) (a n : Nat) : (Memory.readBytes m a n).length = n := by
  induction n generalizing a with
  | zero => rfl
  | succ n ih => simp [Memory.readBytes, ih]

theorem Memory.getElem?_readBytes (m : Memory) (a n k : Nat) :
    (Memory.readBytes m a n)[k]? = if k < n then some (Memory.read m (a + k)) else none := by
  induction n generalizing a k with
  | zero => simp [Memory.readBytes]
  | succ n ih =>
    cases k with
    | zero => simp [Memory.readBytes]
    | succ k =>
      rw [Memory.readBytes, List.getElem?_cons_succ, ih]
      have : a + 1 + k = a + (k + 1) := by omega
      simp [this]

/-! ### Cells stay below the size -/

theorem Memory.consCell_below {m : Memory} {a n : Nat} {v : Byte} (ha : a < n)
    (h : m.all (fun c => decide (c.1 < n)) = true) :
    (Memory.consCell a v m).all (fun c => decide (c.1 < n)) = true := by
  unfold Memory.consCell
  split
  · exact h
  · simp only [List.all_cons, Bool.and_eq_true, decide_eq_true_eq]
    exact ⟨ha, h⟩

theorem Memory.write_below {m : Memory} {a n : Nat} {v : Byte} (ha : a < n)
    (h : m.all (fun c => decide (c.1 < n)) = true) :
    (Memory.write m a v).all (fun c => decide (c.1 < n)) = true := by
  induction m with
  | nil => exact Memory.consCell_below ha h
  | cons c m ih =>
    obtain ⟨k, w⟩ := c
    have hm : m.all (fun c => decide (c.1 < n)) = true := by
      simp only [List.all_cons, Bool.and_eq_true] at h; exact h.2
    have hk : k < n := by
      simp only [List.all_cons, Bool.and_eq_true, decide_eq_true_eq] at h; exact h.1
    unfold Memory.write
    split
    · exact Memory.consCell_below ha h
    · split
      · exact Memory.consCell_below ha hm
      · simp only [List.all_cons, Bool.and_eq_true, decide_eq_true_eq]
        exact ⟨hk, ih hm⟩

theorem Memory.writeBytes_below {m : Memory} {a n : Nat} {vs : List Byte} (ha : a + vs.length ≤ n)
    (h : m.all (fun c => decide (c.1 < n)) = true) :
    (Memory.writeBytes m a vs).all (fun c => decide (c.1 < n)) = true := by
  induction vs generalizing m a with
  | nil => exact h
  | cons v vs ih =>
    simp only [List.length_cons] at ha
    exact ih (by omega) (Memory.write_below (by omega) h)

/-! ### Regions and stores -/

theorem Region.ofBytes_wf (bytes : List Byte) : (Region.ofBytes bytes).wf = true := by
  simp only [Region.wf, Region.ofBytes, Bool.and_eq_true]
  exact ⟨Memory.writeBytes_wf rfl, Memory.writeBytes_below (by omega) rfl⟩

@[simp] theorem Region.ofBytes_size (bytes : List Byte) : (Region.ofBytes bytes).size = bytes.length := rfl

theorem RegionStore.region_wf {st : RegionStore} (h : RegionStore.wf st = true) (ref : Nat) :
    (RegionStore.region st ref).wf = true := by
  unfold RegionStore.region
  cases hr : st[ref]? with
  | none => rfl
  | some r =>
    exact List.all_eq_true.mp h r (List.mem_of_getElem? hr)

theorem RegionStore.lend_wf {st : RegionStore} {ref : Nat} {r : Region} (h : RegionStore.wf st = true)
    (hr : r.wf = true) : RegionStore.wf (RegionStore.lend st ref r) = true := by
  induction st, ref, r using RegionStore.lend.induct with
  | case1 r => simpa [RegionStore.lend, RegionStore.wf] using hr
  | case2 n r ih =>
    have := ih rfl hr
    simp only [RegionStore.lend, RegionStore.wf, List.all_cons, Bool.and_eq_true] at this ⊢
    exact ⟨rfl, this⟩
  | case3 x st r =>
    simp only [RegionStore.lend, RegionStore.wf, List.all_cons, Bool.and_eq_true] at h ⊢
    exact ⟨hr, h.2⟩
  | case4 x st n r ih =>
    simp only [RegionStore.lend, RegionStore.wf, List.all_cons, Bool.and_eq_true] at h ih ⊢
    exact ⟨h.1, ih h.2 hr⟩

/-- Lending one region leaves what every other reference denotes as it was. -/
theorem RegionStore.region_lend (st : RegionStore) (ref : Nat) (r : Region) (x : Nat) :
    RegionStore.region (RegionStore.lend st ref r) x = if x = ref then r else RegionStore.region st x := by
  induction st, ref, r using RegionStore.lend.induct generalizing x with
  | case1 r => cases x <;> simp [RegionStore.lend, RegionStore.region]
  | case2 n r ih =>
    cases x with
    | zero => simp [RegionStore.lend, RegionStore.region]
    | succ x =>
      have := ih x
      simp only [RegionStore.lend, RegionStore.region, List.getElem?_cons_succ, List.getElem?_nil,
        Nat.succ_eq_add_one, Nat.add_right_cancel_iff] at this ⊢
      exact this
  | case3 y st r => cases x <;> simp [RegionStore.lend, RegionStore.region]
  | case4 y st n r ih =>
    cases x with
    | zero => simp [RegionStore.lend, RegionStore.region]
    | succ x =>
      have := ih x
      simp only [RegionStore.lend, RegionStore.region, List.getElem?_cons_succ,
        Nat.succ_eq_add_one, Nat.add_right_cancel_iff] at this ⊢
      exact this

/-- Everything `MemRead` can answer (R8). -/
theorem RegionStore.memRead_eq_some {st : RegionStore} {ref : Nat} {off n : Nat} {bs : List Byte} :
    RegionStore.memRead st ref off n = some bs ↔
      off + n ≤ RegionStore.size st ref ∧ bs = Memory.readBytes (RegionStore.region st ref).cells off n := by
  unfold RegionStore.memRead
  split <;> simp_all [eq_comm]

theorem RegionStore.memRead_eq_none {st : RegionStore} {ref : Nat} {off n : Nat} :
    RegionStore.memRead st ref off n = none ↔ RegionStore.size st ref < off + n := by
  unfold RegionStore.memRead
  split <;> simp <;> omega

/-- The bytes `MemRead` answers are those of the region, in order. -/
theorem RegionStore.memRead_byte? {st : RegionStore} {ref : Nat} {off n : Nat} {bs : List Byte}
    (h : RegionStore.memRead st ref off n = some bs) {k : Nat} (hk : k < n) :
    bs[k]? = RegionStore.byte? st ref (off + k) := by
  obtain ⟨hle, rfl⟩ := RegionStore.memRead_eq_some.mp h
  rw [Memory.getElem?_readBytes, if_pos hk, RegionStore.byte?, if_pos (by omega)]

theorem RegionStore.memRead_length {st : RegionStore} {ref : Nat} {off n : Nat} {bs : List Byte}
    (h : RegionStore.memRead st ref off n = some bs) : bs.length = n := by
  obtain ⟨_, rfl⟩ := RegionStore.memRead_eq_some.mp h
  simp

theorem RegionStore.region_set_self {st : RegionStore} {ref : Nat} {r : Region} (h : ref < st.length) :
    RegionStore.region (st.set ref r) ref = r := by
  simp [RegionStore.region, List.getElem?_set_self h]

theorem RegionStore.region_set_other {st : RegionStore} {ref x : Nat} {r : Region} (h : x ≠ ref) :
    RegionStore.region (st.set ref r) x = RegionStore.region st x := by
  simp [RegionStore.region, List.getElem?_set_ne (Ne.symm h)]

/-- A reference to a region that has a byte names a region of the store. -/
theorem RegionStore.lt_length_of_size_pos {st : RegionStore} {ref : Nat} (h : 0 < RegionStore.size st ref) :
    ref < st.length := by
  by_contra hn
  have : st[ref]? = none := List.getElem?_eq_none (by omega)
  simp [RegionStore.size, RegionStore.region, this, Region.empty] at h

/-- Everything `MemWrite` can do (R8): sizes stay, the bytes written are the bytes given, no other byte changes, and
the canonical form is kept. -/
theorem RegionStore.memWrite_spec {st st' : RegionStore} {ref : Nat} {off : Nat} {v : List Byte}
    (hwf : RegionStore.wf st = true) (h : RegionStore.memWrite st ref off v = some st') :
    off + v.length ≤ RegionStore.size st ref
      ∧ RegionStore.wf st' = true
      ∧ (∀ x, RegionStore.size st' x = RegionStore.size st x)
      ∧ (∀ k, k < v.length → RegionStore.byte? st' ref (off + k) = v[k]?)
      ∧ (∀ x a, (x = ref → a < off ∨ off + v.length ≤ a) →
          RegionStore.byte? st' x a = RegionStore.byte? st x a) := by
  unfold RegionStore.memWrite at h
  split at h
  · rename_i hle
    simp only [Option.some.injEq] at h
    have hrwf := RegionStore.region_wf hwf ref
    simp only [Region.wf, Bool.and_eq_true] at hrwf
    have hsize : ∀ x, RegionStore.size st' x = RegionStore.size st x := by
      intro x
      subst h
      by_cases hx : x = ref
      · subst hx
        by_cases hl : x < st.length
        · rw [RegionStore.size, RegionStore.region_set_self hl]; rfl
        · rw [List.set_eq_of_length_le (by omega)]
      · rw [RegionStore.size, RegionStore.region_set_other hx]; rfl
    refine ⟨hle, ?_, hsize, ?_, ?_⟩
    · subst h
      refine List.all_eq_true.mpr fun r hr => ?_
      rcases List.mem_or_eq_of_mem_set hr with hm | rfl
      · exact List.all_eq_true.mp hwf r hm
      · simp only [Region.wf, Bool.and_eq_true]
        exact ⟨Memory.writeBytes_wf hrwf.1, Memory.writeBytes_below hle hrwf.2⟩
    · intro k hk
      have hl : ref < st.length := RegionStore.lt_length_of_size_pos (by omega)
      rw [RegionStore.byte?, hsize, if_pos (by omega)]
      subst h
      rw [RegionStore.region_set_self hl]
      simp only
      rw [Memory.read_writeBytes hrwf.1, if_pos (by omega)]
      have : off + k - off = k := by omega
      simp [this, List.getElem?_eq_getElem hk]
    · intro x a hxa
      rw [RegionStore.byte?, RegionStore.byte?, hsize]
      by_cases hx : x = ref
      · subst hx
        by_cases ha : a < RegionStore.size st x
        · rw [if_pos ha, if_pos ha]
          have hl : x < st.length := RegionStore.lt_length_of_size_pos (by omega)
          subst h
          rw [RegionStore.region_set_self hl]
          simp only
          rw [Memory.read_writeBytes hrwf.1]
          rcases hxa rfl with h1 | h1
          · rw [if_neg (by omega)]
          · split
            · rw [List.getElem?_eq_none (by omega)]; rfl
            · rfl
        · rw [if_neg ha, if_neg ha]
      · subst h
        rw [RegionStore.region_set_other hx]
  · exact absurd h (by simp)

/-- The memory after reset has its form: no region is lent. -/
theorem State.reset_stores_wf :
    RegionStore.wf State.reset.caller = true ∧ RegionStore.wf State.reset.driver = true := ⟨rfl, rfl⟩

end Sys2Proof.Machine
end

