-- ==== Sys2Proof/Laws/PerInstr.lean ====
section
/-! SUPPORT. Families of statements made once per instruction: where the fields of an encoding stand (R70, R73). -/

namespace Sys2Proof.Laws

/-- The three fields of any command word put together from its parts. -/
theorem fields_of_append (r : Half) (t o : Byte) :
    Word.rsvField ((r ++ t) ++ o) = r ∧ Word.tgtField ((r ++ t) ++ o) = t ∧ Word.opField ((r ++ t) ++ o) = o := by
  refine ⟨?_, ?_, ?_⟩ <;> simp only [Word.rsvField, Word.tgtField, Word.opField] <;>
    (apply BitVec.eq_of_getLsbD_eq
     intro k hk
     rw [BitVec.getLsbD_extractLsb', BitVec.getLsbD_append, BitVec.getLsbD_append])
  · have h1 : ¬ 16 + k < 8 := by omega
    have h2 : ¬ 16 + k - 8 < 8 := by omega
    have h3 : 16 + k - 8 - 8 = k := by omega
    simp [hk, h1, h2, h3]
  · have h1 : ¬ 8 + k < 8 := by omega
    have h2 : 8 + k - 8 = k := by omega
    simp [hk, h2]
  · simp [hk]

namespace EncodeFields

/-- The word of an instruction has its operation code in bits 7 to 0, its target in bits 15 to 8, and zeros above. -/
def Statement (i : Instr) : Prop :=
  Word.rsvField (encode i) = 0 ∧ Word.tgtField (encode i) = i.tgt ∧ Word.opField (encode i) = i.op.code

theorem rbInit : Statement .rbInit := fields_of_append 0 0 _
theorem rbPush : Statement .rbPush := fields_of_append 0 0 _
theorem rbPop : Statement .rbPop := fields_of_append 0 0 _
theorem rbDrops : Statement .rbDrops := fields_of_append 0 0 _
theorem canrxInit : Statement .canrxInit := fields_of_append 0 0 _
theorem canrxWrite (tgt : Byte) : Statement (.canrxWrite tgt) := fields_of_append 0 tgt _
theorem canrxRead (tgt : Byte) : Statement (.canrxRead tgt) := fields_of_append 0 tgt _
theorem canrxDrops (tgt : Byte) : Statement (.canrxDrops tgt) := fields_of_append 0 tgt _
theorem ethtxSend : Statement .ethtxSend := fields_of_append 0 0 _

end EncodeFields

end Sys2Proof.Laws
end

