-- ==== Sys2Proof/Laws/Ring.lean ====
section
/-! SUPPORT. What the bodies of INIT, PUSH and POP can do, said once each (R100 to R102, R104). -/

namespace Sys2Proof.Machine

/-! ### Index arithmetic -/

theorem incMod_lt {n i : Nat} (h : 0 < n) : incMod n i < n := Nat.mod_lt _ h

theorem incMod_of_lt {n i : Nat} (h : i + 1 < n) : incMod n i = i + 1 := Nat.mod_eq_of_lt h

theorem incMod_last {n : Nat} (h : 0 < n) : incMod n (n - 1) = 0 := by
  unfold incMod
  rw [Nat.sub_add_cancel h, Nat.mod_self]

/-! ### Capacities: no operation resizes an instance (R37) -/

variable {α : Type}

@[simp] theorem RingBuffer.capacity_markValid (b : RingBuffer α) (i : Nat) (x : α) :
    (b.markValid i x).capacity = b.capacity := by
  simp [RingBuffer.capacity, RingBuffer.markValid]

@[simp] theorem RingBuffer.capacity_markInvalid (b : RingBuffer α) (i : Nat) (sl : Slot α) :
    (b.markInvalid i sl).capacity = b.capacity := by
  simp [RingBuffer.capacity, RingBuffer.markInvalid]

@[simp] theorem RingBuffer.capacity_init (b : RingBuffer α) : b.init.capacity = b.capacity := by
  simp [RingBuffer.capacity, RingBuffer.init, RingBuffer.markAllInvalid]

@[simp] theorem RingBuffer.capacity_powerUp (n : Nat) (d : α) : (RingBuffer.powerUp n d).capacity = n := by
  simp [RingBuffer.capacity, RingBuffer.powerUp]

/-! ### INIT -/

@[simp] theorem RingBuffer.init_wr (b : RingBuffer α) : b.init.wr = 0 := rfl
@[simp] theorem RingBuffer.init_rd (b : RingBuffer α) : b.init.rd = 0 := rfl
@[simp] theorem RingBuffer.init_drops (b : RingBuffer α) : b.init.drops = 0 := rfl
@[simp] theorem RingBuffer.init_phase (b : RingBuffer α) : b.init.phase = .ready := rfl
@[simp] theorem RingBuffer.init_slots (b : RingBuffer α) :
    b.init.slots = b.slots.map fun sl => { sl with valid := false } := rfl

/-! ### PUSH and POP -/

/-- Everything a push can do (R101). -/
theorem RingBuffer.push_cases {b b' : RingBuffer α} {x : α} {r : ResultCode} (h : b.push x = some (r, b')) :
    ∃ sl, b.slots[b.wr]? = some sl ∧
      ((sl.valid = true ∧ r = .bufferFull ∧ b' = { b with drops := b.drops + 1 })
        ∨ (sl.valid = false ∧ r = .ok
            ∧ b' = { b with slots := b.slots.set b.wr { valid := true, data := x }, wr := incMod b.capacity b.wr })) := by
  unfold RingBuffer.push at h
  split at h
  · exact absurd h (by simp)
  · rename_i sl hs
    refine ⟨sl, hs, ?_⟩
    split at h
    · rename_i hv
      simp only [Option.some.injEq, Prod.mk.injEq] at h
      exact .inl ⟨hv, h.1.symm, h.2.symm⟩
    · rename_i hv
      simp only [Option.some.injEq, Prod.mk.injEq] at h
      exact .inr ⟨by simpa using hv, h.1.symm, h.2.symm⟩

/-- Everything a pop can do (R102). -/
theorem RingBuffer.pop_cases {b b' : RingBuffer α} {o : Option α} (h : b.pop = some (o, b')) :
    ∃ sl, b.slots[b.rd]? = some sl ∧
      ((sl.valid = false ∧ o = none ∧ b' = b)
        ∨ (sl.valid = true ∧ o = some sl.data
            ∧ b' = { b with slots := b.slots.set b.rd { sl with valid := false }, rd := incMod b.capacity b.rd })) := by
  unfold RingBuffer.pop at h
  split at h
  · exact absurd h (by simp)
  · rename_i sl hs
    refine ⟨sl, hs, ?_⟩
    split at h
    · rename_i hv
      simp only [Option.some.injEq, Prod.mk.injEq] at h
      exact .inr ⟨hv, h.1.symm, h.2.symm⟩
    · rename_i hv
      simp only [Option.some.injEq, Prod.mk.injEq] at h
      exact .inl ⟨by simpa using hv, h.1.symm, h.2.symm⟩

/-- A push stops only where its index names no slot (log 7). -/
theorem RingBuffer.push_eq_none {b : RingBuffer α} {x : α} : b.push x = none ↔ b.capacity ≤ b.wr := by
  unfold RingBuffer.push RingBuffer.capacity
  split
  · rename_i h; simpa using h
  · rename_i sl h
    have := (List.getElem?_eq_some_iff.mp h).1
    split <;> simp <;> omega

/-- A pop stops only where its index names no slot (log 7). -/
theorem RingBuffer.pop_eq_none {b : RingBuffer α} : b.pop = none ↔ b.capacity ≤ b.rd := by
  unfold RingBuffer.pop RingBuffer.capacity
  split
  · rename_i h; simpa using h
  · rename_i sl h
    have := (List.getElem?_eq_some_iff.mp h).1
    split <;> simp <;> omega

end Sys2Proof.Machine
end

