-- ==== Sys2Proof/Laws/State.lean ====
section
/-! SUPPORT. One lemma per field per update of State, each true by unfolding that update once. -/

namespace Sys2Proof.Machine

/-! ### Raising a fault and returning a response -/

@[simp] theorem State.raise_params (s : State) (f : ModelFault) : (s.raise f).params = s.params := rfl
@[simp] theorem State.raise_rb (s : State) (f : ModelFault) : (s.raise f).rb = s.rb := rfl
@[simp] theorem State.raise_can (s : State) (f : ModelFault) : (s.raise f).can = s.can := rfl
@[simp] theorem State.raise_eth (s : State) (f : ModelFault) : (s.raise f).eth = s.eth := rfl
@[simp] theorem State.raise_cs (s : State) (f : ModelFault) : (s.raise f).cs = s.cs := rfl
@[simp] theorem State.raise_faulted (s : State) (f : ModelFault) : (s.raise f).faulted = some f := rfl
@[simp] theorem State.raise_driverRequest (s : State) (f : ModelFault) : (s.raise f).driverRequest = s.driverRequest := rfl
@[simp] theorem State.raise_caller (s : State) (f : ModelFault) : (s.raise f).caller = s.caller := rfl
@[simp] theorem State.raise_driver (s : State) (f : ModelFault) : (s.raise f).driver = s.driver := rfl
@[simp] theorem State.raise_port (s : State) (f : ModelFault) : (s.raise f).port = s.port := rfl
@[simp] theorem State.raise_resp (s : State) (f : ModelFault) : (s.raise f).resp = none := rfl
@[simp] theorem State.raise_inputs (s : State) (f : ModelFault) : (s.raise f).inputs = s.inputs := rfl
@[simp] theorem State.raise_draws0 (s : State) (f : ModelFault) : (s.raise f).draws0 = s.draws0 := rfl
@[simp] theorem State.raise_draws1 (s : State) (f : ModelFault) : (s.raise f).draws1 = s.draws1 := rfl
@[simp] theorem State.raise_task (s : State) (f : ModelFault) : (s.raise f).task = s.task := rfl
@[simp] theorem State.raise_ended (s : State) (f : ModelFault) : (s.raise f).ended = s.ended := rfl

@[simp] theorem State.respond_params (s : State) (r : ResultCode) (d : RespData) : (s.respond r d).params = s.params := rfl
@[simp] theorem State.respond_rb (s : State) (r : ResultCode) (d : RespData) : (s.respond r d).rb = s.rb := rfl
@[simp] theorem State.respond_can (s : State) (r : ResultCode) (d : RespData) : (s.respond r d).can = s.can := rfl
@[simp] theorem State.respond_eth (s : State) (r : ResultCode) (d : RespData) : (s.respond r d).eth = s.eth := rfl
@[simp] theorem State.respond_cs (s : State) (r : ResultCode) (d : RespData) : (s.respond r d).cs = s.cs := rfl
@[simp] theorem State.respond_faulted (s : State) (r : ResultCode) (d : RespData) : (s.respond r d).faulted = s.faulted := rfl
@[simp] theorem State.respond_driverRequest (s : State) (r : ResultCode) (d : RespData) : (s.respond r d).driverRequest = s.driverRequest := rfl
@[simp] theorem State.respond_caller (s : State) (r : ResultCode) (d : RespData) : (s.respond r d).caller = s.caller := rfl
@[simp] theorem State.respond_driver (s : State) (r : ResultCode) (d : RespData) : (s.respond r d).driver = s.driver := rfl
@[simp] theorem State.respond_port (s : State) (r : ResultCode) (d : RespData) : (s.respond r d).port = s.port := rfl
@[simp] theorem State.respond_resp (s : State) (r : ResultCode) (d : RespData) : (s.respond r d).resp = some { agent := s.port.issuer, result := r, data := d } := rfl
@[simp] theorem State.respond_inputs (s : State) (r : ResultCode) (d : RespData) : (s.respond r d).inputs = s.inputs := rfl
@[simp] theorem State.respond_draws0 (s : State) (r : ResultCode) (d : RespData) : (s.respond r d).draws0 = s.draws0 := rfl
@[simp] theorem State.respond_draws1 (s : State) (r : ResultCode) (d : RespData) : (s.respond r d).draws1 = s.draws1 := rfl
@[simp] theorem State.respond_task (s : State) (r : ResultCode) (d : RespData) : (s.respond r d).task = s.task := rfl
@[simp] theorem State.respond_ended (s : State) (r : ResultCode) (d : RespData) : (s.respond r d).ended = s.ended := rfl

/-! ### Replacing a buffer -/

@[simp] theorem State.setPortBuffer_params (s : State) (b : RingBuffer Record) : (s.setPortBuffer b).params = s.params := rfl
@[simp] theorem State.setPortBuffer_rb (s : State) (b : RingBuffer Record) : (s.setPortBuffer b).rb = s.rb.set s.port.port b := rfl
@[simp] theorem State.setPortBuffer_can (s : State) (b : RingBuffer Record) : (s.setPortBuffer b).can = s.can := rfl
@[simp] theorem State.setPortBuffer_eth (s : State) (b : RingBuffer Record) : (s.setPortBuffer b).eth = s.eth := rfl
@[simp] theorem State.setPortBuffer_cs (s : State) (b : RingBuffer Record) : (s.setPortBuffer b).cs = s.cs := rfl
@[simp] theorem State.setPortBuffer_faulted (s : State) (b : RingBuffer Record) : (s.setPortBuffer b).faulted = s.faulted := rfl
@[simp] theorem State.setPortBuffer_driverRequest (s : State) (b : RingBuffer Record) : (s.setPortBuffer b).driverRequest = s.driverRequest := rfl
@[simp] theorem State.setPortBuffer_caller (s : State) (b : RingBuffer Record) : (s.setPortBuffer b).caller = s.caller := rfl
@[simp] theorem State.setPortBuffer_driver (s : State) (b : RingBuffer Record) : (s.setPortBuffer b).driver = s.driver := rfl
@[simp] theorem State.setPortBuffer_port (s : State) (b : RingBuffer Record) : (s.setPortBuffer b).port = s.port := rfl
@[simp] theorem State.setPortBuffer_resp (s : State) (b : RingBuffer Record) : (s.setPortBuffer b).resp = s.resp := rfl
@[simp] theorem State.setPortBuffer_inputs (s : State) (b : RingBuffer Record) : (s.setPortBuffer b).inputs = s.inputs := rfl
@[simp] theorem State.setPortBuffer_draws0 (s : State) (b : RingBuffer Record) : (s.setPortBuffer b).draws0 = s.draws0 := rfl
@[simp] theorem State.setPortBuffer_draws1 (s : State) (b : RingBuffer Record) : (s.setPortBuffer b).draws1 = s.draws1 := rfl
@[simp] theorem State.setPortBuffer_task (s : State) (b : RingBuffer Record) : (s.setPortBuffer b).task = s.task := rfl
@[simp] theorem State.setPortBuffer_ended (s : State) (b : RingBuffer Record) : (s.setPortBuffer b).ended = s.ended := rfl

@[simp] theorem State.setCanBuf_params (s : State) (c : Controller) (b : RingBuffer CanFrame) : (s.setCanBuf c b).params = s.params := rfl
@[simp] theorem State.setCanBuf_rb (s : State) (c : Controller) (b : RingBuffer CanFrame) : (s.setCanBuf c b).rb = s.rb := rfl
@[simp] theorem State.setCanBuf_can (s : State) (c : Controller) (b : RingBuffer CanFrame) : (s.setCanBuf c b).can = s.can.setBuf c b := rfl
@[simp] theorem State.setCanBuf_eth (s : State) (c : Controller) (b : RingBuffer CanFrame) : (s.setCanBuf c b).eth = s.eth := rfl
@[simp] theorem State.setCanBuf_cs (s : State) (c : Controller) (b : RingBuffer CanFrame) : (s.setCanBuf c b).cs = s.cs := rfl
@[simp] theorem State.setCanBuf_faulted (s : State) (c : Controller) (b : RingBuffer CanFrame) : (s.setCanBuf c b).faulted = s.faulted := rfl
@[simp] theorem State.setCanBuf_driverRequest (s : State) (c : Controller) (b : RingBuffer CanFrame) : (s.setCanBuf c b).driverRequest = s.driverRequest := rfl
@[simp] theorem State.setCanBuf_caller (s : State) (c : Controller) (b : RingBuffer CanFrame) : (s.setCanBuf c b).caller = s.caller := rfl
@[simp] theorem State.setCanBuf_driver (s : State) (c : Controller) (b : RingBuffer CanFrame) : (s.setCanBuf c b).driver = s.driver := rfl
@[simp] theorem State.setCanBuf_port (s : State) (c : Controller) (b : RingBuffer CanFrame) : (s.setCanBuf c b).port = s.port := rfl
@[simp] theorem State.setCanBuf_resp (s : State) (c : Controller) (b : RingBuffer CanFrame) : (s.setCanBuf c b).resp = s.resp := rfl
@[simp] theorem State.setCanBuf_inputs (s : State) (c : Controller) (b : RingBuffer CanFrame) : (s.setCanBuf c b).inputs = s.inputs := rfl
@[simp] theorem State.setCanBuf_draws0 (s : State) (c : Controller) (b : RingBuffer CanFrame) : (s.setCanBuf c b).draws0 = s.draws0 := rfl
@[simp] theorem State.setCanBuf_draws1 (s : State) (c : Controller) (b : RingBuffer CanFrame) : (s.setCanBuf c b).draws1 = s.draws1 := rfl
@[simp] theorem State.setCanBuf_task (s : State) (c : Controller) (b : RingBuffer CanFrame) : (s.setCanBuf c b).task = s.task := rfl
@[simp] theorem State.setCanBuf_ended (s : State) (c : Controller) (b : RingBuffer CanFrame) : (s.setCanBuf c b).ended = s.ended := rfl

/-! ### Counting draws -/

@[simp] theorem State.addDraws_params (s : State) (c : Controller) (n : Nat) : (s.addDraws c n).params = s.params := by
  cases c <;> rfl
@[simp] theorem State.addDraws_rb (s : State) (c : Controller) (n : Nat) : (s.addDraws c n).rb = s.rb := by
  cases c <;> rfl
@[simp] theorem State.addDraws_can (s : State) (c : Controller) (n : Nat) : (s.addDraws c n).can = s.can := by
  cases c <;> rfl
@[simp] theorem State.addDraws_eth (s : State) (c : Controller) (n : Nat) : (s.addDraws c n).eth = s.eth := by
  cases c <;> rfl
@[simp] theorem State.addDraws_cs (s : State) (c : Controller) (n : Nat) : (s.addDraws c n).cs = s.cs := by
  cases c <;> rfl
@[simp] theorem State.addDraws_faulted (s : State) (c : Controller) (n : Nat) : (s.addDraws c n).faulted = s.faulted := by
  cases c <;> rfl
@[simp] theorem State.addDraws_driverRequest (s : State) (c : Controller) (n : Nat) : (s.addDraws c n).driverRequest = s.driverRequest := by
  cases c <;> rfl
@[simp] theorem State.addDraws_caller (s : State) (c : Controller) (n : Nat) : (s.addDraws c n).caller = s.caller := by
  cases c <;> rfl
@[simp] theorem State.addDraws_driver (s : State) (c : Controller) (n : Nat) : (s.addDraws c n).driver = s.driver := by
  cases c <;> rfl
@[simp] theorem State.addDraws_port (s : State) (c : Controller) (n : Nat) : (s.addDraws c n).port = s.port := by
  cases c <;> rfl
@[simp] theorem State.addDraws_resp (s : State) (c : Controller) (n : Nat) : (s.addDraws c n).resp = s.resp := by
  cases c <;> rfl
@[simp] theorem State.addDraws_inputs (s : State) (c : Controller) (n : Nat) : (s.addDraws c n).inputs = s.inputs := by
  cases c <;> rfl
@[simp] theorem State.addDraws_task (s : State) (c : Controller) (n : Nat) : (s.addDraws c n).task = s.task := by
  cases c <;> rfl
@[simp] theorem State.addDraws_ended (s : State) (c : Controller) (n : Nat) : (s.addDraws c n).ended = s.ended := by
  cases c <;> rfl
@[simp] theorem State.addDraws_draws_self (s : State) (c : Controller) (n : Nat) :
    (s.addDraws c n).draws c = s.draws c + n := by
  cases c <;> rfl

theorem State.addDraws_draws_other (s : State) (c d : Controller) (n : Nat) (h : d ≠ c) :
    (s.addDraws c n).draws d = s.draws d := by
  cases c <;> cases d <;> first | rfl | exact absurd rfl h

/-! ### The transitions of a send -/

@[simp] theorem State.completeSend_params (s : State) (r : ResultCode) : (s.completeSend r).params = s.params := rfl
@[simp] theorem State.completeSend_rb (s : State) (r : ResultCode) : (s.completeSend r).rb = s.rb := rfl
@[simp] theorem State.completeSend_can (s : State) (r : ResultCode) : (s.completeSend r).can = s.can := rfl
@[simp] theorem State.completeSend_eth (s : State) (r : ResultCode) : (s.completeSend r).eth = { s.eth with result := r, fsm := .idle } := rfl
@[simp] theorem State.completeSend_cs (s : State) (r : ResultCode) : (s.completeSend r).cs = s.cs := rfl
@[simp] theorem State.completeSend_faulted (s : State) (r : ResultCode) : (s.completeSend r).faulted = s.faulted := rfl
@[simp] theorem State.completeSend_driverRequest (s : State) (r : ResultCode) : (s.completeSend r).driverRequest = s.driverRequest := rfl
@[simp] theorem State.completeSend_caller (s : State) (r : ResultCode) : (s.completeSend r).caller = s.caller := rfl
@[simp] theorem State.completeSend_driver (s : State) (r : ResultCode) : (s.completeSend r).driver = s.driver := rfl
@[simp] theorem State.completeSend_port (s : State) (r : ResultCode) : (s.completeSend r).port = s.port := rfl
@[simp] theorem State.completeSend_resp (s : State) (r : ResultCode) : (s.completeSend r).resp = some { agent := .consumer, result := r, data := .none } := rfl
@[simp] theorem State.completeSend_inputs (s : State) (r : ResultCode) : (s.completeSend r).inputs = s.inputs := rfl
@[simp] theorem State.completeSend_draws0 (s : State) (r : ResultCode) : (s.completeSend r).draws0 = s.draws0 := rfl
@[simp] theorem State.completeSend_draws1 (s : State) (r : ResultCode) : (s.completeSend r).draws1 = s.draws1 := rfl
@[simp] theorem State.completeSend_task (s : State) (r : ResultCode) : (s.completeSend r).task = s.task := rfl
@[simp] theorem State.completeSend_ended (s : State) (r : ResultCode) : (s.completeSend r).ended = s.ended := rfl

@[simp] theorem State.copied_params (s : State) (drv : RegionStore) (mac hdr : List Byte) : (s.copied drv mac hdr).params = s.params := rfl
@[simp] theorem State.copied_rb (s : State) (drv : RegionStore) (mac hdr : List Byte) : (s.copied drv mac hdr).rb = s.rb := rfl
@[simp] theorem State.copied_can (s : State) (drv : RegionStore) (mac hdr : List Byte) : (s.copied drv mac hdr).can = s.can := rfl
@[simp] theorem State.copied_eth (s : State) (drv : RegionStore) (mac hdr : List Byte) : (s.copied drv mac hdr).eth = { s.eth with dstMac := MacAddr.ofBytes mac, etherType := etherTypeOf hdr, fsm := .submit } := rfl
@[simp] theorem State.copied_cs (s : State) (drv : RegionStore) (mac hdr : List Byte) : (s.copied drv mac hdr).cs = s.cs := rfl
@[simp] theorem State.copied_faulted (s : State) (drv : RegionStore) (mac hdr : List Byte) : (s.copied drv mac hdr).faulted = s.faulted := rfl
@[simp] theorem State.copied_driverRequest (s : State) (drv : RegionStore) (mac hdr : List Byte) : (s.copied drv mac hdr).driverRequest = some (.transmit s.params.ethCtrlIdx s.eth.bufIdx (etherTypeOf hdr) true s.eth.reqLen (MacAddr.ofBytes mac)) := rfl
@[simp] theorem State.copied_caller (s : State) (drv : RegionStore) (mac hdr : List Byte) : (s.copied drv mac hdr).caller = s.caller := rfl
@[simp] theorem State.copied_driver (s : State) (drv : RegionStore) (mac hdr : List Byte) : (s.copied drv mac hdr).driver = drv := rfl
@[simp] theorem State.copied_port (s : State) (drv : RegionStore) (mac hdr : List Byte) : (s.copied drv mac hdr).port = s.port := rfl
@[simp] theorem State.copied_resp (s : State) (drv : RegionStore) (mac hdr : List Byte) : (s.copied drv mac hdr).resp = none := rfl
@[simp] theorem State.copied_inputs (s : State) (drv : RegionStore) (mac hdr : List Byte) : (s.copied drv mac hdr).inputs = s.inputs := rfl
@[simp] theorem State.copied_draws0 (s : State) (drv : RegionStore) (mac hdr : List Byte) : (s.copied drv mac hdr).draws0 = s.draws0 := rfl
@[simp] theorem State.copied_draws1 (s : State) (drv : RegionStore) (mac hdr : List Byte) : (s.copied drv mac hdr).draws1 = s.draws1 := rfl
@[simp] theorem State.copied_task (s : State) (drv : RegionStore) (mac hdr : List Byte) : (s.copied drv mac hdr).task = s.task := rfl
@[simp] theorem State.copied_ended (s : State) (drv : RegionStore) (mac hdr : List Byte) : (s.copied drv mac hdr).ended = s.ended := rfl

/-! ### An agent takes a step -/

@[simp] theorem State.enterTask_consumer (s : State) : s.enterTask .consumer = { s with task := .consumer } := rfl
@[simp] theorem State.enterTask_startup (s : State) : s.enterTask .startup = s := rfl
@[simp] theorem State.enterTask_producer (s : State) (p : Producer) : s.enterTask (.producer p) = s := rfl
theorem State.enterTask_eq (s : State) (a : Issuer) :
    s.enterTask a = { s with task := if a = .consumer then .consumer else s.task } := by
  cases a <;> rfl
theorem State.enterTask_task (s : State) (a : Issuer) :
    (s.enterTask a).task = if a = .consumer then .consumer else s.task := by
  cases a <;> simp
@[simp] theorem State.enterTask_params (s : State) (a : Issuer) : (s.enterTask a).params = s.params := by cases a <;> rfl
@[simp] theorem State.enterTask_rb (s : State) (a : Issuer) : (s.enterTask a).rb = s.rb := by cases a <;> rfl
@[simp] theorem State.enterTask_can (s : State) (a : Issuer) : (s.enterTask a).can = s.can := by cases a <;> rfl
@[simp] theorem State.enterTask_eth (s : State) (a : Issuer) : (s.enterTask a).eth = s.eth := by cases a <;> rfl
@[simp] theorem State.enterTask_cs (s : State) (a : Issuer) : (s.enterTask a).cs = s.cs := by cases a <;> rfl
@[simp] theorem State.enterTask_faulted (s : State) (a : Issuer) : (s.enterTask a).faulted = s.faulted := by cases a <;> rfl
@[simp] theorem State.enterTask_ended (s : State) (a : Issuer) : (s.enterTask a).ended = s.ended := by cases a <;> rfl
@[simp] theorem State.enterTask_driverRequest (s : State) (a : Issuer) : (s.enterTask a).driverRequest = s.driverRequest := by cases a <;> rfl
@[simp] theorem State.enterTask_caller (s : State) (a : Issuer) : (s.enterTask a).caller = s.caller := by cases a <;> rfl
@[simp] theorem State.enterTask_driver (s : State) (a : Issuer) : (s.enterTask a).driver = s.driver := by cases a <;> rfl
@[simp] theorem State.enterTask_port (s : State) (a : Issuer) : (s.enterTask a).port = s.port := by cases a <;> rfl
@[simp] theorem State.enterTask_resp (s : State) (a : Issuer) : (s.enterTask a).resp = s.resp := by cases a <;> rfl
@[simp] theorem State.enterTask_inputs (s : State) (a : Issuer) : (s.enterTask a).inputs = s.inputs := by cases a <;> rfl
@[simp] theorem State.enterTask_draws0 (s : State) (a : Issuer) : (s.enterTask a).draws0 = s.draws0 := by cases a <;> rfl
@[simp] theorem State.enterTask_draws1 (s : State) (a : Issuer) : (s.enterTask a).draws1 = s.draws1 := by cases a <;> rfl

/-! ### Power-up -/

@[simp] theorem State.powerUp_params (s : State) : (s.powerUp).params = s.params := rfl
@[simp] theorem State.powerUp_rb (s : State) : (s.powerUp).rb = RingBuffer.powerUpAll s.params := rfl
@[simp] theorem State.powerUp_can (s : State) : (s.powerUp).can = CanRxDemux.powerUp s.params := rfl
@[simp] theorem State.powerUp_eth (s : State) : (s.powerUp).eth = EthTx.powerUp := rfl
@[simp] theorem State.powerUp_cs (s : State) : (s.powerUp).cs = false := rfl
@[simp] theorem State.powerUp_faulted (s : State) : (s.powerUp).faulted = none := rfl
@[simp] theorem State.powerUp_driverRequest (s : State) : (s.powerUp).driverRequest = none := rfl
@[simp] theorem State.powerUp_caller (s : State) : (s.powerUp).caller = s.caller := rfl
@[simp] theorem State.powerUp_driver (s : State) : (s.powerUp).driver = s.driver := rfl
@[simp] theorem State.powerUp_port (s : State) : (s.powerUp).port = s.port := rfl
@[simp] theorem State.powerUp_resp (s : State) : (s.powerUp).resp = none := rfl
@[simp] theorem State.powerUp_inputs (s : State) : (s.powerUp).inputs = s.inputs := rfl
@[simp] theorem State.powerUp_draws0 (s : State) : (s.powerUp).draws0 = s.draws0 := rfl
@[simp] theorem State.powerUp_draws1 (s : State) : (s.powerUp).draws1 = s.draws1 := rfl
@[simp] theorem State.powerUp_task (s : State) : (s.powerUp).task = .startup := rfl
@[simp] theorem State.powerUp_ended (s : State) : (s.powerUp).ended = true := rfl

/-! ### The two CAN buffers -/

@[simp] theorem CanRxDemux.buf_setBuf_self (d : CanRxDemux) (c : Controller) (b : RingBuffer CanFrame) :
    (d.setBuf c b).buf c = b := by
  cases c <;> rfl

theorem CanRxDemux.buf_setBuf_other (d : CanRxDemux) (c e : Controller) (b : RingBuffer CanFrame) (h : e ≠ c) :
    (d.setBuf c b).buf e = d.buf e := by
  cases c <;> cases e <;> first | rfl | exact absurd rfl h

@[simp] theorem CanRxDemux.setBuf_buf (d : CanRxDemux) (c : Controller) : d.setBuf c (d.buf c) = d := by
  cases c <;> rfl

/-- A controller's target field names that controller (R28). -/
theorem Controller.ofTgt_eq_some (tgt : Byte) (c : Controller) :
    Controller.ofTgt tgt = some c ↔ tgt = BitVec.ofNat 8 c.number := by
  unfold Controller.ofTgt
  split
  · rename_i h; subst h; cases c <;> simp [Controller.number]
  · split
    · rename_i h; subst h; cases c <;> simp [Controller.number]
    · rename_i h0 h1; cases c <;> simp_all [Controller.number]

end Sys2Proof.Machine
end

