-- ==== Sys2Proof/Tests/Slice0.lean ====
section
/-! SUPPORT. Tests of one step each, expected results from 95_test_vectors.md or worked out from the rules by hand;
and for every statement with hypotheses a concrete state that meets them (`witness_<statement>`). -/

namespace Sys2Proof.Tests

open Sys2Proof.Machine

/-! ### Helpers -/

/-- Whether a result is a next state with a property. -/
def nextSat (p : State → Bool) : Result → Bool
  | .next t => p t
  | .fault _ => false
  | .refused _ => false

/-- The next state of a result, if it is one. -/
def nextOf : Result → State
  | .next t => t
  | .fault _ => State.reset
  | .refused _ => State.reset

theorem eq_nextOf {r : Result} (h : nextSat (fun _ => true) r = true) : r = .next (nextOf r) := by
  cases r with
  | next t => rfl
  | fault f => exact absurd h (by simp [nextSat])
  | refused f => exact absurd h (by simp [nextSat])

/-- Two slots of one byte, CAN buffers of two slots. -/
def small : Config.Params :=
  { Config.Params.default with rb := [{ capacity := 2, recordBytes := 1 }], nCan := 2 }

/-- A frame image of 15 bytes: `k` at byte `k`, with EtherType 0x0800 (95_test_vectors.md, `f15`). -/
def f15 : List Byte := [0, 1, 2, 3, 4, 5, 6, 7, 8, 9, 10, 11, 0x08, 0x00, 0x0E]

/-- `small` at power-up, with `f15` lent by the caller and two bytes lent by the driver. -/
def up : State :=
  { State.initial small with caller := [Region.ofBytes f15], driver := [Region.ofBytes [0xEE, 0xEE]] }

/-- `up` after both INITs. -/
def ready : State :=
  { up with rb := up.rb.map RingBuffer.init, can := { buf0 := up.can.buf0.init, buf1 := up.can.buf1.init } }

/-- A frame of no bytes. -/
def emptyFrame : CanFrame := { id := 0x10, length := 0, data := [0, 0, 0, 0, 0, 0, 0, 0] }

/-- A full instance of two slots, its drop counter at its highest value. -/
def fullRb : RingBuffer Record :=
  { slots := [{ valid := true, data := [0xA] }, { valid := true, data := [0xB] }], wr := 1, rd := 1,
    drops := 0xFFFFFFFF#32, phase := .ready }

/-- A full CAN buffer of two slots. -/
def fullCan : RingBuffer CanFrame :=
  { slots := [{ valid := true, data := emptyFrame }, { valid := true, data := emptyFrame }], wr := 0, rd := 0,
    drops := 3, phase := .ready }

/-- `ready` with the generic instance and `can.buf[0]` full. -/
def full : State := { ready with rb := [fullRb], can := { ready.can with buf0 := fullCan } }

/-- A generic instance whose indices name no slot. -/
def badRb : RingBuffer Record := { fullRb with wr := 2, rd := 2 }

/-- An operand record: item {7}, marked identifier 0x123, caller region 0. -/
def ops (length : Byte) (len : Half) : Operands :=
  { item := [7], rawId := 0x80000123#32, length := length, data := 0, frame := 0, len := len }

/-- A command at generic instance 0 with payload length 2 and frame length 15. -/
def cmd (a : Issuer) (w : Word) : Command := { issuer := a, port := 0, word := w, ops := ops 2 15 }

/-- The command of agent `a` at the port. -/
def by_ (a : Issuer) (s : State) : State := { s with port := cmd a 0 }

/-- The same, with other lengths. -/
def withOps (a : Issuer) (length : Byte) (len : Half) (s : State) : State :=
  { s with port := { issuer := a, port := 0, word := 0, ops := ops length len } }

/-- The CONSUMER's command inside its critical section. -/
def inCs (s : State) : State := { by_ .consumer s with cs := true }

/-- The PRODUCER of generic instance 0. -/
def isr : Issuer := .producer (.rb 0)

/-- The PRODUCER of a controller. -/
def isrCan (c : Controller) : Issuer := .producer (.can c)

/-- A send of `f15` in progress in state `f`, with driver region 0 granted with `n` bytes, in the CONSUMER's loop. -/
def sending (f : EthFsm) (n : Half) : State :=
  { ready with
    task := .consumer
    eth := { ready.eth with fsm := f, frame := 0, len := 15, reqLen := 1, provStatus := .ok, bufRef := 0, granted := n }
    driverRequest :=
      match f with
      | .acquire => some (.provideTxBuffer 0 1)
      | .submit => some (.transmit 0 0 0 true 1 { b0 := 0, b1 := 0, b2 := 0, b3 := 0, b4 := 0, b5 := 0 })
      | .idle => none
      | .reconcile => none
      | .copy => none }

/-- The driver's answer with index 1, region 0 and `n` bytes. -/
def answer (n : Half) : ProvideAnswer := { status := .ok, bufIdx := 1, bufPtr := 0, lengthInOut := n }

/-! ### Well-formedness -/

theorem test_default_params_wellFormed : Config.Params.default.wellFormed = true := by decide

/-- R6, D11: a buffer of no slots is ill formed. -/
theorem test_wellFormed_refuses_empty_buffer :
    Config.Params.wellFormed { small with rb := [{ capacity := 0, recordBytes := 1 }] } = false := by decide

theorem test_wellFormed_refuses_empty_can_buffer : Config.Params.wellFormed { small with nCan := 0 } = false := by decide

/-- R6: CAN_PAYLOAD_MAX is 8 or 64. -/
theorem test_wellFormed_refuses_payload_nine :
    Config.Params.wellFormed { small with canPayloadMax := 9 } = false := by decide

/-- R72: an RB.PUSH item of two bytes is no record of a one-byte type. -/
theorem test_wellFormed_refuses_item_size :
    Input.wellFormed small (.command { cmd isr 2 with ops := { ops 2 15 with item := [1, 2] } }) = false := by decide

/-- R27: a frame longer than its capacity, and one that keeps the marker bit, are ill formed. -/
theorem test_wellFormed_refuses_frames :
    CanFrame.wellFormed small { emptyFrame with length := 9 } = false
      ∧ CanFrame.wellFormed small { emptyFrame with id := 0x80000010#32 } = false := by decide

/-- R71: every instruction is well formed, with the largest target too. -/
theorem test_wellFormed_accepts_targets : (Instr.canrxRead 255).wellFormed = true := by decide

/-! ### Decoding (vectors X1 to X15; the words from R70 and R73) -/

theorem test_decode_rb : decode 0x00000001#32 = .ok .rbInit ∧ decode 0x00000002#32 = .ok .rbPush
    ∧ decode 0x00000003#32 = .ok .rbPop ∧ decode 0x00000004#32 = .ok .rbDrops := ⟨rfl, rfl, rfl, rfl⟩

theorem test_decode_canrx : decode 0x00000011#32 = .ok .canrxInit ∧ decode 0x00000112#32 = .ok (.canrxWrite 1)
    ∧ decode 0x0000FF13#32 = .ok (.canrxRead 255) ∧ decode 0x00000214#32 = .ok (.canrxDrops 2) :=
  ⟨rfl, rfl, rfl, rfl⟩

theorem test_decode_ethtx : decode 0x00000021#32 = .ok .ethtxSend := rfl

theorem test_decode_refuses_unassigned : decode 0#32 = .error (.unassignedOp 0)
    ∧ decode 0x05#32 = .error (.unassignedOp 0x05) ∧ decode 0x10#32 = .error (.unassignedOp 0x10)
    ∧ decode 0x15#32 = .error (.unassignedOp 0x15) ∧ decode 0x20#32 = .error (.unassignedOp 0x20)
    ∧ decode 0x22#32 = .error (.unassignedOp 0x22) ∧ decode 0xFF#32 = .error (.unassignedOp 0xFF) :=
  ⟨rfl, rfl, rfl, rfl, rfl, rfl, rfl⟩

theorem test_decode_refuses_target : decode 0x00000101#32 = .error (.targetNotZero 0x00000101#32)
    ∧ decode 0x00000121#32 = .error (.targetNotZero 0x00000121#32) := ⟨rfl, rfl⟩

theorem test_decode_refuses_reserved : decode 0x00010012#32 = .error (.reservedNotZero 0x00010012#32)
    ∧ decode 0x80000013#32 = .error (.reservedNotZero 0x80000013#32)
    ∧ decode 0xFFFFFFFF#32 = .error (.reservedNotZero 0xFFFFFFFF#32) := ⟨rfl, rfl, rfl⟩

/-- A table word of 32 bits decodes as the word; one of another width, or a longer value, is no command (R75). -/
theorem test_decodeTableWord : decodeTableWord 32 0x112 = some (.canrxWrite 1)
    ∧ decodeTableWord 32 0 = none ∧ decodeTableWord 64 0x100000001 = none
    ∧ decodeTableWord 16 0x112 = none ∧ decodeTableWord 64 1 = none ∧ decodeTableWord 32 0x100000001 = none := by decide

/-- The machine takes no word of another width either: nothing is placed. -/
theorem test_withFetchWord_needs_32_bits : ready.withFetchWord 16 0x112 = ready ∧ ready.withFetchWord 64 1 = ready := ⟨rfl, rfl⟩

/-- The command port at reset offers RB.PUSH a record of its instance's size (R72; log 31). -/
theorem test_reset_item_is_one_record :
    State.reset.port.ops.item.length = 4 ∧ (State.initial small).port.ops.item.length = 1 := by decide

/-! ### RingBuffer (vectors RB1 to RB17) -/

/-- RB1, with two slots: power-up garbage is forgotten. -/
theorem test_rbInit_clears :
    nextSat (fun t => decide (t.rb.map (fun b => (b.slots.map (·.valid), b.wr, b.rd, b.drops, b.phase))
        = [([false, false], 0, 0, 0, .ready)]))
      (exec .rbInit (by_ .startup { up with rb := [{ fullRb with phase := .uninit }] })) = true := by decide

/-- RB13. -/
theorem test_rbInit_twice_faults :
    nextSat (fun t => decide (t.faulted = some (.reinit (.rb 0)) ∧ t.rb = ready.rb ∧ t.resp = none))
      (exec .rbInit (by_ .startup ready)) = true := by decide

/-- RB17, with two slots: the push at the last slot wraps `wr`. -/
theorem test_rbPush_wraps :
    nextSat (fun t => decide (t.rb.map (fun b => (b.slots.map (·.valid), b.wr, b.rd)) = [([false, true], 0, 1)]))
      (exec .rbPush (by_ isr { ready with rb := ready.rb.map fun b => { b with wr := 1, rd := 1 } })) = true := by decide

/-- RB7: a push on a full buffer wraps the drop counter and writes nothing else. -/
theorem test_rbPush_full_wraps_drops :
    nextSat (fun t => decide (t.rb = [{ fullRb with drops := 0 }]
        ∧ t.resp = some { agent := isr, result := .bufferFull, data := .none }))
      (exec .rbPush (by_ isr full)) = true := by decide

/-- RB3: the pop at the last slot returns its record, keeps it in the slot, and wraps `rd`. -/
theorem test_rbPop_wraps :
    nextSat (fun t => decide (t.rb.map (fun b => (b.slots.map (·.valid), b.wr, b.rd)) = [([true, false], 1, 0)]
        ∧ t.resp = some { agent := .consumer, result := .ok, data := .record [0xB] }))
      (exec .rbPop (inCs full)) = true := by decide

/-- RB10: outside the critical section. -/
theorem test_rbPop_outside_cs_faults :
    nextSat (fun t => decide (t.faulted = some (.context .rbPop .consumer false .consumer) ∧ t.rb = full.rb))
      (exec .rbPop (by_ .consumer full)) = true := by decide

/-- RB8. -/
theorem test_rbDrops_reads :
    nextSat (fun t => decide (t.resp = some { agent := isr, result := .ok, data := .count 0xFFFFFFFF#32 } ∧ t.rb = full.rb))
      (exec .rbDrops (by_ isr full)) = true := by decide

/-- RB12. -/
theorem test_rbDrops_before_init_faults :
    nextSat (fun t => decide (t.faulted = some (.uninit (.rb 0)))) (exec .rbDrops (by_ .consumer up)) = true := by decide

/-! ### CanRxDemux (vectors CV1 to CV19) -/

/-- R120's example. -/
theorem test_canrxInit_initialises_both :
    nextSat (fun t => decide ((t.can.buf0.phase, t.can.buf1.phase, t.can.buf0.wr, t.can.buf1.rd) = (.ready, .ready, 0, 0)))
      (exec .canrxInit (by_ .startup up)) = true := by decide

/-- CV17. -/
theorem test_canrxInit_twice_faults :
    nextSat (fun t => decide (t.faulted = some (.reinit .can) ∧ t.can = ready.can))
      (exec .canrxInit (by_ .startup ready)) = true := by decide

/-- CV2 with two bytes: the marker is cleared, the bytes keep their order, the other buffer is untouched. -/
theorem test_canrxWrite_stores :
    nextSat (fun t => decide (t.can.buf0.slots.map (fun sl => (sl.valid, sl.data.id, sl.data.length, sl.data.data.take 2))
          = [(true, 0x123#32, 2, [0, 1]), (false, 0, 0, [0, 0])]
        ∧ t.can.buf0.wr = 1 ∧ t.can.buf1 = ready.can.buf1))
      (exec (.canrxWrite 0) (by_ (isrCan .can0) ready)) = true := by decide

/-- CV5: MalformedFrame comes before BufferFull, and no drop is counted. -/
theorem test_canrxWrite_too_long :
    nextSat (fun t => decide (t.can = full.can ∧ t.resp.map (·.result) = some .malformedFrame))
      (exec (.canrxWrite 0) (withOps (isrCan .can0) 9 15 full)) = true := by decide

/-- CV10: the read of controller 1 does not see controller 0's frame. -/
theorem test_canrxRead_does_not_cross :
    nextSat (fun t => decide (t.can = full.can ∧ t.resp.map (·.result) = some .bufferEmpty))
      (exec (.canrxRead 1) (inCs full)) = true := by decide

/-- CV9. -/
theorem test_canrxRead_unknown_controller :
    nextSat (fun t => decide (t.can = full.can ∧ t.resp.map (·.result) = some .invalidController))
      (exec (.canrxRead 255) (inCs full)) = true := by decide

/-- CV12. -/
theorem test_canrxDrops_counts_per_controller :
    nextSat (fun t => decide (t.resp.map (·.data) = some (.count 3))) (exec (.canrxDrops 0) (by_ .consumer full)) = true
      ∧ nextSat (fun t => decide (t.resp.map (·.data) = some (.count 0))) (exec (.canrxDrops 1) (by_ .consumer full))
        = true := by decide

/-- CV15: the unknown controller is reported before the missing INIT. -/
theorem test_canrxDrops_unknown_before_uninit :
    nextSat (fun t => decide (t.resp.map (·.result) = some .invalidController ∧ t.faulted = none))
      (exec (.canrxDrops 3) (by_ .consumer up)) = true := by decide

/-! ### EthTxAssembler (vectors E1 to E17) -/

/-- E4, its first step: 15 bytes ask for one. -/
theorem test_ethtxSend_asks_for_payload :
    nextSat (fun t => decide (t.eth.fsm = .acquire ∧ t.eth.reqLen = 1
        ∧ t.driverRequest = some (.provideTxBuffer 0 1) ∧ t.resp = none))
      (exec .ethtxSend (by_ .consumer up)) = true := by decide

/-- E2 and E11: 14 bytes are malformed, whatever the region. -/
theorem test_ethtxSend_header_only :
    nextSat (fun t => decide (t.eth.fsm = .idle ∧ t.eth.result = .malformedFrame ∧ t.driverRequest = none
        ∧ t.resp.map (·.result) = some .malformedFrame))
      (exec .ethtxSend (withOps .consumer 0 14 { up with caller := [] })) = true := by decide

/-- E4, its COPY step: the payload byte, the addresses and the EtherType of `f15`. -/
theorem test_copy_moves_f15 :
    nextSat (fun t => decide (t.eth.fsm = .submit ∧ RegionStore.memRead t.driver 0 0 2 = some [0x0E, 0xEE]
        ∧ t.driverRequest = some (.transmit 0 0 0x0800#16 true 1 { b0 := 0, b1 := 1, b2 := 2, b3 := 3, b4 := 4, b5 := 5 })))
      (takeInput .internal (sending .copy 1)) = true := by decide

/-- E5, its RECONCILE step: a grant one byte short fails the send. -/
theorem test_reconcile_short_grant :
    nextSat (fun t => decide (t.eth.fsm = .idle ∧ t.resp.map (·.result) = some .bufferAcquireFailed))
      (takeInput .internal (sending .reconcile 0)) = true := by decide

/-- A word placed by `withFetchWord` runs as the next step from reset: RB.INIT completes with Ok. -/
theorem test_fetchWord_runs_after_reset :
    nextSat (fun t => decide (t.resp.map (·.result) = some .ok)) (step (State.reset.withFetchWord 32 1)) = true := by decide

/-! ### Agents and the end of a run -/

/-- R181: an INIT still pending when the CONSUMER's loop has started is not taken, and the block waits. -/
theorem test_startup_is_left :
    nextSat (fun t => decide (t.rb = up.rb ∧ t.inputs = [.command (cmd .startup 1)]))
      (step { up with task := .consumer, inputs := [.command (cmd .startup 1)] }) = true := by decide

/-- R172: a power-up ends the run: nothing pending behind it is taken. -/
theorem test_powerUp_ends_the_run :
    step (nextOf (step { full with faulted := some (.reinit .can), inputs := [.powerUp, .csEnter] }))
      = .fault .runEnded := rfl

/-! ### Witnesses: states that meet the hypotheses of the statements -/

/-- A check that finite instances meet R105. -/
def occupancyCheck {α : Type} (b : RingBuffer α) : Bool :=
  decide (b.rd < b.capacity) && decide (b.wr < b.capacity) && decide (b.count ≤ b.capacity)
    && decide (b.wr = (b.rd + b.count) % b.capacity)
    && (List.range b.capacity).all fun i =>
        (b.slots[i]?.map (·.valid)) == some ((List.range b.count).any fun j => i == (b.rd + j) % b.capacity)

theorem occupancy_of_check {α : Type} {b : RingBuffer α} (h : occupancyCheck b = true) : b.occupancy := by
  simp only [occupancyCheck, Bool.and_eq_true, decide_eq_true_eq, List.all_eq_true, List.mem_range,
    beq_iff_eq] at h
  obtain ⟨⟨⟨⟨h1, h2⟩, h3⟩, h4⟩, h5⟩ := h
  refine ⟨h1, h2, h3, h4, fun i sl hs => ?_⟩
  have := h5 i (List.getElem?_eq_some_iff.mp hs).1
  rw [hs] at this
  simp only [Option.map_some, Option.some.injEq] at this
  rw [this]
  simp

/-- The instance of `ready`. -/
def readyRb : RingBuffer Record := (RingBuffer.powerUp 2 [0]).init

theorem ready_ringsSound : ready.ringsSound :=
  ⟨fun _ hb _ => by rcases List.mem_singleton.mp hb with rfl; exact occupancy_of_check (by decide),
    fun _ => occupancy_of_check (by decide), fun _ => occupancy_of_check (by decide)⟩

theorem full_ringsSound : full.ringsSound :=
  ⟨fun _ hb _ => by rcases List.mem_singleton.mp hb with rfl; exact occupancy_of_check (by decide),
    fun _ => occupancy_of_check (by decide), fun _ => occupancy_of_check (by decide)⟩

theorem witness_DecodeAndEncodeAgree : decode 0x0000FF12#32 = .ok (.canrxWrite 255) := rfl

theorem witness_IllegalWordsRaiseIllegalCmd :
    (cmd isr 0x00000102#32).word = 0x00000102#32 ∧ (∃ e, decode 0x00000102#32 = .error e)
      ∧ (∃ e, decode 0x00010000#32 = .error e) ∧ ∃ e, decode 0x00000022#32 = .error e :=
  ⟨rfl, ⟨_, rfl⟩, ⟨_, rfl⟩, ⟨_, rfl⟩⟩

/-- `ready` with the driver's answer, which waits, and a command pending. -/
def pending (c : Command) : State := { ready with inputs := [.provideAnswer (answer 1), .command c] }

theorem witness_StepRunsTheDecodedCommand :
    (pending (cmd isr 2)).choose (pending (cmd isr 2)).inputs
        = some { before := [.provideAnswer (answer 1)], chosen := .command (cmd isr 2), after := [] }
      ∧ decode (cmd isr 2).word = .ok .rbPush ∧ Instr.rbPush.wellFormed = true := by decide

/-- The same with the CONSUMER's send, which starts its loop. -/
theorem witness_StepRunsTheDecodedCommand_consumer :
    (pending (cmd .consumer 0x21)).choose (pending (cmd .consumer 0x21)).inputs
        = some { before := [.provideAnswer (answer 1)], chosen := .command (cmd .consumer 0x21), after := [] }
      ∧ decode (cmd .consumer 0x21).word = .ok .ethtxSend ∧ (pending (cmd .consumer 0x21)).task = .startup := by decide

theorem witness_StepTakesTheOldestEnabledInput :
    (pending (cmd isr 2)).inputs = [Input.provideAnswer (answer 1)] ++ Input.command (cmd isr 2) :: []
      ∧ (∀ y ∈ [Input.provideAnswer (answer 1)], y.enabled (pending (cmd isr 2)) = false)
      ∧ (Input.command (cmd isr 2)).enabled (pending (cmd isr 2)) = true
      ∧ Input.powerUp.enabled (pending (cmd isr 2)) = true := by decide

/-- A PRODUCER's word in the critical section, and the CONSUMER's in the middle of a send: both run next. -/
theorem witness_FetchWordIsRunNext :
    (∃ t : State, step ((inCs ready).withFetchWord 32 2) = .next t ∧ t.resp.map (·.result) = some .ok)
      ∧ ∃ t : State, step ((sending .submit 1).withFetchWord 32 0x21) = .next t ∧ t.resp.map (·.result) = some .malformedFrame :=
  ⟨⟨_, rfl, rfl⟩, ⟨_, rfl, rfl⟩⟩

theorem witness_RbInitFollowsItsRule :
    (∃ b : RingBuffer Record, (by_ .consumer up).rb[(by_ .consumer up).port.port]? = some b ∧ (by_ .consumer up).ctx ≠ .startup)
      ∧ (∃ b : RingBuffer Record, (by_ .startup full).rb[(by_ .startup full).port.port]? = some b ∧ (by_ .startup full).ctx = .startup
          ∧ b.phase = .ready)
      ∧ ∃ b : RingBuffer Record, (by_ .startup up).rb[(by_ .startup up).port.port]? = some b ∧ (by_ .startup up).ctx = .startup
          ∧ b.phase = .uninit :=
  ⟨⟨_, rfl, by decide⟩, ⟨_, rfl, rfl, rfl⟩, ⟨_, rfl, rfl, rfl⟩⟩

theorem witness_RbPushFollowsItsRule :
    (by_ (.producer (.rb 1)) full).port.issuer ≠ .producer (.rb 0)
      ∧ (∃ b : RingBuffer Record, (by_ isr up).rb[0]? = some b ∧ (by_ isr up).port.issuer = .producer (.rb 0) ∧ b.phase = .uninit)
      ∧ (∃ (b : RingBuffer Record) (sl : Slot Record), (by_ isr full).rb[0]? = some b ∧ (by_ isr full).port.issuer = .producer (.rb 0) ∧ b.phase = .ready
          ∧ b.slots[b.wr]? = some sl ∧ sl.valid = true)
      ∧ ∃ (b : RingBuffer Record) (sl : Slot Record), (by_ isr ready).rb[0]? = some b ∧ (by_ isr ready).port.issuer = .producer (.rb 0) ∧ b.phase = .ready
          ∧ b.slots[b.wr]? = some sl ∧ sl.valid = false :=
  ⟨by decide, ⟨RingBuffer.powerUp 2 [0], by decide⟩, ⟨fullRb, { valid := true, data := [0xB] }, by decide⟩,
    ⟨readyRb, { valid := false, data := [0] }, by decide⟩⟩

theorem witness_RbPopFollowsItsRule :
    ((by_ isr full).ctx ≠ .consumer ∧ (by_ .consumer full).cs = false)
      ∧ (∃ b : RingBuffer Record, (inCs up).rb[0]? = some b ∧ (inCs up).ctx = .consumer ∧ (inCs up).cs = true ∧ b.phase = .uninit)
      ∧ (∃ (b : RingBuffer Record) (sl : Slot Record), (inCs ready).rb[0]? = some b ∧ (inCs ready).ctx = .consumer ∧ (inCs ready).cs = true
          ∧ b.phase = .ready ∧ b.slots[b.rd]? = some sl ∧ sl.valid = false)
      ∧ ∃ (b : RingBuffer Record) (sl : Slot Record), (inCs full).rb[0]? = some b ∧ (inCs full).ctx = .consumer ∧ (inCs full).cs = true
          ∧ b.phase = .ready ∧ b.slots[b.rd]? = some sl ∧ sl.valid = true :=
  ⟨by decide, ⟨RingBuffer.powerUp 2 [0], by decide⟩, ⟨readyRb, { valid := false, data := [0] }, by decide⟩,
    ⟨fullRb, { valid := true, data := [0xB] }, by decide⟩⟩

theorem witness_RbDropsFollowsItsRule :
    (∃ b : RingBuffer Record, (by_ isr up).rb[(by_ isr up).port.port]? = some b ∧ b.phase = .uninit)
      ∧ ∃ b : RingBuffer Record, (by_ isr full).rb[(by_ isr full).port.port]? = some b ∧ b.phase = .ready :=
  ⟨⟨_, rfl, rfl⟩, ⟨_, rfl, rfl⟩⟩

/-- `full` at a port that no instance has. -/
def noPort : State := { full with port := { cmd isr 0 with port := 1 } }

/-- Instances whose indices name no slot, at each agent's command. -/
def bad (a : Issuer) : State :=
  { full with
    rb := [badRb], can := { full.can with buf1 := { fullCan with wr := 2, rd := 2 } }
    cs := true, port := cmd a 0 }

theorem witness_OnlyTheNamedStopsStop :
    (noPort.rb[noPort.port.port]? = none ∧ Instr.rbPush.op = .rbPush
        ∧ exec .rbPush noPort = .refused (.noSuchPort 1))
      ∧ (∀ a, (bad a).rb[(bad a).port.port]? = some badRb ∧ badRb.phase = .ready
        ∧ badRb.slots.length ≤ badRb.wr ∧ badRb.slots.length ≤ badRb.rd)
      ∧ (∀ a, ((bad a).can.buf .can1).phase = .ready
        ∧ ((bad a).can.buf .can1).slots.length ≤ ((bad a).can.buf .can1).wr
        ∧ ((bad a).can.buf .can1).slots.length ≤ ((bad a).can.buf .can1).rd
        ∧ (bad a).port.ops.length.toNat ≤ (bad a).params.canPayloadMax
        ∧ (bad a).port.ops.length.toNat ≤ RegionStore.size (bad a).caller (bad a).port.ops.data ∧ (bad a).cs = true)
      ∧ exec .rbPush (bad isr) = .fault (.slotIndexOutOfRange (.rb 0))
      ∧ exec .rbPop (bad .consumer) = .fault (.slotIndexOutOfRange (.rb 0))
      ∧ exec (.canrxWrite 1) (bad (isrCan .can1)) = .fault (.slotIndexOutOfRange (.canBuf .can1))
      ∧ exec (.canrxRead 1) (bad .consumer) = .fault (.slotIndexOutOfRange (.canBuf .can1)) :=
  ⟨⟨rfl, rfl, rfl⟩, fun _ => ⟨rfl, rfl, by decide, by decide⟩,
    fun _ => ⟨rfl, Nat.le_refl _, Nat.le_refl _, (by decide : (2 : Byte).toNat ≤ 8),
      (by decide : (2 : Byte).toNat ≤ RegionStore.size [Region.ofBytes f15] 0), rfl⟩, rfl, rfl, rfl, rfl⟩

/-- The last index of a buffer of ten, of one and of eight slots. -/
theorem witness_IndexArithmeticStaysInRange : (9 < 10 ∧ incMod 10 9 = 0) ∧ (7 < 2 ^ 3 ∧ incMod (2 ^ 3) 7 = 0)
    ∧ (0 < 1 ∧ incMod 1 0 = 0) := by decide

theorem witness_FullAndEmptyAreReadFromTheValidFlag :
    (fullRb.occupancy ∧ fullRb.count = fullRb.capacity) ∧ (readyRb.occupancy ∧ readyRb.count = 0)
      ∧ (fullCan.occupancy ∧ fullCan.count = fullCan.capacity) ∧ fullCan.init.occupancy ∧ fullCan.init.count = 0 :=
  ⟨⟨occupancy_of_check (by decide), by decide⟩, ⟨occupancy_of_check (by decide), by decide⟩,
    ⟨occupancy_of_check (by decide), by decide⟩, occupancy_of_check (by decide), by decide⟩

theorem witness_PushAndPopActOnTheContents :
    fullCan.occupancy ∧ (∃ b' : RingBuffer CanFrame, fullCan.push emptyFrame = some (.bufferFull, b'))
      ∧ (∃ b' : RingBuffer CanFrame, fullCan.pop = some (some emptyFrame, b'))
      ∧ fullCan.init.occupancy ∧ (∃ b' : RingBuffer CanFrame, fullCan.init.push emptyFrame = some (.ok, b'))
      ∧ (∃ b' : RingBuffer CanFrame, fullCan.init.pop = some (none, b'))
      ∧ fullRb.occupancy ∧ ∃ b' : RingBuffer Record, fullRb.push [1] = some (.bufferFull, b') :=
  ⟨occupancy_of_check (by decide), ⟨_, rfl⟩, ⟨_, rfl⟩, occupancy_of_check (by decide), ⟨_, rfl⟩, ⟨_, rfl⟩,
    occupancy_of_check (by decide), ⟨_, rfl⟩⟩

theorem witness_GenericBufferIsFifo :
    full.rb[0]? = some fullRb ∧ fullRb.phase = .ready ∧ fullRb.occupancy ∧ full.faulted = none :=
  ⟨rfl, rfl, occupancy_of_check (by decide), rfl⟩

theorem witness_PopsArePartOfPushesSinceInit :
    ∃ (b : RingBuffer Record) (s' : State) (a : Tally Record) (t : State), (by_ .startup up).rb[(by_ .startup up).port.port]? = some b ∧ 1 ≤ b.capacity
      ∧ (by_ .startup up).faulted = none ∧ exec .rbInit (by_ .startup up) = .next s' ∧ s'.faulted = none
      ∧ RbEvent.runAll (by_ .startup up).port.port [.push [1], .push [2], .push [3], .pop] Tally.zero s' = some (a, t)
      ∧ a = { accepted := [[1], [2]], popped := [[1]], dropped := 1 } := by
  have h : (RbEvent.runAll 0 [.push [1], .push [2], .push [3], .pop] Tally.zero
      (nextOf (exec .rbInit (by_ .startup up)))).map (·.1)
      = some { accepted := [[1], [2]], popped := [[1]], dropped := 1 } := by decide
  obtain ⟨⟨a, t⟩, hr, ha⟩ := Option.map_eq_some_iff.mp h
  exact ⟨_, _, a, t, rfl, by decide, rfl, eq_nextOf (by decide), by decide, hr, ha⟩

theorem witness_CapacityIsExactlyN :
    ready.rb[0]? = some readyRb ∧ readyRb.phase = .ready ∧ readyRb.occupancy ∧ readyRb.count = 0
      ∧ ready.faulted = none ∧ ([[1], [2]] : List Record).length = readyRb.capacity ∧ 2 ≤ readyRb.capacity
      ∧ ([[4], [5]] : List Record).length = 2 :=
  ⟨rfl, rfl, occupancy_of_check (by decide), by decide, rfl, by decide, by decide, rfl⟩

theorem witness_CanrxInitFollowsItsRule :
    (by_ isr up).ctx ≠ .startup
      ∧ ((by_ .startup ready).ctx = .startup ∧ (by_ .startup ready).can.buf1.phase = .ready)
      ∧ ((by_ .startup up).ctx = .startup ∧ (by_ .startup up).can.buf0.phase = .uninit
          ∧ (by_ .startup up).can.buf1.phase = .uninit) := by decide

/-- `full` with a nine-byte payload announced by the PRODUCER of Can0. -/
def tooLong : State := withOps (isrCan .can0) 9 0 full

/-- `full` with the longest payload announced, and a region one byte too short. -/
def shortRegion : State :=
  { withOps (isrCan .can0) 8 0 full with caller := [Region.ofBytes [1, 2, 3, 4, 5, 6, 7]] }

/-- One state for each failing clause: context, targets 2 and 255, the other PRODUCER, no INIT, nine bytes, and the
longest payload over a region that is one byte too short. -/
theorem witness_CanrxWriteFollowsItsRule_checks :
    (by_ .consumer ready).ctx ≠ .producer
      ∧ ((by_ isr ready).ctx = .producer ∧ 2 ≤ (2 : Byte).toNat ∧ 2 ≤ (255 : Byte).toNat)
      ∧ ((1 : Byte).toNat = Controller.can1.number ∧ (by_ (isrCan .can0) ready).ctx = .producer
          ∧ (by_ (isrCan .can0) ready).port.issuer ≠ .producer (.can .can1))
      ∧ ((1 : Byte).toNat = Controller.can1.number ∧ (by_ (isrCan .can1) up).ctx = .producer
          ∧ (by_ (isrCan .can1) up).port.issuer = .producer (.can .can1)
          ∧ ((by_ (isrCan .can1) up).can.buf .can1).phase = .uninit)
      ∧ ((0 : Byte).toNat = Controller.can0.number ∧ tooLong.ctx = .producer
          ∧ tooLong.port.issuer = .producer (.can .can0) ∧ (tooLong.can.buf .can0).phase = .ready
          ∧ tooLong.params.canPayloadMax < tooLong.port.ops.length.toNat)
      ∧ ((0 : Byte).toNat = Controller.can0.number ∧ shortRegion.ctx = .producer
          ∧ shortRegion.port.issuer = .producer (.can .can0) ∧ (shortRegion.can.buf .can0).phase = .ready
          ∧ shortRegion.port.ops.length.toNat ≤ shortRegion.params.canPayloadMax
          ∧ RegionStore.size shortRegion.caller shortRegion.port.ops.data < shortRegion.port.ops.length.toNat) := by
  decide

/-- All the hypotheses of the push of `CanrxWriteFollowsItsRule` at target 0, for a slot at `wr` with this valid flag. -/
def storesAt (s : State) (v : Bool) : Bool :=
  decide ((0 : Byte).toNat = Controller.can0.number ∧ s.port.issuer = .producer (.can .can0)
    ∧ (s.can.buf .can0).phase = .ready ∧ s.port.ops.length.toNat ≤ s.params.canPayloadMax
    ∧ s.port.ops.length.toNat ≤ RegionStore.size s.caller s.port.ops.data
    ∧ ((s.can.buf .can0).slots[(s.can.buf .can0).wr]?).map (·.valid) = some v)

/-- An empty and a full buffer, each with no payload byte and with eight. -/
theorem witness_CanrxWriteFollowsItsRule_push :
    storesAt (withOps (isrCan .can0) 0 0 ready) false = true ∧ storesAt (withOps (isrCan .can0) 8 0 ready) false = true
      ∧ storesAt (withOps (isrCan .can0) 0 0 full) true = true ∧ storesAt (withOps (isrCan .can0) 8 0 full) true = true := by
  decide

theorem witness_CanrxReadFollowsItsRule :
    ((by_ isr full).ctx ≠ .consumer ∧ (by_ .consumer full).cs = false)
      ∧ ((inCs full).ctx = .consumer ∧ (inCs full).cs = true ∧ 2 ≤ (2 : Byte).toNat)
      ∧ ((1 : Byte).toNat = Controller.can1.number ∧ (inCs up).ctx = .consumer ∧ (inCs up).cs = true
          ∧ ((inCs up).can.buf .can1).phase = .uninit)
      ∧ ((1 : Byte).toNat = Controller.can1.number ∧ (inCs full).ctx = .consumer ∧ (inCs full).cs = true
          ∧ ((inCs full).can.buf .can1).phase = .ready
          ∧ (((inCs full).can.buf .can1).slots[((inCs full).can.buf .can1).rd]?).map (·.valid) = some false)
      ∧ ((0 : Byte).toNat = Controller.can0.number ∧ (inCs full).ctx = .consumer ∧ (inCs full).cs = true
          ∧ ((inCs full).can.buf .can0).phase = .ready
          ∧ (((inCs full).can.buf .can0).slots[((inCs full).can.buf .can0).rd]?).map (·.valid) = some true) := by
  decide

theorem witness_CanrxDropsFollowsItsRule :
    2 ≤ (2 : Byte).toNat ∧ ((1 : Byte).toNat = Controller.can1.number ∧ (up.can.buf .can1).phase = .uninit)
      ∧ ((0 : Byte).toNat = Controller.can0.number ∧ (full.can.buf .can0).phase = .ready) := by decide

/-- A counted write of controller 0 beside controller 1, and a frame one byte too long. -/
theorem witness_CanrxDropsFollowsItsRule_counts :
    (∃ t : State, exec (.canrxWrite 0) (by_ (isrCan .can0) full) = .next t ∧ (t.can.buf .can0).drops ≠ (full.can.buf .can0).drops
        ∧ (0 : Byte).toNat ≠ Controller.can1.number)
      ∧ ∃ (t : State) (r : Response), exec (.canrxWrite 0) (withOps (isrCan .can0) 9 0 full) = .next t
        ∧ t.resp = some r ∧ r.result = .malformedFrame :=
  ⟨⟨_, rfl, by decide, by decide⟩, ⟨_, _, rfl, rfl, rfl⟩⟩

theorem witness_EachCanBufferIsFifo :
    (∀ d : Controller, (full.can.buf d).phase = .ready ∧ (full.can.buf d).occupancy) ∧ full.faulted = none
      ∧ (∀ e ∈ [CanEvent.write .can1 0x80000007#32 8 0, .write .can0 1 0 9, .write .can0 1 9 7, .read .can0], ∀ (d : Controller)
          (rawId : Word) (length : Byte) (data : Nat), e = .write d rawId length data →
          length.toNat ≤ full.params.canPayloadMax → length.toNat ≤ RegionStore.size full.caller data) := by
  refine ⟨fun d => ?_, rfl, ?_⟩
  · cases d <;> exact ⟨rfl, occupancy_of_check (by decide)⟩
  · intro e he d rawId length data hw
    subst hw
    simp only [List.mem_cons, CanEvent.write.injEq, List.not_mem_nil, or_false, reduceCtorEq] at he
    rcases he with ⟨_, _, rfl, rfl⟩ | ⟨_, _, rfl, rfl⟩ | ⟨_, _, rfl, rfl⟩ <;> decide

theorem witness_WritesOfTheTwoControllersCommute :
    ∃ a b ab ba : State, (cmd (isrCan .can0) 0x12).word = 0x00000012#32 ∧ (cmd (isrCan .can1) 0x112).word = 0x00000112#32
      ∧ runCommand (cmd (isrCan .can0) 0x12) ready = .next a ∧ a.faulted = none
      ∧ runCommand (cmd (isrCan .can1) 0x112) a = .next ab ∧ ab.faulted = none
      ∧ runCommand (cmd (isrCan .can1) 0x112) ready = .next b ∧ b.faulted = none
      ∧ runCommand (cmd (isrCan .can0) 0x12) b = .next ba ∧ ba.faulted = none :=
  ⟨_, _, _, _, rfl, rfl, eq_nextOf (by decide), by decide, eq_nextOf (by decide), by decide, eq_nextOf (by decide),
    by decide, eq_nextOf (by decide), by decide⟩

/-- The CONSUMER's command with frame length `len` over the 15 bytes of `f15`, the block idle. -/
def sendAt (len : Half) : State := withOps .consumer 0 len up

/-- Lengths 14, 16 and 15 over a region of 15 bytes, and a send in progress. -/
theorem witness_EthtxSendFollowsItsRule :
    (by_ isr up).ctx ≠ .consumer
      ∧ ((by_ .consumer (sending .submit 1)).ctx = .consumer ∧ (by_ .consumer (sending .submit 1)).eth.fsm ≠ .idle)
      ∧ ((sendAt 14).ctx = .consumer ∧ (sendAt 14).eth.fsm = .idle ∧ (sendAt 14).port.ops.len.toNat ≤ 14)
      ∧ ((sendAt 16).ctx = .consumer ∧ (sendAt 16).eth.fsm = .idle ∧ 14 < (sendAt 16).port.ops.len.toNat
          ∧ RegionStore.size (sendAt 16).caller (sendAt 16).port.ops.frame < (sendAt 16).port.ops.len.toNat)
      ∧ ((sendAt 15).ctx = .consumer ∧ (sendAt 15).eth.fsm = .idle ∧ 14 < (sendAt 15).port.ops.len.toNat
          ∧ (sendAt 15).port.ops.len.toNat ≤ RegionStore.size (sendAt 15).caller (sendAt 15).port.ops.frame) := by decide

theorem witness_AcquireLatchesTheAnswer :
    (sending .acquire 0).ended = false ∧ (sending .acquire 0).faulted = none ∧ (Input.provideAnswer (answer 1)).enabled (sending .acquire 0) = true
      ∧ (Input.provideAnswer (answer 1)).enabled (sending .submit 0) = false := by decide

/-- A refusal, and grants of 0 and of 1 for one byte. -/
theorem witness_ReconcileFollowsItsRule :
    ((sending .reconcile 0).eth.fsm = .reconcile ∧ (sending .reconcile 0).ended = false
        ∧ (sending .reconcile 0).faulted = none
        ∧ (sending .reconcile 0).eth.granted.toNat < (sending .reconcile 0).eth.reqLen.toNat)
      ∧ ((sending .reconcile 1).eth.fsm = .reconcile ∧ (sending .reconcile 1).eth.provStatus = .ok
        ∧ (sending .reconcile 1).eth.reqLen.toNat ≤ (sending .reconcile 1).eth.granted.toNat)
      ∧ ∃ s : State, s.eth.fsm = .reconcile ∧ s.eth.provStatus ≠ .ok :=
  ⟨by decide, by decide,
    { ready with eth := { (sending .reconcile 1).eth with provStatus := .overflow } }, by decide, by decide⟩

theorem sending_storesWf (f : EthFsm) (n : Half) : (sending f n).storesWf := ⟨rfl, rfl⟩

theorem witness_CopyFollowsItsRule_moves :
    ((sending .copy 1).eth.fsm = .copy ∧ (sending .copy 1).ended = false ∧ (sending .copy 1).faulted = none)
      ∧ (sending .copy 1).storesWf
      ∧ 14 + (sending .copy 1).eth.reqLen.toNat ≤ RegionStore.size (sending .copy 1).caller (sending .copy 1).eth.frame
      ∧ (sending .copy 1).eth.reqLen.toNat ≤ RegionStore.size (sending .copy 1).driver (sending .copy 1).eth.bufRef :=
  ⟨⟨rfl, rfl, rfl⟩, sending_storesWf _ _, by decide, by decide⟩

/-- A COPY with a frame image one byte too short, and one with no driver region. -/
def copyShort : State := { sending .copy 1 with caller := [Region.ofBytes (f15.take 14)] }

/-- See `copyShort`. -/
def copyNoRegion : State := { sending .copy 1 with driver := [] }

theorem witness_CopyFollowsItsRule_faults :
    (copyShort.eth.fsm = .copy
        ∧ RegionStore.size copyShort.caller copyShort.eth.frame < 14 + copyShort.eth.reqLen.toNat)
      ∧ (copyNoRegion.eth.fsm = .copy
        ∧ 14 + copyNoRegion.eth.reqLen.toNat ≤ RegionStore.size copyNoRegion.caller copyNoRegion.eth.frame
        ∧ RegionStore.size copyNoRegion.driver copyNoRegion.eth.bufRef < copyNoRegion.eth.reqLen.toNat) := by decide

theorem witness_SubmitCompletesTheSend :
    (sending .submit 1).ended = false ∧ (sending .submit 1).faulted = none ∧ (Input.transmitAnswer .ok).enabled (sending .submit 1) = true
      ∧ (Input.transmitAnswer .ok).enabled (sending .acquire 1) = false := by decide

/-- `up` with a send of `f15`, the driver's answer of `n` bytes and its answer to Transmit pending. -/
def sendPending (n : Half) : State :=
  { up with inputs := [.command (cmd .consumer 0x21), .provideAnswer (answer n), .transmitAnswer .eNotOk] }

/-- The grants 0 and 1 for the one byte asked for. -/
theorem witness_SendFollowsTheOneStepView :
    ((sendPending 1).ended = false ∧ (sendPending 1).faulted = none ∧ (sendPending 1).eth.fsm = .idle ∧ (sendPending 1).driverRequest = none
        ∧ (sendPending 1).storesWf)
      ∧ ((cmd .consumer 0x21).word = 0x00000021#32 ∧ (cmd .consumer 0x21).issuer = .consumer
        ∧ 14 < (cmd .consumer 0x21).ops.len.toNat
        ∧ (cmd .consumer 0x21).ops.len.toNat ≤ RegionStore.size (sendPending 1).caller (cmd .consumer 0x21).ops.frame)
      ∧ (answer 0).lengthInOut.toNat < (cmd .consumer 0x21).ops.len.toNat - 14
      ∧ ((answer 1).status = .ok ∧ (cmd .consumer 0x21).ops.len.toNat - 14 ≤ (answer 1).lengthInOut.toNat
        ∧ (cmd .consumer 0x21).ops.len.toNat - 14 ≤ RegionStore.size (sendPending 1).driver (answer 1).bufPtr) :=
  ⟨⟨rfl, rfl, rfl, rfl, rfl, rfl⟩, by decide, by decide, by decide⟩

theorem sending_sendConsistent : (sending .copy 1).sendConsistent := by
  unfold State.sendConsistent
  decide

theorem sendPending_sendConsistent : (sendPending 1).sendConsistent := by
  unfold State.sendConsistent
  decide

/-- The step that leaves IDLE, and the COPY step. -/
theorem witness_RequestsAreIssuedOncePerSend :
    (∃ (t : State) (r : DriverRequest), step (sendPending 1) = .next t ∧ t.driverRequest = some r ∧ (sendPending 1).driverRequest ≠ some r
        ∧ (sendPending 1).sendConsistent)
      ∧ (∃ (t : State) (r : DriverRequest), step (sending .copy 1) = .next t ∧ t.driverRequest = some r ∧ (sending .copy 1).driverRequest ≠ some r
        ∧ (sending .copy 1).sendConsistent)
      ∧ (∃ t : State, step (sending .reconcile 0) = .next t ∧ t.eth.fsm = .idle)
      ∧ ∀ c : Choice, (sending .reconcile 0).choose (sending .reconcile 0).inputs = some c → c.chosen ≠ .powerUp :=
  ⟨⟨_, _, rfl, rfl, by decide, sendPending_sendConsistent⟩,
    ⟨_, _, rfl, rfl, by decide, sending_sendConsistent⟩, ⟨_, rfl, rfl⟩,
    fun _ h => absurd h (by simp [sending, ready, up, State.initial, State.choose])⟩

theorem witness_ContextFaultExactlyWhereNotPermitted :
    (by_ .consumer full).faulted = none ∧ ((by_ .consumer full).rb[(by_ .consumer full).port.port]?).isSome = true
      ∧ permitted .rbPop .consumer 0 (by_ .consumer full).cs = false ∧ permitted .rbPop .consumer 0 (inCs full).cs = true
      ∧ (noPort.faulted = none ∧ noPort.rb[noPort.port.port]? = none
        ∧ ¬ (Instr.ethtxSend.op = .rbInit ∨ Instr.ethtxSend.op = .rbPush ∨ Instr.ethtxSend.op = .rbPop
          ∨ Instr.ethtxSend.op = .rbDrops)) := by
  decide

/-- A faulting operation, a faulting COPY step, and a faulted state. -/
theorem witness_FaultStopsTheBlockUntilPowerUp_raise :
    (∃ t : State, exec .rbInit (by_ .startup full) = .next t ∧ (by_ .startup full).faulted = none
        ∧ t.faulted = some (.reinit (.rb 0)))
      ∧ (∃ t : State, takeInput .internal copyNoRegion = .next t ∧ copyNoRegion.faulted = none
        ∧ t.faulted = some (.driverRegion 0 1))
      ∧ (∃ t : State, takeInput (.command { up.port with word := 0 }) up = .next t ∧ up.faulted = none
        ∧ t.faulted = some (.illegalCmd 0))
      ∧ (full.ended = false ∧ ({ full with faulted := some (.reinit .can) } : State).faulted = some (.reinit .can))
      ∧ Input.powerUp ∉ full.inputs :=
  ⟨⟨_, rfl, rfl, rfl⟩, ⟨_, rfl, rfl, rfl⟩, ⟨_, rfl, rfl, rfl⟩, ⟨rfl, rfl⟩, by decide⟩

/-- A faulted `full` with a power-up pending behind a command. -/
def faultedWithPower : State :=
  { full with faulted := some (.reinit .can), inputs := [.csEnter, .powerUp, .csExit] }

theorem witness_FaultStopsTheBlockUntilPowerUp_powerUp :
    ∃ t : State, step faultedWithPower = .next t ∧ faultedWithPower.faulted = some (.reinit .can) := ⟨_, rfl, rfl⟩

/-- The power-up is the step chosen there, and the run is over after it. -/
theorem witness_FaultStopsTheBlockUntilPowerUp_ended :
    ∃ (c : Choice) (t : State), faultedWithPower.choose faultedWithPower.inputs = some c ∧ c.chosen = .powerUp
      ∧ step faultedWithPower = .next t ∧ t.ended = true := ⟨_, _, rfl, rfl, rfl, rfl⟩

/-- A result, a fault, and the send that leaves IDLE. -/
theorem witness_OutcomesAreInTheTable :
    (∃ t : State, exec .rbPush (by_ isr full) = .next t ∧ (by_ isr full).faulted = none ∧ t.faulted = none)
      ∧ (∃ t : State, exec .rbPush (by_ isr up) = .next t ∧ t.faulted = some (.uninit (.rb 0)))
      ∧ ∃ t : State, exec .ethtxSend (by_ .consumer up) = .next t ∧ t.resp = none ∧ t.faulted = none :=
  ⟨⟨_, rfl, rfl, rfl⟩, ⟨_, rfl, rfl⟩, ⟨_, rfl, rfl, rfl⟩⟩

theorem witness_ResponsesCarryTheirData :
    ∃ (t : State) (r : Response), exec .rbPop (inCs full) = .next t ∧ t.resp = some r ∧ r.data = .record [0xB] := ⟨_, _, rfl, rfl, rfl⟩

theorem witness_ResultCodesAreTheTable :
    ∃ (t : State) (r : Response), step (sending .reconcile 0) = .next t ∧ t.resp = some r ∧ r.result = .bufferAcquireFailed :=
  ⟨_, _, rfl, rfl, rfl⟩

/-- A next state of an operation that is no send, and of a send. -/
theorem witness_CommandsLeaveRegionsAndOtherStateAlone :
    (∃ t : State, exec (.canrxRead 0) (inCs full) = .next t) ∧ ∃ t : State, exec .ethtxSend (by_ .consumer up) = .next t :=
  ⟨⟨_, rfl⟩, ⟨_, rfl⟩⟩

theorem witness_OperationsTouchOnlyTheirInstance :
    (∃ t : State, exec .rbPop (inCs full) = .next t) ∧ (∃ t : State, exec .canrxInit (by_ .startup up) = .next t)
      ∧ ∃ t : State, exec (.canrxWrite 0) (by_ (isrCan .can0) ready) = .next t ∧ (0 : Byte).toNat ≠ Controller.can1.number :=
  ⟨⟨_, rfl⟩, ⟨_, rfl⟩, ⟨_, rfl, by decide⟩⟩

/-- The slot 0 of `can.buf[0]` after a result. -/
def slotAfter (r : Result) : Slot CanFrame :=
  ((nextOf r).can.buf0.slots[0]?).getD { valid := false, data := emptyFrame }

/-- A write makes slot 0 Valid, a read makes it Invalid. -/
theorem witness_ValidFlagsChangeOnlyByTheirOperation_can :
    (∃ (t : State) (x y : Slot CanFrame), exec (.canrxWrite 0) (by_ (isrCan .can0) ready) = .next t ∧ (ready.can.buf .can0).slots[0]? = some x
        ∧ (t.can.buf .can0).slots[0]? = some y ∧ x.valid = false ∧ y.valid = true)
      ∧ ∃ (t : State) (x y : Slot CanFrame), exec (.canrxRead 0) (inCs full) = .next t ∧ (full.can.buf .can0).slots[0]? = some x
        ∧ (t.can.buf .can0).slots[0]? = some y ∧ x.valid = true ∧ y.valid = false :=
  ⟨⟨_, { valid := false, data := CanFrame.powerUp small }, slotAfter (exec (.canrxWrite 0) (by_ (isrCan .can0) ready)),
      eq_nextOf (by decide), by decide, rfl, by decide, by decide⟩,
    ⟨_, { valid := true, data := emptyFrame }, slotAfter (exec (.canrxRead 0) (inCs full)),
      eq_nextOf (by decide), by decide, rfl, by decide, by decide⟩⟩

/-- A push of a generic instance sets its slot, a pop clears it, and a step that is no power-up runs a push. -/
theorem witness_ValidFlagsChangeOnlyByTheirOperation_rb :
    (∃ (t : State) (b b' : RingBuffer Record) (x y : Slot Record), exec .rbPush (by_ isr ready) = .next t
        ∧ ready.rb[0]? = some b ∧ t.rb[0]? = some b' ∧ b.slots[0]? = some x ∧ b'.slots[0]? = some y
        ∧ x.valid = false ∧ y.valid = true)
      ∧ (∃ (t : State) (b b' : RingBuffer Record) (x y : Slot Record), exec .rbPop (inCs full) = .next t
        ∧ full.rb[0]? = some b ∧ t.rb[0]? = some b' ∧ b.slots[b.rd]? = some x ∧ b'.slots[b.rd]? = some y
        ∧ x.valid = true ∧ y.valid = false)
      ∧ (∃ t : State, step (pending (cmd isr 2)) = .next t ∧ t.rb ≠ (pending (cmd isr 2)).rb)
      ∧ ∀ c : Choice, (pending (cmd isr 2)).choose (pending (cmd isr 2)).inputs = some c → c.chosen ≠ .powerUp :=
  ⟨⟨_, _, _, _, _, rfl, rfl, rfl, rfl, rfl, rfl, rfl⟩, ⟨_, _, _, _, _, rfl, rfl, rfl, rfl, rfl, rfl, rfl⟩,
    ⟨_, rfl, by decide⟩, fun c h => by
      rw [witness_StepRunsTheDecodedCommand.1] at h
      obtain rfl := Option.some.inj h
      exact Input.noConfusion⟩

/-- RB.INIT and CANRX.INIT change a phase; a push at a READY instance is a step that is no power-up. -/
theorem witness_PhaseMovesOnlyFromUninitToReady :
    (∃ (t : State) (b b' : RingBuffer Record), exec .rbInit (by_ .startup up) = .next t ∧ up.rb[0]? = some b ∧ t.rb[0]? = some b' ∧ b'.phase ≠ b.phase)
      ∧ (∃ t : State, exec .canrxInit (by_ .startup up) = .next t ∧ (t.can.buf .can1).phase ≠ (up.can.buf .can1).phase)
      ∧ (∃ t : State, step (pending (cmd isr 2)) = .next t) ∧ (∀ c : Choice, (pending (cmd isr 2)).choose (pending (cmd isr 2)).inputs = some c →
          c.chosen ≠ .powerUp) ∧ ((pending (cmd isr 2)).can.buf .can0).phase = .ready :=
  ⟨⟨_, _, _, rfl, rfl, rfl, by decide⟩, ⟨_, rfl, by decide⟩, ⟨_, rfl⟩,
    fun c h => by
      rw [witness_StepRunsTheDecodedCommand.1] at h
      obtain rfl := Option.some.inj h
      exact Input.noConfusion, rfl⟩

theorem witness_CallerRegionsAreNeverWritten :
    (∃ t : State, step (sending .copy 1) = .next t) ∧ ∀ (c : Choice) (ref : Nat) (bytes : List Byte),
      (sending .copy 1).choose (sending .copy 1).inputs = some c → c.chosen ≠ .lendCaller ref bytes :=
  ⟨⟨_, rfl⟩, fun _ _ _ h => absurd h (by simp [sending, ready, up, State.initial, State.choose])⟩

/-- A send in progress, with the lends of its frame image and of another region pending: a next state, where the other
region is the one lent. -/
theorem witness_CallerRegionsAreNeverWritten_send :
    ∃ t : State, step { sending .acquire 1 with inputs := [.lendCaller 0 [9], .lendCaller 1 [9]] } = .next t
      ∧ (sending .acquire 1).eth.fsm ≠ .idle ∧ t.eth.fsm ≠ .idle
      ∧ t.caller = [Region.ofBytes f15, Region.ofBytes [9]] := ⟨_, rfl, by decide, by decide, by decide⟩

theorem witness_DriverRegionsAreWrittenOnlyByCopy :
    ∃ t : State, (sending .copy 1).storesWf ∧ step (sending .copy 1) = .next t
      ∧ (∀ (c : Choice) (bytes : List Byte), (sending .copy 1).choose (sending .copy 1).inputs = some c →
          c.chosen ≠ .lendDriver 0 bytes)
      ∧ RegionStore.byte? t.driver 0 0 ≠ RegionStore.byte? (sending .copy 1).driver 0 0 :=
  ⟨_, sending_storesWf _ _, rfl, fun _ _ h => absurd h (by simp [sending, ready, up, State.initial, State.choose]),
    by decide⟩

/-- Inside the critical section a send is chosen before the PRODUCER's command that waits. -/
theorem witness_CriticalSectionMasksEveryProducer :
    ∃ c : Choice, ({ ready with cs := true, inputs := [.command (cmd isr 2), .command (cmd .consumer 0x21)] } : State).choose
        [.command (cmd isr 2), .command (cmd .consumer 0x21)] = some c
      ∧ c.chosen = .command (cmd .consumer 0x21) := ⟨_, rfl, rfl⟩

/-- A command of each agent is chosen: STARTUP's before the loop, a PRODUCER's outside the critical section, the
CONSUMER's outside a send; the push of a PRODUCER that there is not waits. -/
theorem witness_OnlyAgentsThatMayStepAreTaken :
    (∃ c : Choice, up.choose [.command (cmd (.producer (.rb 1)) 2), .command (cmd .startup 1)] = some c
        ∧ c.chosen = .command (cmd .startup 1))
      ∧ (∃ c : Choice, (sending .acquire 1).choose [.command (cmd .consumer 0x21), .command (cmd isr 2)] = some c
        ∧ c.chosen = .command (cmd isr 2))
      ∧ ∃ c : Choice, (inCs full).choose [.command (cmd isr 2), .command (cmd .consumer 3)] = some c
        ∧ c.chosen = .command (cmd .consumer 3) := ⟨⟨_, rfl, rfl⟩, ⟨_, rfl, rfl⟩, ⟨_, rfl, rfl⟩⟩

/-- The CONSUMER's first step, by CS_ENTER and by a command; and a step after it with instances still UNINIT. -/
theorem witness_StartupIsLeftForGood :
    (∃ (t : State) (c : Choice), ({ up with inputs := [.csEnter] } : State).choose [.csEnter] = some c
        ∧ step { up with inputs := [.csEnter] } = .next t ∧ c.chosen = .csEnter)
      ∧ (∃ (t : State) (c : Choice), (pending (cmd .consumer 0x21)).choose (pending (cmd .consumer 0x21)).inputs = some c
        ∧ step (pending (cmd .consumer 0x21)) = .next t ∧ c.chosen = .command (cmd .consumer 0x21))
      ∧ ∃ t : State, step { up with task := .consumer } = .next t
        ∧ (∀ c : Choice, ({ up with task := .consumer } : State).choose up.inputs = some c → c.chosen ≠ .powerUp)
        ∧ (up.can.buf .can0).phase = .uninit :=
  ⟨⟨_, _, rfl, rfl, rfl⟩, ⟨_, _, rfl, rfl, rfl⟩, _, rfl,
    fun _ h => absurd h (by simp [up, State.initial, State.choose]), rfl⟩

/-- While a send waits for the driver, a PRODUCER's command is chosen. -/
theorem witness_ConsumerWaitsForItsSend :
    ∃ (c : Choice) (t : State), ({ sending .acquire 1 with inputs := [.csEnter, .command (cmd isr 2)] } : State).choose
        [.csEnter, .command (cmd isr 2)] = some c
      ∧ (sending .acquire 1).eth.fsm ≠ .idle
      ∧ step { sending .acquire 1 with inputs := [.csEnter, .command (cmd isr 2)] } = .next t
      ∧ c.chosen = .command (cmd isr 2) := ⟨_, _, rfl, by decide, rfl, rfl⟩

theorem witness_SendWaitsOnlyForTheDriver (f : EthFsm) :
    (sending f 1).ended = false ∧ (sending f 1).faulted = none ∧ (sending f 1).choose (sending f 1).inputs = none
      ∧ (sending f 1).eth.fsm = f :=
  ⟨rfl, rfl, rfl, rfl⟩

/-- A permitted push, read and send right after power-up. -/
theorem witness_OperationsBeforeInitFault :
    (permitted .rbPush (cmd isr 2).issuer (cmd isr 2).port false = true ∧ (cmd isr 2).port < small.rb.length)
      ∧ permitted (.canrxRead 1) .consumer 0 true = true
      ∧ permitted (.canrxWrite 1) (isrCan .can1) 0 false = true
      ∧ (permitted .ethtxSend (cmd .consumer 0x21).issuer 0 false = true ∧ 14 < (cmd .consumer 0x21).ops.len.toNat
        ∧ (cmd .consumer 0x21).ops.len.toNat ≤ RegionStore.size up.caller (cmd .consumer 0x21).ops.frame) := by decide

theorem witness_PowerUpForgetsTheBlock :
    full.ended = false ∧ ({ full with inputs := [.powerUp, .csEnter] } : State).inputs = .powerUp :: [.csEnter] := ⟨rfl, rfl⟩

/-- A push into a READY instance is a step from a state with its shape and its rings sound. -/
theorem witness_EveryStepKeepsTheOccupancy :
    ∃ t : State, (pending (cmd isr 2)).shapeFixed ∧ (pending (cmd isr 2)).ringsSound ∧ step (pending (cmd isr 2)) = .next t :=
  ⟨_, ⟨by decide, by decide, by decide, by decide⟩, ready_ringsSound, rfl⟩

theorem witness_EveryStepKeepsTheShape :
    ∃ t : State, ({ full with inputs := [.command (cmd .consumer 4)] } : State).shapeFixed
      ∧ step { full with inputs := [.command (cmd .consumer 4)] } = .next t :=
  ⟨_, ⟨by decide, by decide, by decide, by decide⟩, rfl⟩

theorem witness_EveryStepKeepsTheRegionsCanonical :
    ∃ t : State, (sending .copy 1).storesWf ∧ step (sending .copy 1) = .next t := ⟨_, sending_storesWf _ _, rfl⟩

theorem witness_EveryStepKeepsTheSendConsistent :
    ∃ t : State, (sending .copy 1).sendConsistent ∧ step (sending .copy 1) = .next t := ⟨_, sending_sendConsistent, rfl⟩

theorem witness_EveryStepKeepsTheFramesWellFormed :
    ∃ t : State, ({ full with inputs := [.command (cmd (isrCan .can1) 0x112)] } : State).framesWellFormed
      ∧ step { full with inputs := [.command (cmd (isrCan .can1) 0x112)] } = .next t :=
  ⟨_, fun c _ => by cases c <;> decide, rfl⟩

theorem witness_EveryStepKeepsTheRecordSize :
    ∃ t : State, (pending (cmd isr 2)).recordsSized ∧ step (pending (cmd isr 2)) = .next t := by
  refine ⟨_, ⟨by decide, fun i b q hb hq sl hsl => ?_⟩, rfl⟩
  match i with
  | 0 =>
    obtain rfl := Option.some.inj hb
    obtain rfl := Option.some.inj hq
    revert sl
    decide
  | i + 1 => exact absurd hb (by simp [pending, ready, up, State.initial, RingBuffer.powerUpAll, small])

/-- The CONSUMER's first step leaves the initialisation code, and a STARTUP command stays in it. -/
theorem witness_EveryStepKeepsTheTaskOrder :
    (∃ t : State, ({ up with inputs := [.csEnter] } : State).taskOrder ∧ step { up with inputs := [.csEnter] } = .next t
        ∧ t.task = .consumer ∧ t.cs = true)
      ∧ ∃ t : State, (pending (cmd .startup 4)).taskOrder ∧ step (pending (cmd .startup 4)) = .next t
        ∧ t.task = .startup :=
  ⟨⟨_, fun _ => ⟨rfl, rfl⟩, rfl, rfl, rfl⟩, _, fun _ => ⟨rfl, rfl⟩, rfl, rfl⟩

theorem witness_InvariantsHoldAtPowerUp : small.wellFormed = true := by decide

/-- A sound block, which steps; and with a pop at a port of no instance, which is refused. -/
theorem witness_SoundBlockNeverGetsStuck :
    (full.ended = false ∧ full.faulted = none ∧ full.ringsSound)
      ∧ step { full with inputs := [.command { cmd .consumer 3 with port := 1 }] } = .refused (.noSuchPort 1) :=
  ⟨⟨rfl, rfl, full_ringsSound⟩, rfl⟩

/-- At the end of a run a region may still be lent. -/
theorem witness_EndOfRunIsQuiet :
    ∃ t : State, ({ full with inputs := [.lendCaller 0 [1]] } : State).endOfRun
      ∧ Input.powerUp ∉ ({ full with inputs := [.lendCaller 0 [1]] } : State).inputs
      ∧ step { full with inputs := [.lendCaller 0 [1]] } = .next t :=
  ⟨_, ⟨rfl, rfl, rfl, rfl, by decide⟩, by decide, rfl⟩

/-- The same with nothing pending at all. -/
theorem witness_EndOfRunIsQuiet_regions :
    ∃ t : State, full.endOfRun ∧ step full = .next t ∧ ∀ (c : Choice) (ref : Nat) (bytes : List Byte),
      full.choose full.inputs = some c → c.chosen ≠ .lendCaller ref bytes ∧ c.chosen ≠ .lendDriver ref bytes :=
  ⟨_, ⟨rfl, rfl, rfl, rfl, by decide⟩, rfl,
    fun _ _ _ h => absurd h (by simp [full, ready, up, State.initial, State.choose])⟩

end Sys2Proof.Tests
end

section
/-! SUPPORT. The fields of a command word as numbers, the opcode map read both ways, and when decoding refuses. -/

namespace Sys2Proof

/-! ### The fields of a word as quotients and remainders -/

theorem Word.opField_toNat (w : Word) : (Word.opField w).toNat = w.toNat % 256 := by
  simp [Word.opField, BitVec.extractLsb'_toNat]

theorem Word.tgtField_toNat (w : Word) : (Word.tgtField w).toNat = w.toNat / 256 % 256 := by
  simp [Word.tgtField, BitVec.extractLsb'_toNat, Nat.shiftRight_eq_div_pow]

/-- The reserved half is the top of the word, so the quotient needs no remainder. -/
theorem Word.rsvField_toNat (w : Word) : (Word.rsvField w).toNat = w.toNat / 65536 := by
  have hw : w.toNat < 4294967296 := w.isLt
  simp only [Word.rsvField, BitVec.extractLsb'_toNat, Nat.shiftRight_eq_div_pow]
  omega

theorem Word.tgtField_eq_zero_iff (w : Word) : Word.tgtField w = 0 ↔ w.toNat / 256 % 256 = 0 := by
  rw [← BitVec.toNat_inj, Word.tgtField_toNat]; rfl

theorem Word.rsvField_eq_zero_iff (w : Word) : Word.rsvField w = 0 ↔ w.toNat / 65536 = 0 := by
  rw [← BitVec.toNat_inj, Word.rsvField_toNat]; rfl

/-! ### The opcode map -/

@[simp] theorem Op.ofCode_code (op : Op) : Op.ofCode op.code = some op := by cases op <;> rfl

theorem Op.code_of_ofCode {c : Byte} {op : Op} (h : Op.ofCode c = some op) : op.code = c := by
  unfold Op.ofCode at h
  split_ifs at h <;> cases h <;> exact Eq.symm ‹_›

theorem Op.ofCode_eq_some_iff {c : Byte} {op : Op} : Op.ofCode c = some op ↔ op.code = c :=
  ⟨Op.code_of_ofCode, fun h => h ▸ Op.ofCode_code op⟩

/-- The nine operations, in the order of R73. -/
def Op.all : List Op :=
  [.rbInit, .rbPush, .rbPop, .rbDrops, .canrxInit, .canrxWrite, .canrxRead, .canrxDrops, .ethtxSend]

theorem Op.mem_all (op : Op) : op ∈ Op.all := by cases op <;> decide

/-- The operation codes of the operations that `p` selects, as numbers. -/
def Op.codesWhere (p : Op → Bool) : List Nat := (Op.all.filter p).map fun op => op.code.toNat

theorem Op.toNat_mem_codesWhere_iff (p : Op → Bool) (c : Byte) :
    c.toNat ∈ Op.codesWhere p ↔ ∃ op, Op.ofCode c = some op ∧ p op = true := by
  simp only [Op.codesWhere, List.mem_map, List.mem_filter, Op.mem_all, true_and, BitVec.toNat_inj,
    Op.ofCode_eq_some_iff, and_comm]

theorem Op.ofCode_eq_none_iff (c : Byte) : Op.ofCode c = none ↔ c.toNat ∉ Op.codesWhere fun _ => true := by
  simp [Op.toNat_mem_codesWhere_iff, Option.eq_none_iff_forall_ne_some]

/-- The nine operation codes of R73. -/
theorem Op.codesWhere_true :
    (Op.codesWhere fun _ => true) = [0x01, 0x02, 0x03, 0x04, 0x11, 0x12, 0x13, 0x14, 0x21] := rfl

/-- The codes of the six operations of R74 (c). -/
theorem Op.codesWhere_takesNoTarget :
    Op.codesWhere Op.takesNoTarget = [0x01, 0x02, 0x03, 0x04, 0x11, 0x21] := rfl

/-! ### When a word is refused -/

theorem decode_of_rsvField_ne_zero {w : Word} (hr : Word.rsvField w ≠ 0) :
    decode w = .error (.reservedNotZero w) := if_pos hr

theorem decode_of_unassigned {w : Word} (hr : Word.rsvField w = 0) (ho : Op.ofCode (Word.opField w) = none) :
    decode w = .error (.unassignedOp w) := by
  simp only [decode, hr, ho, ne_eq, not_true_eq_false, if_false]

theorem decode_of_assigned {w : Word} {op : Op} (hr : Word.rsvField w = 0)
    (ho : Op.ofCode (Word.opField w) = some op) :
    decode w = if op.takesNoTarget = true ∧ Word.tgtField w ≠ 0 then .error (.targetNotZero w)
      else .ok (op.toInstr (Word.tgtField w)) := by
  simp only [decode, hr, ho, ne_eq, not_true_eq_false, if_false]

/-- The three grounds of R74, on the fields of the word. -/
theorem decode_error_iff (w : Word) :
    (∃ e, decode w = .error e) ↔
      Word.rsvField w ≠ 0 ∨ Op.ofCode (Word.opField w) = none
        ∨ ((∃ op, Op.ofCode (Word.opField w) = some op ∧ op.takesNoTarget = true) ∧ Word.tgtField w ≠ 0) := by
  by_cases hr : Word.rsvField w = 0
  case neg => exact iff_of_true ⟨_, decode_of_rsvField_ne_zero hr⟩ (.inl hr)
  cases ho : Op.ofCode (Word.opField w) with
  | none => exact iff_of_true ⟨_, decode_of_unassigned hr ho⟩ (.inr (.inl rfl))
  | some op =>
    rw [decode_of_assigned hr ho]
    by_cases ht : op.takesNoTarget = true ∧ Word.tgtField w ≠ 0
    · rw [if_pos ht]
      exact iff_of_true ⟨_, rfl⟩ (.inr (.inr ⟨⟨op, rfl, ht.1⟩, ht.2⟩))
    · rw [if_neg ht]
      simpa [hr] using ht

/-- The three grounds of R74, on the word's value. -/
theorem decode_error_iff_toNat (w : Word) :
    (∃ e, decode w = .error e) ↔
      w.toNat / 65536 ≠ 0
        ∨ w.toNat % 256 ∉ [0x01, 0x02, 0x03, 0x04, 0x11, 0x12, 0x13, 0x14, 0x21]
        ∨ (w.toNat % 256 ∈ [0x01, 0x02, 0x03, 0x04, 0x11, 0x21] ∧ w.toNat / 256 % 256 ≠ 0) := by
  rw [decode_error_iff, Op.ofCode_eq_none_iff, ← Op.toNat_mem_codesWhere_iff, Op.codesWhere_true,
    Op.codesWhere_takesNoTarget, Word.opField_toNat, ne_eq, ne_eq, Word.rsvField_eq_zero_iff,
    Word.tgtField_eq_zero_iff]

namespace Machine

/-- Presenting a refused word raises F_ILLEGAL_CMD with the word, whatever the ground (R74, R171). -/
theorem runCommand_of_decode_error {c : Command} {e : DecodeError} (s : State) (h : decode c.word = .error e) :
    runCommand c s = .next (({ s with port := c } : State).raise (.illegalCmd c.word)) := by
  simp [runCommand, h]

end Machine

/-- Settles O3: the refusal is `decode_error_iff_toNat`, the effect `runCommand_of_decode_error`. -/
theorem illegalWordsRaiseIllegalCmd : Obligations.IllegalWordsRaiseIllegalCmd := by
  intro w
  refine ⟨decode_error_iff_toNat w, ?_⟩
  rintro c s rfl ⟨e, he⟩
  exact Machine.runCommand_of_decode_error s he

end Sys2Proof
end

section
/-! SUPPORT. RB.INIT, RB.POP and RB.DROPS read forwards: the outcome of each branch of the rule (R100, R102, R103) at
the port of an instance. -/

namespace Sys2Proof.Machine

/-! ### What a pop of each kind of slot gives (R102) -/

theorem RingBuffer.pop_of_invalid {α : Type} {b : RingBuffer α} {sl : Slot α} (hs : b.slots[b.rd]? = some sl)
    (hv : sl.valid = false) : b.pop = some (none, b) := by
  simp [RingBuffer.pop, hs, hv]

theorem RingBuffer.pop_of_valid {α : Type} {b : RingBuffer α} {sl : Slot α} (hs : b.slots[b.rd]? = some sl)
    (hv : sl.valid = true) :
    b.pop = some (some sl.data, { b.markInvalid b.rd sl with rd := incMod b.capacity b.rd }) := by
  simp [RingBuffer.pop, hs, hv]

/-- A response goes to the agent at the command port (R77). -/
theorem State.done_of_issuer {s : State} {a : Issuer} (ha : s.port.issuer = a) (r : ResultCode) (d : RespData) :
    s.done r d = .next { s with resp := some { agent := a, result := r, data := d } } := by
  rw [State.done, State.respond, ha]

/-! ### The branches of each operation -/

section Branches

variable {s : State} {b : RingBuffer Record} (hb : s.portBuffer? = some b)

include hb

theorem exec_rbInit_of_ctx_ne (hc : s.ctx ≠ .startup) : exec .rbInit s = s.fail (s.contextFault .rbInit) := by
  simp [exec, execRbInit, hb, hc]

theorem exec_rbInit_of_ready (hc : s.ctx = .startup) (hp : b.phase = .ready) :
    exec .rbInit s = s.fail (.reinit (.rb s.port.port)) := by
  simp [exec, execRbInit, hb, hc, hp]

theorem exec_rbInit_of_uninit (hc : s.ctx = .startup) (hp : b.phase = .uninit) :
    exec .rbInit s = (s.setPortBuffer b.init).done .ok .none := by
  simp [exec, execRbInit, hb, hc, hp]

theorem exec_rbPop_of_outside (hc : s.ctx ≠ .consumer ∨ s.cs = false) :
    exec .rbPop s = s.fail (s.contextFault .rbPop) := by
  simp [exec, execRbPop, hb, hc]

theorem exec_rbPop_of_uninit (hc : s.ctx = .consumer) (hcs : s.cs = true) (hp : b.phase = .uninit) :
    exec .rbPop s = s.fail (.uninit (.rb s.port.port)) := by
  simp [exec, execRbPop, hb, hc, hcs, hp]

theorem exec_rbPop_of_pop_none (hc : s.ctx = .consumer) (hcs : s.cs = true) (hp : b.phase = .ready)
    {b' : RingBuffer Record} (hpop : b.pop = some (none, b')) : exec .rbPop s = s.done .bufferEmpty .none := by
  simp [exec, execRbPop, hb, hc, hcs, hp, hpop]

theorem exec_rbPop_of_pop_some (hc : s.ctx = .consumer) (hcs : s.cs = true) (hp : b.phase = .ready)
    {v : Record} {b' : RingBuffer Record} (hpop : b.pop = some (some v, b')) :
    exec .rbPop s = (s.setPortBuffer b').done .ok (.record v) := by
  simp [exec, execRbPop, hb, hc, hcs, hp, hpop]

theorem exec_rbDrops_of_uninit (hp : b.phase = .uninit) : exec .rbDrops s = s.fail (.uninit (.rb s.port.port)) := by
  simp [exec, execRbDrops, hb, hp]

theorem exec_rbDrops_of_ready (hp : b.phase = .ready) : exec .rbDrops s = s.done .ok (.count b.drops) := by
  simp [exec, execRbDrops, hb, hp]

end Branches

end Sys2Proof.Machine

namespace Sys2Proof

open Machine

/-- Settles O7: one branch of RB.INIT per clause; the instance INIT leaves is `RingBuffer.init`, written out. -/
theorem rbInitFollowsItsRule : Obligations.RbInitFollowsItsRule := by
  refine ⟨rfl, fun s b hb => ⟨exec_rbInit_of_ctx_ne hb, exec_rbInit_of_ready hb, fun hc hp => ?_⟩⟩
  rw [exec_rbInit_of_uninit hb hc hp]
  exact State.done_of_issuer (s := s.setPortBuffer b.init) (State.ctx_eq_startup.mp hc) _ _

/-- Settles O9: one branch of RB.POP per clause; on a READY instance the slot at `rd` decides what the pop gives. -/
theorem rbPopFollowsItsRule : Obligations.RbPopFollowsItsRule := by
  refine ⟨rfl, fun s b hb => ⟨exec_rbPop_of_outside hb, exec_rbPop_of_uninit hb, fun sl hc hcs hp hs => ?_⟩⟩
  have hissuer : s.port.issuer = .consumer := State.ctx_eq_consumer.mp hc
  constructor <;> intro hv
  · rw [exec_rbPop_of_pop_none hb hc hcs hp (RingBuffer.pop_of_invalid hs hv)]
    exact State.done_of_issuer hissuer _ _
  · rw [exec_rbPop_of_pop_some hb hc hcs hp (RingBuffer.pop_of_valid hs hv)]
    exact State.done_of_issuer (s := s.setPortBuffer _) hissuer _ _

/-- Settles O10: the phase alone decides, so the issuing agent enters only as the one the response goes to. -/
theorem rbDropsFollowsItsRule : Obligations.RbDropsFollowsItsRule :=
  ⟨rfl, fun _ _ hb => ⟨exec_rbDrops_of_uninit hb, exec_rbDrops_of_ready hb⟩⟩

end Sys2Proof
end

section
/-! SUPPORT. The CanRxDemux operations read forwards: the outcome of each branch of CANRX.INIT, CANRX.WRITE,
CANRX.READ and CANRX.DROPS (R120, R122 to R124), and the frame a write stores (R121, R122). -/

namespace Sys2Proof

/-- The command word of an operation with a target, as R70 places the fields: the target one byte above the code. -/
theorem append_fields_eq_or (t o : Byte) :
    (0#16 ++ t) ++ o = o.zeroExtend 32 ||| (t.zeroExtend 32 <<< 8) := by
  ext k hk
  simp only [BitVec.getElem_append, BitVec.getElem_or, BitVec.getElem_shiftLeft, BitVec.truncate_eq_setWidth,
    BitVec.getElem_setWidth]
  by_cases h8 : k < 8
  · simp [h8]
  have ho : o.getLsbD k = false := o.getLsbD_of_ge k (Nat.not_lt.mp h8)
  by_cases h16 : k - 8 < 8
  · simp [h8, h16, ho]
  · simp [h8, h16, ho, t.getLsbD_of_ge (k - 8) (Nat.not_lt.mp h16)]

namespace Machine

/-! ### Targets, and what a write stores -/

theorem Controller.ofTgt_of_toNat {tgt : Byte} {c : Controller} (h : tgt.toNat = c.number) :
    Controller.ofTgt tgt = some c := by
  rw [Controller.ofTgt_eq_some, ← h, BitVec.ofNat_toNat, BitVec.setWidth_eq]

theorem Controller.toNat_of_ofTgt {tgt : Byte} {c : Controller} (h : Controller.ofTgt tgt = some c) :
    tgt.toNat = c.number := by
  rw [(Controller.ofTgt_eq_some tgt c).mp h]
  cases c <;> rfl

/-- The targets 2 to 255 name no controller (R28, R71). -/
theorem Controller.ofTgt_of_two_le {tgt : Byte} (h : 2 ≤ tgt.toNat) : Controller.ofTgt tgt = none := by
  refine Option.eq_none_iff_forall_ne_some.mpr fun c hc => ?_
  have hn := Controller.toNat_of_ofTgt hc
  cases c <;> simp only [Controller.number] at hn <;> omega

/-- R121 on bit `k`; above bit 31 both sides are 0. -/
theorem normalise_getLsbD (mask raw : Word) (k : Nat) :
    (normalise mask raw).getLsbD k = (raw.getLsbD k && !mask.getLsbD k) := by
  rw [normalise, BitVec.getLsbD_and, BitVec.getLsbD_not]
  by_cases hk : k < 32
  · simp [hk]
  · simp [BitVec.getLsbD_of_ge raw k (Nat.not_lt.mp hk)]

@[simp] theorem length_freeBytes (c : Controller) (k n : Nat) : (freeBytes c k n).length = n := by
  induction n generalizing k with
  | zero => rfl
  | succ n ih => simp [freeBytes, ih]

section Record

variable {s : State} {c : Controller} {rawId : Word} {length : Byte} {bytes : List Byte} {ref : Nat}
  (hm : RegionStore.memRead s.caller ref 0 length.toNat = some bytes)

include hm

/-- The unspecified bytes fill the frame up to `CAN_PAYLOAD_MAX` (D6). -/
theorem State.canRecord_data_length (hl : length.toNat ≤ s.params.canPayloadMax) :
    (s.canRecord c rawId length bytes).data.length = s.params.canPayloadMax := by
  simp only [State.canRecord, State.padding, List.length_append, RegionStore.memRead_length hm, length_freeBytes]
  omega

/-- The first `length` bytes of the frame are the caller's, in order (R51). -/
theorem State.canRecord_data_getElem? {k : Nat} (hk : k < length.toNat) :
    (s.canRecord c rawId length bytes).data[k]? = RegionStore.byte? s.caller ref k := by
  have hb : k < bytes.length := (RegionStore.memRead_length hm).symm ▸ hk
  rw [State.canRecord, List.getElem?_append_left hb, RegionStore.memRead_byte? hm hk, Nat.zero_add]

end Record

/-! ### What a push on each kind of slot gives (R101) -/

theorem RingBuffer.push_of_valid {α : Type} {b : RingBuffer α} {sl : Slot α} (hs : b.slots[b.wr]? = some sl)
    (hv : sl.valid = true) (x : α) : b.push x = some (.bufferFull, { b with drops := b.drops + 1 }) := by
  simp [RingBuffer.push, hs, hv]

theorem RingBuffer.push_of_invalid {α : Type} {b : RingBuffer α} {sl : Slot α} (hs : b.slots[b.wr]? = some sl)
    (hv : sl.valid = false) (x : α) :
    b.push x = some (.ok, { b.markValid b.wr x with wr := incMod b.capacity b.wr }) := by
  simp [RingBuffer.push, hs, hv]

/-! ### The branches of CANRX.INIT -/

section Branches

variable {s : State} {tgt : Byte} {c : Controller}

theorem exec_canrxInit_of_ctx_ne (hc : s.ctx ≠ .startup) :
    exec .canrxInit s = s.fail (s.contextFault .canrxInit) := by
  simp [exec, execCanrxInit, hc]

theorem exec_canrxInit_of_ready (hc : s.ctx = .startup) (hp : s.can.buf0.phase = .ready ∨ s.can.buf1.phase = .ready) :
    exec .canrxInit s = s.fail (.reinit .can) := by
  simp [exec, execCanrxInit, hc, hp]

theorem exec_canrxInit_of_uninit (hc : s.ctx = .startup) (hp0 : s.can.buf0.phase = .uninit)
    (hp1 : s.can.buf1.phase = .uninit) :
    exec .canrxInit s =
      State.done { s with can := { buf0 := s.can.buf0.init, buf1 := s.can.buf1.init } } .ok .none := by
  simp [exec, execCanrxInit, hc, hp0, hp1]

/-! ### The branches of CANRX.WRITE, in the order of its checks -/

theorem exec_canrxWrite_of_ctx_ne (hc : s.ctx ≠ .producer) :
    exec (.canrxWrite tgt) s = s.fail (s.contextFault .canrxWrite) := by
  simp [exec, execCanrxWrite, hc]

theorem exec_canrxWrite_of_unknown (hc : s.ctx = .producer) (ht : Controller.ofTgt tgt = none) :
    exec (.canrxWrite tgt) s = s.done .invalidController .none := by
  simp [exec, execCanrxWrite, hc, ht]

theorem exec_canrxWrite_of_other (ht : Controller.ofTgt tgt = some c) (hi : s.port.issuer ≠ .producer (.can c)) :
    exec (.canrxWrite tgt) s = s.fail (s.contextFault .canrxWrite) := by
  simp [exec, execCanrxWrite, ht, hi]

section Admitted

variable (ht : Controller.ofTgt tgt = some c) (hi : s.port.issuer = .producer (.can c))

include ht hi

theorem exec_canrxWrite_of_uninit (hp : (s.can.buf c).phase = .uninit) :
    exec (.canrxWrite tgt) s = s.fail (.uninit (.canBuf c)) := by
  simp [exec, execCanrxWrite, State.ctx_eq_producer, ht, hi, hp]

theorem exec_canrxWrite_of_tooLong (hp : (s.can.buf c).phase = .ready)
    (hl : s.params.canPayloadMax < s.port.ops.length.toNat) :
    exec (.canrxWrite tgt) s = s.done .malformedFrame .none := by
  simp [exec, execCanrxWrite, State.ctx_eq_producer, ht, hi, hp, hl]

theorem exec_canrxWrite_of_memRead_none (hp : (s.can.buf c).phase = .ready)
    (hl : s.port.ops.length.toNat ≤ s.params.canPayloadMax)
    (hm : RegionStore.memRead s.caller s.port.ops.data 0 s.port.ops.length.toNat = none) :
    exec (.canrxWrite tgt) s = s.fail (.callerRegion s.port.ops.data s.port.ops.length.toNat) := by
  simp [exec, execCanrxWrite, State.ctx_eq_producer, ht, hi, hp, Nat.not_lt.mpr hl, hm]

theorem exec_canrxWrite_of_memRead_some (hp : (s.can.buf c).phase = .ready)
    (hl : s.port.ops.length.toNat ≤ s.params.canPayloadMax) {bytes : List Byte}
    (hm : RegionStore.memRead s.caller s.port.ops.data 0 s.port.ops.length.toNat = some bytes) :
    exec (.canrxWrite tgt) s = s.canPush c bytes := by
  simp [exec, execCanrxWrite, State.ctx_eq_producer, ht, hi, hp, Nat.not_lt.mpr hl, hm]

end Admitted

theorem State.canPush_of_valid {sl : Slot CanFrame} (hs : (s.can.buf c).slots[(s.can.buf c).wr]? = some sl)
    (hv : sl.valid = true) (bytes : List Byte) :
    s.canPush c bytes =
      (s.setCanBuf c { s.can.buf c with drops := (s.can.buf c).drops + 1 }).done .bufferFull .none := by
  simp [State.canPush, RingBuffer.push_of_valid hs hv]

theorem State.canPush_of_invalid {sl : Slot CanFrame} (hs : (s.can.buf c).slots[(s.can.buf c).wr]? = some sl)
    (hv : sl.valid = false) (bytes : List Byte) :
    s.canPush c bytes =
      ((s.setCanBuf c
        { (s.can.buf c).markValid (s.can.buf c).wr (s.canRecord c s.port.ops.rawId s.port.ops.length bytes) with
          wr := incMod (s.can.buf c).capacity (s.can.buf c).wr }).addDraws c
        (s.padding s.port.ops.length)).done .ok .none := by
  simp [State.canPush, RingBuffer.push_of_invalid hs hv]

/-! ### The branches of CANRX.READ -/

theorem exec_canrxRead_of_outside (hc : s.ctx ≠ .consumer ∨ s.cs = false) :
    exec (.canrxRead tgt) s = s.fail (s.contextFault .canrxRead) := by
  simp [exec, execCanrxRead, hc]

section InCs

variable (hc : s.ctx = .consumer) (hcs : s.cs = true)

include hc hcs

theorem exec_canrxRead_of_unknown (ht : Controller.ofTgt tgt = none) :
    exec (.canrxRead tgt) s = s.done .invalidController .none := by
  simp [exec, execCanrxRead, hc, hcs, ht]

theorem exec_canrxRead_of_uninit (ht : Controller.ofTgt tgt = some c) (hp : (s.can.buf c).phase = .uninit) :
    exec (.canrxRead tgt) s = s.fail (.uninit (.canBuf c)) := by
  simp [exec, execCanrxRead, hc, hcs, ht, hp]

theorem exec_canrxRead_of_pop_none (ht : Controller.ofTgt tgt = some c) (hp : (s.can.buf c).phase = .ready)
    {b : RingBuffer CanFrame} (hpop : (s.can.buf c).pop = some (none, b)) :
    exec (.canrxRead tgt) s = s.done .bufferEmpty .none := by
  simp [exec, execCanrxRead, hc, hcs, ht, hp, hpop]

theorem exec_canrxRead_of_pop_some (ht : Controller.ofTgt tgt = some c) (hp : (s.can.buf c).phase = .ready)
    {f : CanFrame} {b : RingBuffer CanFrame} (hpop : (s.can.buf c).pop = some (some f, b)) :
    exec (.canrxRead tgt) s = (s.setCanBuf c b).done .ok (.frame f) := by
  simp [exec, execCanrxRead, hc, hcs, ht, hp, hpop]

end InCs

/-! ### The branches of CANRX.DROPS -/

theorem exec_canrxDrops_of_unknown (ht : Controller.ofTgt tgt = none) :
    exec (.canrxDrops tgt) s = s.done .invalidController .none := by
  simp [exec, execCanrxDrops, ht]

theorem exec_canrxDrops_of_uninit (ht : Controller.ofTgt tgt = some c) (hp : (s.can.buf c).phase = .uninit) :
    exec (.canrxDrops tgt) s = s.fail (.uninit (.canBuf c)) := by
  simp [exec, execCanrxDrops, ht, hp]

theorem exec_canrxDrops_of_ready (ht : Controller.ofTgt tgt = some c) (hp : (s.can.buf c).phase = .ready) :
    exec (.canrxDrops tgt) s = s.done .ok (.count (s.can.buf c).drops) := by
  simp [exec, execCanrxDrops, ht, hp]

end Branches

/-! ### What a write leaves unchanged (R125) -/

/-- The push body replaces the buffer of its own controller and answers Ok or BufferFull. -/
theorem State.canPush_frame {s t : State} {c : Controller} {bytes : List Byte} (h : s.canPush c bytes = .next t) :
    (∃ b, t.can = s.can.setBuf c b)
      ∧ ∃ r, t.resp = some r ∧ r.result ≠ .malformedFrame ∧ r.result ≠ .invalidController := by
  obtain ⟨r, b, -, ⟨-, rfl⟩ | ⟨-, rfl⟩⟩ := State.canPush_next h
  · exact ⟨⟨b, by simp⟩, _, rfl, by simp, by simp⟩
  · exact ⟨⟨b, by simp⟩, _, rfl, by simp, by simp⟩

/-- A write that reaches no push leaves both buffers as they are. -/
theorem exec_canrxWrite_can_or_canPush {s t : State} {tgt : Byte} (h : exec (.canrxWrite tgt) s = .next t) :
    t.can = s.can ∨ ∃ c bytes, Controller.ofTgt tgt = some c ∧ s.canPush c bytes = .next t := by
  obtain ⟨-, rfl⟩ | ⟨p, -, hcase⟩ := execCanrxWrite_next h
  · exact .inl rfl
  obtain ⟨-, rfl⟩ | ⟨c, hc, hcase⟩ := hcase
  · exact .inl rfl
  obtain ⟨-, rfl⟩ | ⟨-, -, rfl⟩ | ⟨-, -, -, rfl⟩ | ⟨-, -, -, ⟨-, rfl⟩ | ⟨bytes, -, hpush⟩⟩ := hcase
  · exact .inl rfl
  · exact .inl rfl
  · exact .inl rfl
  · exact .inl rfl
  · exact .inr ⟨c, bytes, hc, hpush⟩

/-- A write leaves every buffer but its target's as it is. -/
theorem exec_canrxWrite_buf_other {s t : State} {tgt : Byte} {d : Controller}
    (h : exec (.canrxWrite tgt) s = .next t) (hd : tgt.toNat ≠ d.number) : t.can.buf d = s.can.buf d := by
  obtain hcan | ⟨c, bytes, hc, hpush⟩ := exec_canrxWrite_can_or_canPush h
  · rw [hcan]
  · obtain ⟨⟨b, hb⟩, -⟩ := State.canPush_frame hpush
    have hdc : d ≠ c := fun e => hd (e ▸ Controller.toNat_of_ofTgt hc)
    rw [hb, CanRxDemux.buf_setBuf_other _ _ _ _ hdc]

/-- A write answered MalformedFrame or InvalidController leaves both buffers as they are. -/
theorem exec_canrxWrite_can_of_rejected {s t : State} {tgt : Byte} {r : Response}
    (h : exec (.canrxWrite tgt) s = .next t) (hr : t.resp = some r)
    (hres : r.result = .malformedFrame ∨ r.result = .invalidController) : t.can = s.can := by
  obtain hcan | ⟨c, bytes, -, hpush⟩ := exec_canrxWrite_can_or_canPush h
  · exact hcan
  · obtain ⟨-, r', hr', hmal, hinv⟩ := State.canPush_frame hpush
    obtain rfl : r = r' := Option.some.inj (hr.symm.trans hr')
    exact absurd hres (not_or.mpr ⟨hmal, hinv⟩)

end Machine

open Machine

/-- Settles O18: one branch of CANRX.INIT per clause; the buffers INIT leaves are `RingBuffer.init`, written out. -/
theorem canrxInitFollowsItsRule : Obligations.CanrxInitFollowsItsRule := by
  refine ⟨rfl, fun s => ⟨exec_canrxInit_of_ctx_ne, exec_canrxInit_of_ready, fun hc hp0 hp1 => ?_⟩⟩
  rw [exec_canrxInit_of_uninit hc hp0 hp1]
  apply State.done_of_issuer
  exact State.ctx_eq_startup.mp hc

/-- Settles O19: the general clause bit by bit, the examples of R121 by evaluation. -/
theorem normaliseClearsOnlyTheMarker : Obligations.NormaliseClearsOnlyTheMarker :=
  ⟨normalise_getLsbD, rfl, rfl, rfl⟩

/-- Settles O20: one branch of CANRX.WRITE per failing clause; on an admitted write the slot at `wr` decides what the
push does, and the stored frame is `State.canRecord` of the bytes read. Only the push that stores it counts its
unspecified bytes as drawn (log 9). -/
theorem canrxWriteFollowsItsRule : Obligations.CanrxWriteFollowsItsRule := by
  refine ⟨fun s tgt => ⟨append_fields_eq_or tgt _, exec_canrxWrite_of_ctx_ne,
    fun hc h2 => exec_canrxWrite_of_unknown hc (Controller.ofTgt_of_two_le h2), fun c hn _ => ?_⟩,
    fun s tgt c sl hn hi hp hl hsize hs => ?_⟩
  · have ht := Controller.ofTgt_of_toNat hn
    exact ⟨exec_canrxWrite_of_other ht, exec_canrxWrite_of_uninit ht, exec_canrxWrite_of_tooLong ht,
      fun hi hp hl hsize => exec_canrxWrite_of_memRead_none ht hi hp hl
        (RegionStore.memRead_eq_none.mpr (by rwa [Nat.zero_add]))⟩
  · obtain ⟨bytes, hm⟩ :
        ∃ bytes, RegionStore.memRead s.caller s.port.ops.data 0 s.port.ops.length.toNat = some bytes :=
      ⟨_, RegionStore.memRead_eq_some.mpr ⟨by rwa [Nat.zero_add], rfl⟩⟩
    rw [exec_canrxWrite_of_memRead_some (Controller.ofTgt_of_toNat hn) hi hp hl hm]
    exact ⟨fun hv => State.canPush_of_valid hs hv _, fun hv =>
      ⟨_, rfl, rfl, State.canRecord_data_length hm hl, fun _ => State.canRecord_data_getElem? hm,
        State.canPush_of_invalid hs hv _⟩⟩

/-- Settles O21: one branch of CANRX.READ per clause; on a READY buffer the slot at `rd` decides what the read gives. -/
theorem canrxReadFollowsItsRule : Obligations.CanrxReadFollowsItsRule := by
  intro s tgt
  refine ⟨append_fields_eq_or tgt _, exec_canrxRead_of_outside, fun hc hcs h2 => ?_, fun c hn hc hcs => ?_⟩
  · rw [exec_canrxRead_of_unknown hc hcs (Controller.ofTgt_of_two_le h2)]
    exact State.done_of_issuer (State.ctx_eq_consumer.mp hc) _ _
  have hissuer : s.port.issuer = .consumer := State.ctx_eq_consumer.mp hc
  have ht := Controller.ofTgt_of_toNat hn
  refine ⟨exec_canrxRead_of_uninit hc hcs ht, fun sl hp hs => ⟨fun hv => ?_, fun hv => ?_⟩⟩
  · rw [exec_canrxRead_of_pop_none hc hcs ht hp (RingBuffer.pop_of_invalid hs hv)]
    exact State.done_of_issuer hissuer _ _
  · rw [exec_canrxRead_of_pop_some hc hcs ht hp (RingBuffer.pop_of_valid hs hv)]
    exact State.done_of_issuer (s := s.setCanBuf c _) hissuer _ _

/-- Settles O22: the branches of CANRX.DROPS, and for the count the frame of CANRX.WRITE. -/
theorem canrxDropsFollowsItsRule : Obligations.CanrxDropsFollowsItsRule := by
  refine ⟨fun s tgt => ⟨append_fields_eq_or tgt _,
    fun h2 => exec_canrxDrops_of_unknown (Controller.ofTgt_of_two_le h2), fun c hn => ?_⟩,
    fun s t tgt d h => ⟨fun hd => ?_, fun r hr hres => ?_⟩⟩
  · have ht := Controller.ofTgt_of_toNat hn
    exact ⟨exec_canrxDrops_of_uninit ht, exec_canrxDrops_of_ready ht⟩
  · rw [exec_canrxWrite_buf_other h hd]
  · rw [exec_canrxWrite_can_of_rejected h hr hres]

end Sys2Proof
end

section
/-! SUPPORT. When the answer to ProvideTxBuffer may be taken, and what it latches (R143). -/

namespace Sys2Proof

namespace Machine

/-- While a run goes on and no fault is recorded, a ready step is enabled just where it is enabled in itself (R172). -/
theorem Input.enabled_of_running {s : State} (he : s.ended = false) (hf : s.faulted = none) (x : Input) :
    x.enabled s = x.enabledUnfaulted s := by
  simp [Input.enabled, he, hf]

theorem Input.provideAnswer_enabledUnfaulted_iff {s : State} (a : ProvideAnswer) :
    (Input.provideAnswer a).enabledUnfaulted s = true ↔ s.eth.fsm = .acquire :=
  beq_iff_eq

/-- The block's own step is RECONCILE's or COPY's, and no other (R30). -/
theorem State.internalEnabled_iff {s : State} :
    s.internalEnabled = true ↔ s.eth.fsm = .reconcile ∨ s.eth.fsm = .copy := by
  rw [State.internalEnabled, Bool.or_eq_true, beq_iff_eq, beq_iff_eq]

/-- In ACQUIRE the block waits for the driver and has no step of its own (R143). -/
theorem State.internalEnabled_of_acquire {s : State} (h : s.eth.fsm = .acquire) : s.internalEnabled = false := by
  rw [Bool.eq_false_iff, ne_eq, State.internalEnabled_iff, h]
  simp

end Machine

open Machine

/-- Settles O26: a running block reduces both enabledness clauses to what the step asks of `eth.fsm`; the latches are
those of `ethAcquire`. -/
theorem acquireLatchesTheAnswer : Obligations.AcquireLatchesTheAnswer := by
  intro s a he hf
  refine ⟨?_, fun hacq => ?_, ?_⟩
  · rw [Input.enabled_of_running he hf]
    exact Input.provideAnswer_enabledUnfaulted_iff a
  · rw [Input.enabled_of_running he hf]
    exact State.internalEnabled_of_acquire hacq
  · rw [takeInput, ethAcquire]

end Sys2Proof
end

section
/-! SUPPORT. Decoding undoes encoding and encoding undoes decoding (R70, R73, R78). -/

namespace Sys2Proof

/-! ### The parts of an instruction -/

@[simp] theorem Op.op_toInstr (op : Op) (t : Byte) : (op.toInstr t).op = op := by cases op <;> rfl

@[simp] theorem Instr.toInstr_op_tgt (i : Instr) : i.op.toInstr i.tgt = i := by cases i <;> rfl

/-- An operation of R74 (c) has target 0 (R70). -/
theorem Instr.tgt_of_takesNoTarget {i : Instr} (h : i.op.takesNoTarget = true) : i.tgt = 0 := by
  cases i <;> first | rfl | exact absurd h Bool.false_ne_true

theorem Op.tgt_toInstr {op : Op} {t : Byte} (h : op.takesNoTarget = true → t = 0) : (op.toInstr t).tgt = t := by
  cases op <;> first | rfl | exact (h rfl).symm

/-! ### The two directions -/

@[simp] theorem decode_encode (i : Instr) : decode (encode i) = .ok i := by
  obtain ⟨hrsv, htgt, hop⟩ := Laws.fields_of_append 0#16 i.tgt i.op.code
  rw [encode, decode_of_assigned hrsv (by rw [hop, Op.ofCode_code]), htgt, Instr.toInstr_op_tgt,
    if_neg fun h => h.2 (Instr.tgt_of_takesNoTarget h.1)]

/-- A word is its three fields put together (R70). -/
theorem Word.eq_append_fields (w : Word) : w = (Word.rsvField w ++ Word.tgtField w) ++ Word.opField w := by
  apply BitVec.eq_of_toNat_eq
  have hlt : w.toNat < 4294967296 := w.isLt
  simp only [BitVec.toNat_append, Word.rsvField_toNat, Word.tgtField_toNat, Word.opField_toNat]
  rw [← Nat.shiftLeft_add_eq_or_of_lt (by omega), ← Nat.shiftLeft_add_eq_or_of_lt (by omega),
    Nat.shiftLeft_eq, Nat.shiftLeft_eq]
  omega

/-- What decoding a legal word says of its fields (R78). -/
theorem fields_of_decode {w : Word} {i : Instr} (h : decode w = .ok i) :
    Word.rsvField w = 0 ∧ Word.opField w = i.op.code ∧ Word.tgtField w = i.tgt := by
  by_cases hr : Word.rsvField w = 0
  case neg => rw [decode_of_rsvField_ne_zero hr] at h; exact absurd h (by simp)
  cases ho : Op.ofCode (Word.opField w) with
  | none => rw [decode_of_unassigned hr ho] at h; exact absurd h (by simp)
  | some op =>
    rw [decode_of_assigned hr ho] at h
    split at h
    · exact absurd h (by simp)
    · rename_i ht
      obtain rfl := Except.ok.inj h
      have htgt : op.takesNoTarget = true → Word.tgtField w = 0 := fun hn => not_not.mp fun h0 => ht ⟨hn, h0⟩
      exact ⟨hr, by rw [Op.op_toInstr, Op.code_of_ofCode ho], (Op.tgt_toInstr htgt).symm⟩

theorem eq_encode_of_decode {w : Word} {i : Instr} (h : decode w = .ok i) : w = encode i := by
  obtain ⟨hrsv, hop, htgt⟩ := fields_of_decode h
  rw [Word.eq_append_fields w, hrsv, hop, htgt]
  rfl

/-- Settles O1: each of the fifteen words is decoded by evaluation. -/
theorem decodeGivesTheWordsOfTheOpcodeMap : Obligations.DecodeGivesTheWordsOfTheOpcodeMap :=
  ⟨rfl, rfl, rfl, rfl, rfl, rfl, rfl, rfl, rfl, rfl, rfl, rfl, rfl, rfl, rfl⟩

/-- Settles O2: `decode_encode` one way, the word put together from its fields the other. -/
theorem decodeAndEncodeAgree : Obligations.DecodeAndEncodeAgree :=
  ⟨fun i => ⟨by cases i <;> rfl, decode_encode i⟩, fun _ _ => eq_encode_of_decode⟩

end Sys2Proof
end

section
/-! SUPPORT. A ring buffer as a queue: where its occupied slots lie, what push, pop and INIT do to them, and the
occupancy invariant kept (R104 to R110). -/

namespace Sys2Proof.Machine

/-! ### Arithmetic modulo `N` -/

/-- Two offsets below `n` reach the same slot only if they are equal. -/
theorem eq_of_add_mod_eq {n r j k : Nat} (hj : j < n) (hk : k < n) (h : (r + j) % n = (r + k) % n) : j = k :=
  (Nat.ModEq.add_left_cancel' r h).eq_of_lt_of_lt hj hk

/-- Of the offsets up to `n`, only 0 and `n` reach the same slot. -/
theorem eq_capacity_of_add_mod_eq {n r j k : Nat} (hjk : j < k) (hk : k ≤ n) (h : (r + j) % n = (r + k) % n) :
    k = n := by
  by_contra hne
  exact absurd (eq_of_add_mod_eq (by omega) (by omega) h) (by omega)

/-- Stepping the start by one shifts every offset by one. -/
theorem incMod_add_mod (n r j : Nat) : (incMod n r + j) % n = (r + (j + 1)) % n := by
  rw [incMod, Nat.mod_add_mod, Nat.add_right_comm, Nat.add_assoc]

theorem incMod_add_mod_self (n r j : Nat) : incMod n ((r + j) % n) = (r + (j + 1)) % n := by
  rw [incMod, Nat.mod_add_mod, Nat.add_assoc]

theorem incMod_eq_ite {n i : Nat} (h : i < n) : incMod n i = if i = n - 1 then 0 else i + 1 := by
  split
  · rename_i hi
    rw [hi, incMod_last (Nat.zero_lt_of_lt h)]
  · exact incMod_of_lt (by omega)

theorem incMod_two_pow (k i : Nat) : incMod (2 ^ k) i = (i + 1) &&& (2 ^ k - 1) := by
  rw [incMod, Nat.and_two_pow_sub_one_eq_mod]

/-- IDX_W(N) bits hold every index below N (R6). -/
theorem lt_two_pow_idxWidth {n i : Nat} (h : i < n) : i < 2 ^ Config.idxWidth n := by
  refine lt_of_lt_of_le ?_ (Nat.pow_le_pow_right (by decide) (le_max_right 1 (Config.ceilLog2 n)))
  unfold Config.ceilLog2
  split
  · rw [Nat.pow_zero]; omega
  · exact lt_of_le_of_lt (Nat.le_sub_one_of_lt h) Nat.lt_log2_self

/-! ### The occupied slots -/

section Occupied

variable {α : Type} {b : RingBuffer α}

/-- The record at offset `j` from `rd`, if there is one. -/
def RingBuffer.recordAt (b : RingBuffer α) (j : Nat) : Option α :=
  (b.slots[(b.rd + j) % b.capacity]?).map (·.data)

theorem RingBuffer.contents_eq (b : RingBuffer α) : b.contents = (List.range b.count).filterMap b.recordAt := rfl

theorem RingBuffer.lt_capacity_of_getElem? {i : Nat} {sl : Slot α} (hs : b.slots[i]? = some sl) : i < b.capacity :=
  (List.getElem?_eq_some_iff.mp hs).1

theorem RingBuffer.getElem?_mod (hN : 0 < b.capacity) (j : Nat) : ∃ sl, b.slots[j % b.capacity]? = some sl :=
  ⟨_, List.getElem?_eq_getElem (Nat.mod_lt j hN)⟩

/-- A buffer with at least one slot has a record at every offset. -/
theorem RingBuffer.contents_length (hN : 0 < b.capacity) : b.contents.length = b.count := by
  have hall : ∀ j ∈ List.range b.count, (b.recordAt j).isSome = true := fun j _ => by
    obtain ⟨sl, hs⟩ := RingBuffer.getElem?_mod hN (b.rd + j)
    simp [RingBuffer.recordAt, hs]
  rw [RingBuffer.contents_eq, List.length_filterMap_eq_countP, List.countP_eq_length.mpr hall, List.length_range]

/-- The number of Valid slots after slot `i` is replaced. -/
theorem countP_valid_set {slots : List (Slot α)} {i : Nat} {old : Slot α} (h : slots[i]? = some old) (new : Slot α) :
    (slots.set i new).countP (·.valid) + old.valid.toNat = slots.countP (·.valid) + new.valid.toNat := by
  obtain ⟨hi, rfl⟩ := List.getElem?_eq_some_iff.mp h
  have hle : slots[i].valid = true → 0 < slots.countP (·.valid) := fun hv =>
    List.countP_pos_iff.mpr ⟨_, List.getElem_mem hi, hv⟩
  rw [List.countP_set hi]
  cases ho : slots[i].valid with
  | false => cases new.valid <;> simp
  | true =>
    have := hle ho
    cases new.valid <;> simp <;> omega

end Occupied

/-! ### Full and empty (R106) -/

section Occupancy

variable {α : Type} {b : RingBuffer α} (h : b.occupancy)

include h

theorem RingBuffer.occupancy.capacity_pos : 0 < b.capacity := Nat.zero_lt_of_lt h.1

theorem RingBuffer.occupancy.count_le : b.count ≤ b.capacity := h.2.2.1

theorem RingBuffer.occupancy.wr_eq : b.wr = (b.rd + b.count) % b.capacity := h.2.2.2.1

theorem RingBuffer.occupancy.valid_iff {i : Nat} {sl : Slot α} (hs : b.slots[i]? = some sl) :
    sl.valid = true ↔ ∃ j, j < b.count ∧ i = (b.rd + j) % b.capacity := h.2.2.2.2 i sl hs

theorem RingBuffer.occupancy.slot_at_wr : ∃ sl, b.slots[b.wr]? = some sl := ⟨_, List.getElem?_eq_getElem h.2.1⟩

theorem RingBuffer.occupancy.slot_at_rd : ∃ sl, b.slots[b.rd]? = some sl := ⟨_, List.getElem?_eq_getElem h.1⟩

theorem RingBuffer.occupancy.rd_eq : b.rd = (b.rd + 0) % b.capacity := (Nat.mod_eq_of_lt h.1).symm

theorem RingBuffer.occupancy.wr_eq_rd_of_full (hk : b.count = b.capacity) : b.wr = b.rd := by
  rw [h.wr_eq, hk, Nat.add_mod_right, Nat.mod_eq_of_lt h.1]

theorem RingBuffer.occupancy.wr_eq_rd_of_empty (hk : b.count = 0) : b.wr = b.rd := by
  rw [h.wr_eq, hk, ← h.rd_eq]

/-- The slot at `wr` is Valid exactly in a full buffer. -/
theorem RingBuffer.occupancy.valid_at_wr_iff {sl : Slot α} (hs : b.slots[b.wr]? = some sl) :
    sl.valid = true ↔ b.count = b.capacity := by
  rw [h.valid_iff hs]
  constructor
  · rintro ⟨j, hj, hwr⟩
    exact eq_capacity_of_add_mod_eq hj h.count_le (hwr.symm.trans h.wr_eq)
  · intro hk
    exact ⟨0, hk ▸ h.capacity_pos, (h.wr_eq_rd_of_full hk).trans h.rd_eq⟩

/-- The slot at `rd` is Valid exactly in a buffer that is not empty. -/
theorem RingBuffer.occupancy.valid_at_rd_iff {sl : Slot α} (hs : b.slots[b.rd]? = some sl) :
    sl.valid = true ↔ 0 < b.count := by
  rw [h.valid_iff hs]
  exact ⟨fun ⟨_, hj, _⟩ => Nat.zero_lt_of_lt hj, fun hk => ⟨0, hk, h.rd_eq⟩⟩

/-- The occupancy sequence of a buffer that is not empty starts with the record at `rd`. -/
theorem RingBuffer.occupancy.contents_eq_cons {sl : Slot α} (hs : b.slots[b.rd]? = some sl) {n : Nat}
    (hk : b.count = n + 1) :
    b.contents = sl.data :: (List.range n).filterMap fun j => b.recordAt (j + 1) := by
  have h0 : b.recordAt 0 = some sl.data := by rw [RingBuffer.recordAt, ← h.rd_eq, hs, Option.map_some]
  rw [RingBuffer.contents_eq, hk, List.range_succ_eq_map, List.filterMap_cons_some h0, List.filterMap_map]
  rfl

/-! ### The accepted push (R101, R108) -/

section Push

variable {sl : Slot α} (hs : b.slots[b.wr]? = some sl) (hv : sl.valid = false) (x : α)

include hs hv

/-- The buffer after a push into an Invalid slot. -/
def RingBuffer.pushed (b : RingBuffer α) (x : α) : RingBuffer α :=
  { b with slots := b.slots.set b.wr { valid := true, data := x }, wr := incMod b.capacity b.wr }

omit h hs hv in
@[simp] theorem RingBuffer.pushed_capacity : (b.pushed x).capacity = b.capacity :=
  List.length_set

theorem RingBuffer.occupancy.count_lt : b.count < b.capacity :=
  lt_of_le_of_ne h.count_le fun hk => absurd ((h.valid_at_wr_iff hs).mpr hk) (by simp [hv])

omit h in
theorem RingBuffer.count_pushed : (b.pushed x).count = b.count + 1 := by
  have := countP_valid_set hs { valid := true, data := x }
  rw [hv] at this
  exact this

theorem RingBuffer.occupancy.pushed : (b.pushed x).occupancy := by
  have hcount := RingBuffer.count_pushed hs hv x
  have hlt := h.count_lt hs hv
  refine ⟨?_, ?_, ?_, ?_, fun i y hy => ?_⟩
  · rw [RingBuffer.pushed_capacity]; exact h.1
  · rw [RingBuffer.pushed_capacity]; exact incMod_lt h.capacity_pos
  · rw [hcount, RingBuffer.pushed_capacity]; exact hlt
  · rw [hcount, RingBuffer.pushed_capacity]
    show incMod b.capacity b.wr = (b.rd + (b.count + 1)) % b.capacity
    rw [h.wr_eq, incMod_add_mod_self]
  · rw [hcount, RingBuffer.pushed_capacity]
    show y.valid = true ↔ ∃ j, j < b.count + 1 ∧ i = (b.rd + j) % b.capacity
    by_cases hi : i = b.wr
    · subst hi
      have hy' : y = { valid := true, data := x } := by
        simpa [RingBuffer.pushed, List.getElem?_set_self (RingBuffer.lt_capacity_of_getElem? hs)] using hy.symm
      exact iff_of_true (by rw [hy']) ⟨b.count, Nat.lt_succ_self _, h.wr_eq⟩
    · have hy' : b.slots[i]? = some y := by simpa [RingBuffer.pushed, List.getElem?_set_ne (Ne.symm hi)] using hy
      rw [h.valid_iff hy']
      constructor
      · rintro ⟨j, hj, rfl⟩; exact ⟨j, Nat.lt_succ_of_lt hj, rfl⟩
      · rintro ⟨j, hj, rfl⟩
        exact ⟨j, lt_of_le_of_ne (Nat.le_of_lt_succ hj) (fun hjk => hi (hjk ▸ h.wr_eq.symm)), rfl⟩

theorem RingBuffer.occupancy.contents_pushed : (b.pushed x).contents = b.contents ++ [x] := by
  have hlt := h.count_lt hs hv
  have hold : ∀ j ∈ List.range b.count, (b.pushed x).recordAt j = b.recordAt j := fun j hj => by
    have hj := List.mem_range.mp hj
    have hne : b.wr ≠ (b.rd + j) % b.capacity := fun e =>
      absurd (eq_of_add_mod_eq hlt (hj.trans hlt) (h.wr_eq ▸ e)) (Nat.ne_of_gt hj)
    rw [RingBuffer.recordAt, RingBuffer.pushed_capacity]
    show ((b.slots.set b.wr _)[(b.rd + j) % b.capacity]?).map _ = _
    rw [List.getElem?_set_ne hne, RingBuffer.recordAt]
  have hnew : (b.pushed x).recordAt b.count = some x := by
    rw [RingBuffer.recordAt, RingBuffer.pushed_capacity]
    show ((b.slots.set b.wr _)[(b.rd + b.count) % b.capacity]?).map _ = _
    rw [← h.wr_eq, List.getElem?_set_self (RingBuffer.lt_capacity_of_getElem? hs)]
    rfl
  rw [RingBuffer.contents_eq, RingBuffer.count_pushed hs hv, List.range_succ, List.filterMap_append,
    List.filterMap_congr hold, ← RingBuffer.contents_eq, List.filterMap_cons_some hnew, List.filterMap_nil]

end Push

/-! ### The pop that returns a record (R102, R109) -/

section Pop

variable {sl : Slot α} (hs : b.slots[b.rd]? = some sl) (hv : sl.valid = true)

include hs hv

/-- The buffer after a pop of the Valid slot `sl`. -/
def RingBuffer.popped (b : RingBuffer α) (sl : Slot α) : RingBuffer α :=
  { b with slots := b.slots.set b.rd { sl with valid := false }, rd := incMod b.capacity b.rd }

omit h hs hv in
@[simp] theorem RingBuffer.popped_capacity : (b.popped sl).capacity = b.capacity :=
  List.length_set

omit h in
theorem RingBuffer.count_popped : (b.popped sl).count + 1 = b.count := by
  have := countP_valid_set hs { sl with valid := false }
  rw [hv] at this
  exact this

theorem RingBuffer.occupancy.popped : (b.popped sl).occupancy := by
  have hcount := RingBuffer.count_popped hs hv
  have hle := h.count_le
  have hN := h.capacity_pos
  refine ⟨?_, ?_, ?_, ?_, fun i y hy => ?_⟩
  · rw [RingBuffer.popped_capacity]; exact incMod_lt hN
  · rw [RingBuffer.popped_capacity]; exact h.2.1
  · rw [RingBuffer.popped_capacity]; omega
  · rw [RingBuffer.popped_capacity]
    show b.wr = (incMod b.capacity b.rd + (b.popped sl).count) % b.capacity
    rw [incMod_add_mod, hcount, h.wr_eq]
  · rw [RingBuffer.popped_capacity]
    show y.valid = true ↔ ∃ j, j < (b.popped sl).count ∧ i = (incMod b.capacity b.rd + j) % b.capacity
    simp only [incMod_add_mod]
    by_cases hi : i = b.rd
    · subst hi
      have hy' : y = { sl with valid := false } := by
        simpa [RingBuffer.popped, List.getElem?_set_self (RingBuffer.lt_capacity_of_getElem? hs)] using hy.symm
      refine iff_of_false (by simp [hy']) ?_
      rintro ⟨j, hj, e⟩
      exact absurd (eq_of_add_mod_eq hN (by omega) (h.rd_eq.symm.trans e)) (by omega)
    · have hy' : b.slots[i]? = some y := by simpa [RingBuffer.popped, List.getElem?_set_ne (Ne.symm hi)] using hy
      rw [h.valid_iff hy']
      constructor
      · rintro ⟨j, hj, rfl⟩
        cases j with
        | zero => exact absurd h.rd_eq.symm hi
        | succ j => exact ⟨j, by omega, rfl⟩
      · rintro ⟨j, hj, rfl⟩; exact ⟨j + 1, by omega, rfl⟩

theorem RingBuffer.occupancy.contents_popped : b.contents = sl.data :: (b.popped sl).contents := by
  have hcount := RingBuffer.count_popped hs hv
  have hle := h.count_le
  rw [h.contents_eq_cons hs hcount.symm, RingBuffer.contents_eq]
  refine congrArg _ (List.filterMap_congr fun j hj => ?_)
  have hj := List.mem_range.mp hj
  have hne : b.rd ≠ (b.rd + (j + 1)) % b.capacity := fun e =>
    absurd (eq_of_add_mod_eq h.capacity_pos (by omega) (h.rd_eq.symm.trans e)) (by omega)
  rw [RingBuffer.recordAt, RingBuffer.recordAt, RingBuffer.popped_capacity]
  show _ = ((b.slots.set b.rd _)[(incMod b.capacity b.rd + j) % b.capacity]?).map _
  rw [incMod_add_mod, List.getElem?_set_ne hne]

end Pop

/-- The drop counter takes no part in the invariant. -/
theorem RingBuffer.occupancy.withDrops (d : BitVec 32) : RingBuffer.occupancy { b with drops := d } := h

end Occupancy

/-! ### Push and pop as operations on the occupancy sequence -/

section Operations

variable {α : Type} {b : RingBuffer α}

/-- A push into a sound buffer, by how full it is (R101, R108). -/
theorem RingBuffer.occupancy.push_of_full (h : b.occupancy) (hk : b.count = b.capacity) (x : α) :
    b.push x = some (.bufferFull, { b with drops := b.drops + 1 }) := by
  obtain ⟨sl, hs⟩ := h.slot_at_wr
  exact RingBuffer.push_of_valid hs ((h.valid_at_wr_iff hs).mpr hk) x

theorem RingBuffer.occupancy.push_of_not_full (h : b.occupancy) (hk : b.count < b.capacity) (x : α) :
    ∃ b', b.push x = some (.ok, b') ∧ b'.occupancy ∧ b'.contents = b.contents ++ [x] ∧ b'.drops = b.drops
      ∧ b'.phase = b.phase ∧ b'.capacity = b.capacity := by
  obtain ⟨sl, hs⟩ := h.slot_at_wr
  have hv : sl.valid = false := Bool.eq_false_iff.mpr fun hv => hk.ne ((h.valid_at_wr_iff hs).mp hv)
  exact ⟨_, RingBuffer.push_of_invalid hs hv x, h.pushed hs hv x, h.contents_pushed hs hv x, rfl, rfl,
    RingBuffer.pushed_capacity x⟩

/-- A pop of a sound buffer, by what it holds (R102, R109). -/
theorem RingBuffer.occupancy.pop_of_nil (h : b.occupancy) (hc : b.contents = []) : b.pop = some (none, b) := by
  obtain ⟨sl, hs⟩ := h.slot_at_rd
  have hk : b.count = 0 := by rw [← RingBuffer.contents_length h.capacity_pos, hc, List.length_nil]
  exact RingBuffer.pop_of_invalid hs (Bool.eq_false_iff.mpr fun hv => hk.not_gt ((h.valid_at_rd_iff hs).mp hv))

theorem RingBuffer.occupancy.pop_of_cons (h : b.occupancy) {v : α} {q : List α} (hc : b.contents = v :: q) :
    ∃ b', b.pop = some (some v, b') ∧ b'.occupancy ∧ b'.contents = q ∧ b'.drops = b.drops ∧ b'.phase = b.phase
      ∧ b'.capacity = b.capacity := by
  obtain ⟨sl, hs⟩ := h.slot_at_rd
  have hk : 0 < b.count := by rw [← RingBuffer.contents_length h.capacity_pos, hc]; exact Nat.succ_pos _
  have hv := (h.valid_at_rd_iff hs).mpr hk
  obtain ⟨rfl, rfl⟩ := List.cons.inj (hc.symm.trans (h.contents_popped hs hv))
  exact ⟨_, RingBuffer.pop_of_valid hs hv, h.popped hs hv, rfl, rfl, rfl, RingBuffer.popped_capacity⟩

/-- INIT leaves an empty buffer that meets the invariant (R100, R105). -/
theorem RingBuffer.count_init (b : RingBuffer α) : b.init.count = 0 := by
  simp [RingBuffer.count, List.countP_map, Function.comp_def]

theorem RingBuffer.contents_init (b : RingBuffer α) : b.init.contents = [] := by
  rw [RingBuffer.contents_eq, RingBuffer.count_init]; rfl

theorem RingBuffer.occupancy_init (hN : 0 < b.capacity) : b.init.occupancy := by
  refine ⟨?_, ?_, ?_, ?_, fun i sl hs => ?_⟩
  · simpa using hN
  · simpa using hN
  · simp [RingBuffer.count_init]
  · simp [RingBuffer.count_init]
  · obtain ⟨old, -, rfl⟩ : ∃ old, b.slots[i]? = some old ∧ ({ old with valid := false } : Slot α) = sl := by
      simpa [List.getElem?_map] using hs
    simp [RingBuffer.count_init]

end Operations

end Sys2Proof.Machine

namespace Sys2Proof

open Machine

/-- Settles O12: the wrap from `incMod_of_lt` and `incMod_last`, the mask and the width from the binary logarithm. -/
theorem indexArithmeticStaysInRange : Obligations.IndexArithmeticStaysInRange :=
  ⟨fun _ _ h => ⟨incMod_lt (Nat.zero_lt_of_lt h), incMod_eq_ite h⟩, fun i => Nat.mod_one (i + 1),
    fun k i _ => incMod_two_pow k i, fun _ _ => lt_two_pow_idxWidth⟩

/-- Settles O13: the slot at `wr` is offset `k` from `rd`, and the slot at `rd` is offset 0. -/
theorem fullAndEmptyAreReadFromTheValidFlag : Obligations.FullAndEmptyAreReadFromTheValidFlag := by
  intro α b h
  obtain ⟨wsl, hw⟩ := h.slot_at_wr
  obtain ⟨rsl, hr⟩ := h.slot_at_rd
  refine ⟨?_, ?_, h.wr_eq_rd_of_full, h.wr_eq_rd_of_empty⟩
  · simp only [hw, Option.some.injEq, exists_eq_left']
    exact (h.valid_at_wr_iff hw).symm
  · simp only [hr, Option.some.injEq, exists_eq_left', Bool.eq_false_iff, ne_eq, h.valid_at_rd_iff hr]
    omega

/-- Settles O14: the push and the pop of each kind of slot, with the occupancy of what they leave. -/
theorem pushAndPopActOnTheContents : Obligations.PushAndPopActOnTheContents := by
  intro α b b' h
  refine ⟨fun x r hpush => ?_, fun o hpop => ?_⟩
  · obtain ⟨sl, hs, ⟨hv, rfl, rfl⟩ | ⟨hv, rfl, rfl⟩⟩ := RingBuffer.push_cases hpush
    · exact ⟨h, .inr ⟨rfl, (h.valid_at_wr_iff hs).mp hv, rfl, rfl⟩⟩
    · exact ⟨h.pushed hs hv x, .inl ⟨rfl, h.count_lt hs hv, h.contents_pushed hs hv x, rfl⟩⟩
  · obtain ⟨sl, hs, ⟨hv, rfl, rfl⟩ | ⟨hv, rfl, rfl⟩⟩ := RingBuffer.pop_cases hpop
    · have hk : b'.count = 0 := Nat.eq_zero_of_not_pos fun hk => absurd ((h.valid_at_rd_iff hs).mpr hk) (by simp [hv])
      exact ⟨h, rfl, .inr ⟨rfl, by rw [RingBuffer.contents_eq, hk]; rfl, rfl⟩⟩
    · exact ⟨h.popped hs hv, rfl, .inl ⟨_, rfl, h.contents_popped hs hv⟩⟩

end Sys2Proof
end

section
/-! SUPPORT. RB.PUSH and ETHTX.SEND read forwards, who may issue what (R179), operations before INIT (R190), and the two
named stops (log 6, log 7). -/

namespace Sys2Proof

/-- The RB.* operations, which stand at the command port of a generic instance (R70). -/
def Instr.atPort (i : Instr) : Prop := i.op = .rbInit ∨ i.op = .rbPush ∨ i.op = .rbPop ∨ i.op = .rbDrops

namespace Machine

/-! ### The branches of RB.PUSH (R101) -/

section RbPush

variable {s : State} {b : RingBuffer Record} (hb : s.portBuffer? = some b)

include hb

theorem exec_rbPush_of_other (hi : s.port.issuer ≠ .producer (.rb s.port.port)) :
    exec .rbPush s = s.fail (s.contextFault .rbPush) := by
  simp [exec, execRbPush, hb, hi]

theorem exec_rbPush_of_uninit (hi : s.port.issuer = .producer (.rb s.port.port)) (hp : b.phase = .uninit) :
    exec .rbPush s = s.fail (.uninit (.rb s.port.port)) := by
  simp [exec, execRbPush, hb, hi, hp]

theorem exec_rbPush_of_push_none (hi : s.port.issuer = .producer (.rb s.port.port)) (hp : b.phase = .ready)
    (hpush : b.push s.port.ops.item = none) : exec .rbPush s = .fault (.slotIndexOutOfRange (.rb s.port.port)) := by
  simp [exec, execRbPush, hb, hi, hp, hpush]

theorem exec_rbPush_of_push_some (hi : s.port.issuer = .producer (.rb s.port.port)) (hp : b.phase = .ready)
    {r : ResultCode} {b' : RingBuffer Record} (hpush : b.push s.port.ops.item = some (r, b')) :
    exec .rbPush s = (s.setPortBuffer b').done r .none := by
  simp [exec, execRbPush, hb, hi, hp, hpush]

theorem exec_rbPop_of_stop (hi : s.port.issuer = .consumer) (hcs : s.cs = true) (hp : b.phase = .ready)
    (hpop : b.pop = none) : exec .rbPop s = .fault (.slotIndexOutOfRange (.rb s.port.port)) := by
  simp [exec, execRbPop, hb, State.ctx_eq_consumer, hi, hcs, hp, hpop]

end RbPush

/-! ### The branches of ETHTX.SEND (R142) -/

section EthtxSend

variable {s : State}

theorem exec_ethtxSend_of_ctx_ne (hc : s.ctx ≠ .consumer) : exec .ethtxSend s = s.fail (s.contextFault .ethtxSend) := by
  simp [exec, execEthtxSend, hc]

theorem exec_ethtxSend_of_busy (hc : s.ctx = .consumer) (hf : s.eth.fsm ≠ .idle) :
    exec .ethtxSend s = s.fail (.ethtxBusy s.eth.fsm) := by
  simp [exec, execEthtxSend, hc, hf]

variable (hc : s.ctx = .consumer) (hf : s.eth.fsm = .idle)

include hc hf

theorem exec_ethtxSend_of_headerOnly (hl : s.port.ops.len.toNat ≤ 14) :
    exec .ethtxSend s =
      State.done { s with eth := { s.eth with result := .malformedFrame } } .malformedFrame .none := by
  simp [exec, execEthtxSend, hc, hf, hl, Config.ethHdrLen]

theorem exec_ethtxSend_of_shortRegion (hl : 14 < s.port.ops.len.toNat)
    (hr : RegionStore.size s.caller s.port.ops.frame < s.port.ops.len.toNat) :
    exec .ethtxSend s = s.fail (.callerRegion s.port.ops.frame s.port.ops.len.toNat) := by
  simp [exec, execEthtxSend, hc, hf, Nat.not_le.mpr hl, hr, Config.ethHdrLen]

/-- The state in which the block waits for a transmit buffer for the frame image at the port (R142). -/
def State.sendStarted (s : State) : State :=
  { s with
    eth := { s.eth with
      frame := s.port.ops.frame, len := s.port.ops.len, reqLen := s.port.ops.len - 14#16, fsm := .acquire }
    driverRequest := some (.provideTxBuffer s.params.ethCtrlIdx (s.port.ops.len - 14#16))
    resp := none }

theorem exec_ethtxSend_of_longEnough (hl : 14 < s.port.ops.len.toNat)
    (hr : s.port.ops.len.toNat ≤ RegionStore.size s.caller s.port.ops.frame) :
    exec .ethtxSend s = .next s.sendStarted := by
  simp [exec, execEthtxSend, hc, hf, Nat.not_le.mpr hl, Nat.not_lt.mpr hr, Config.ethHdrLen, State.sendStarted]

end EthtxSend

/-! ### Who may issue an operation (R179) -/

section Permitted

variable {a : Issuer} {port : Nat} {cs : Bool} {tgt : Byte}

theorem permitted_rbInit_iff : permitted .rbInit a port cs = true ↔ a = .startup := by cases a <;> simp [permitted]

theorem permitted_rbPush_iff : permitted .rbPush a port cs = true ↔ a = .producer (.rb port) := by
  cases a <;> simp [permitted]

theorem permitted_rbPop_iff : permitted .rbPop a port cs = true ↔ a = .consumer ∧ cs = true := by
  cases a <;> simp [permitted]

@[simp] theorem permitted_rbDrops : permitted .rbDrops a port cs = true := rfl

theorem permitted_canrxInit_iff : permitted .canrxInit a port cs = true ↔ a = .startup := by
  cases a <;> simp [permitted]

theorem permitted_canrxWrite_iff : permitted (.canrxWrite tgt) a port cs = true ↔
    ∃ p, a = .producer p ∧ ∀ c, Controller.ofTgt tgt = some c → p = .can c := by
  cases a <;> cases h : Controller.ofTgt tgt <;> simp [permitted, h]

theorem permitted_canrxRead_iff : permitted (.canrxRead tgt) a port cs = true ↔ a = .consumer ∧ cs = true := by
  cases a <;> simp [permitted]

@[simp] theorem permitted_canrxDrops : permitted (.canrxDrops tgt) a port cs = true := rfl

theorem permitted_ethtxSend_iff : permitted .ethtxSend a port cs = true ↔ a = .consumer := by
  cases a <;> simp [permitted]

end Permitted

/-- An issuer that the table does not permit gets F_CONTEXT, before anything else is checked (R174, R179). -/
theorem exec_of_not_permitted {i : Instr} {s : State} (hport : i.atPort → (s.rb[s.port.port]?).isSome = true)
    (h : permitted i s.port.issuer s.port.port s.cs = false) : exec i s = s.fail (s.contextFault i.op) := by
  rw [Bool.eq_false_iff] at h
  have hb (hi : i.atPort) : ∃ b, s.portBuffer? = some b := Option.isSome_iff_exists.mp (hport hi)
  cases i with
  | rbInit =>
    obtain ⟨b, hb⟩ := hb (.inl rfl)
    exact exec_rbInit_of_ctx_ne hb fun hc => h (permitted_rbInit_iff.mpr (State.ctx_eq_startup.mp hc))
  | rbPush =>
    obtain ⟨b, hb⟩ := hb (.inr (.inl rfl))
    exact exec_rbPush_of_other hb fun hi => h (permitted_rbPush_iff.mpr hi)
  | rbPop =>
    obtain ⟨b, hb⟩ := hb (.inr (.inr (.inl rfl)))
    refine exec_rbPop_of_outside hb ?_
    rwa [ne_eq, permitted_rbPop_iff, ← State.ctx_eq_consumer, Decidable.not_and_iff_or_not, Bool.not_eq_true] at h
  | rbDrops => exact absurd permitted_rbDrops h
  | canrxInit =>
    exact exec_canrxInit_of_ctx_ne fun hc => h (permitted_canrxInit_iff.mpr (State.ctx_eq_startup.mp hc))
  | canrxWrite tgt =>
    by_cases hc : s.ctx = .producer
    case neg => exact exec_canrxWrite_of_ctx_ne hc
    obtain ⟨p, hp⟩ := State.ctx_eq_producer.mp hc
    cases ht : Controller.ofTgt tgt with
    | none => exact absurd (permitted_canrxWrite_iff.mpr ⟨p, hp, by simp [ht]⟩) h
    | some c =>
      refine exec_canrxWrite_of_other ht fun hi => h (permitted_canrxWrite_iff.mpr ⟨_, hi, fun d hd => ?_⟩)
      rw [Option.some.inj (ht.symm.trans hd)]
  | canrxRead tgt =>
    refine exec_canrxRead_of_outside ?_
    rwa [ne_eq, permitted_canrxRead_iff, ← State.ctx_eq_consumer, Decidable.not_and_iff_or_not, Bool.not_eq_true] at h
  | canrxDrops tgt => exact absurd permitted_canrxDrops h
  | ethtxSend =>
    exact exec_ethtxSend_of_ctx_ne fun hc => h (permitted_ethtxSend_iff.mpr (State.ctx_eq_consumer.mp hc))

/-! ### Operations on an instance before its INIT (R26, R190) -/

@[simp] theorem Controller.ofTgt_tgt (c : Controller) : Controller.ofTgt c.tgt = some c := by cases c <;> rfl

theorem Controller.tgt_of_ofTgt {tgt : Byte} {c : Controller} (h : Controller.ofTgt tgt = some c) : tgt = c.tgt := by
  rw [(Controller.ofTgt_eq_some tgt c).mp h]
  cases c <;> rfl

theorem exec_rb_of_uninit {i : Instr} {s : State} {b : RingBuffer Record} (hb : s.portBuffer? = some b)
    (hp : b.phase = .uninit) (hop : i.op = .rbPush ∨ i.op = .rbPop ∨ i.op = .rbDrops)
    (h : permitted i s.port.issuer s.port.port s.cs = true) : exec i s = s.fail (.uninit (.rb s.port.port)) := by
  cases i with
  | rbPush => exact exec_rbPush_of_uninit hb (permitted_rbPush_iff.mp h) hp
  | rbPop =>
    obtain ⟨hi, hcs⟩ := permitted_rbPop_iff.mp h
    exact exec_rbPop_of_uninit hb (State.ctx_eq_consumer.mpr hi) hcs hp
  | rbDrops => exact exec_rbDrops_of_uninit hb hp
  | _ => simp [Instr.op] at hop

theorem exec_canrx_of_uninit {i : Instr} {s : State} {d : Controller} (hp : (s.can.buf d).phase = .uninit)
    (hi : i = .canrxWrite d.tgt ∨ i = .canrxRead d.tgt ∨ i = .canrxDrops d.tgt)
    (h : permitted i s.port.issuer s.port.port s.cs = true) : exec i s = s.fail (.uninit (.canBuf d)) := by
  have ht := Controller.ofTgt_tgt d
  obtain rfl | rfl | rfl := hi
  · obtain ⟨p, hp', hown⟩ := permitted_canrxWrite_iff.mp h
    exact exec_canrxWrite_of_uninit ht (hown d ht ▸ hp') hp
  · obtain ⟨hi, hcs⟩ := permitted_canrxRead_iff.mp h
    exact exec_canrxRead_of_uninit (State.ctx_eq_consumer.mpr hi) hcs ht hp
  · exact exec_canrxDrops_of_uninit ht hp

/-! ### The named stops (log 6, log 7) -/

theorem exec_of_noPort {i : Instr} {s : State} (hi : i.atPort) (hb : s.rb[s.port.port]? = none) :
    exec i s = .refused (.noSuchPort s.port.port) := by
  have hb : s.portBuffer? = none := hb
  cases i with
  | rbInit => simp [exec, execRbInit, hb]
  | rbPush => simp [exec, execRbPush, hb]
  | rbPop => simp [exec, execRbPop, hb]
  | rbDrops => simp [exec, execRbDrops, hb]
  | _ => simp [Instr.atPort, Instr.op] at hi

section Stops

variable {s : State} {c : Controller} {f : Fault} {g : Refusal}

theorem State.canPush_eq_fault {bytes : List Byte} : s.canPush c bytes = .fault f ↔
    (s.can.buf c).slots.length ≤ (s.can.buf c).wr ∧ f = .slotIndexOutOfRange (.canBuf c) := by
  have hnone := RingBuffer.push_eq_none (b := s.can.buf c)
    (x := s.canRecord c s.port.ops.rawId s.port.ops.length bytes)
  rw [RingBuffer.capacity] at hnone
  rw [← hnone]
  unfold State.canPush
  split
  · rename_i hq; simp [hq, eq_comm]
  · rename_i hq; simp [hq]
  · rename_i hq; simp [hq]

theorem State.canPush_ne_refused {bytes : List Byte} : s.canPush c bytes ≠ .refused g := by
  unfold State.canPush
  split <;> simp

theorem exec_canrxRead_of_stop (hi : s.port.issuer = .consumer) (hcs : s.cs = true)
    (hp : (s.can.buf c).phase = .ready) (hpop : (s.can.buf c).pop = none) :
    exec (.canrxRead c.tgt) s = .fault (.slotIndexOutOfRange (.canBuf c)) := by
  simp [exec, execCanrxRead, State.ctx_eq_consumer, hi, hcs, hp, hpop]

theorem execRbPush_fault (h : execRbPush s = .fault f) :
    ∃ b, s.rb[s.port.port]? = some b ∧ f = .slotIndexOutOfRange (.rb s.port.port) ∧ b.phase = .ready
      ∧ s.port.issuer = .producer (.rb s.port.port) ∧ b.slots.length ≤ b.wr := by
  unfold execRbPush at h
  split at h
  · exact absurd h (by simp)
  rename_i b hb
  split_ifs at h with hi hp
  · exact absurd h State.fail_ne_fault
  · exact absurd h State.fail_ne_fault
  split at h
  · rename_i hq
    exact ⟨b, hb, (Host.Outcome.fault.inj h).symm, not_not.mp hp, not_not.mp hi, RingBuffer.push_eq_none.mp hq⟩
  · exact absurd h State.done_ne_fault

theorem execRbPop_fault (h : execRbPop s = .fault f) :
    ∃ b, s.rb[s.port.port]? = some b ∧ f = .slotIndexOutOfRange (.rb s.port.port) ∧ b.phase = .ready
      ∧ s.port.issuer = .consumer ∧ s.cs = true ∧ b.slots.length ≤ b.rd := by
  unfold execRbPop at h
  split at h
  · exact absurd h (by simp)
  rename_i b hb
  split_ifs at h with hc hp
  · exact absurd h State.fail_ne_fault
  · exact absurd h State.fail_ne_fault
  rw [not_or, not_not, not_not] at hc
  split at h
  · rename_i hq
    exact ⟨b, hb, (Host.Outcome.fault.inj h).symm, not_not.mp hp, State.ctx_eq_consumer.mp hc.1, hc.2,
      RingBuffer.pop_eq_none.mp hq⟩
  · exact absurd h State.done_ne_fault
  · exact absurd h State.done_ne_fault

theorem execCanrxWrite_fault {tgt : Byte} (h : execCanrxWrite tgt s = .fault f) :
    ∃ c, tgt = c.tgt ∧ f = .slotIndexOutOfRange (.canBuf c) ∧ (s.can.buf c).phase = .ready
      ∧ s.port.issuer = .producer (.can c) ∧ s.port.ops.length.toNat ≤ s.params.canPayloadMax
      ∧ s.port.ops.length.toNat ≤ RegionStore.size s.caller s.port.ops.data
      ∧ (s.can.buf c).slots.length ≤ (s.can.buf c).wr := by
  unfold execCanrxWrite at h
  split at h
  · exact absurd h State.fail_ne_fault
  split at h
  · exact absurd h State.done_ne_fault
  rename_i c ht
  split_ifs at h with hi hp hl
  · exact absurd h State.fail_ne_fault
  · exact absurd h State.fail_ne_fault
  · exact absurd h State.done_ne_fault
  split at h
  · exact absurd h State.fail_ne_fault
  · rename_i bytes hm
    obtain ⟨hwr, rfl⟩ := State.canPush_eq_fault.mp h
    have hsize := (RegionStore.memRead_eq_some.mp hm).1
    exact ⟨c, Controller.tgt_of_ofTgt ht, rfl, not_not.mp hp, not_not.mp hi, Nat.not_lt.mp hl,
      by rwa [Nat.zero_add] at hsize, hwr⟩

theorem execCanrxRead_fault {tgt : Byte} (h : execCanrxRead tgt s = .fault f) :
    ∃ c, tgt = c.tgt ∧ f = .slotIndexOutOfRange (.canBuf c) ∧ (s.can.buf c).phase = .ready
      ∧ s.port.issuer = .consumer ∧ s.cs = true ∧ (s.can.buf c).slots.length ≤ (s.can.buf c).rd := by
  unfold execCanrxRead at h
  split at h
  · exact absurd h State.fail_ne_fault
  rename_i hc
  rw [not_or, not_not, not_not] at hc
  split at h
  · exact absurd h State.done_ne_fault
  rename_i c ht
  split_ifs at h with hp
  · exact absurd h State.fail_ne_fault
  split at h
  · rename_i hq
    exact ⟨c, Controller.tgt_of_ofTgt ht, (Host.Outcome.fault.inj h).symm, not_not.mp hp,
      State.ctx_eq_consumer.mp hc.1, hc.2, RingBuffer.pop_eq_none.mp hq⟩
  · exact absurd h State.done_ne_fault
  · exact absurd h State.done_ne_fault

theorem execRbInit_ne_fault : execRbInit s ≠ .fault f := by unfold execRbInit; (repeat' split) <;> simp

theorem execRbDrops_ne_fault : execRbDrops s ≠ .fault f := by unfold execRbDrops; (repeat' split) <;> simp

theorem execCanrxInit_ne_fault : execCanrxInit s ≠ .fault f := by unfold execCanrxInit; (repeat' split) <;> simp

theorem execCanrxDrops_ne_fault {tgt : Byte} : execCanrxDrops tgt s ≠ .fault f := by
  unfold execCanrxDrops; (repeat' split) <;> simp

theorem execEthtxSend_ne_fault : execEthtxSend s ≠ .fault f := by unfold execEthtxSend; (repeat' split) <;> simp

/-- The operations that neither push nor pop never stop, and where the others do, an index names no slot. -/
theorem exec_fault {i : Instr} (h : exec i s = .fault f) :
    (∃ b, s.rb[s.port.port]? = some b ∧ f = .slotIndexOutOfRange (.rb s.port.port) ∧ b.phase = .ready
        ∧ ((i = .rbPush ∧ s.port.issuer = .producer (.rb s.port.port) ∧ b.slots.length ≤ b.wr)
          ∨ (i = .rbPop ∧ s.port.issuer = .consumer ∧ s.cs = true ∧ b.slots.length ≤ b.rd)))
      ∨ ∃ c : Controller, f = .slotIndexOutOfRange (.canBuf c) ∧ (s.can.buf c).phase = .ready
        ∧ ((i = .canrxWrite c.tgt ∧ s.port.issuer = .producer (.can c)
              ∧ s.port.ops.length.toNat ≤ s.params.canPayloadMax
              ∧ s.port.ops.length.toNat ≤ RegionStore.size s.caller s.port.ops.data
              ∧ (s.can.buf c).slots.length ≤ (s.can.buf c).wr)
          ∨ (i = .canrxRead c.tgt ∧ s.port.issuer = .consumer ∧ s.cs = true
              ∧ (s.can.buf c).slots.length ≤ (s.can.buf c).rd)) := by
  cases i with
  | rbInit => exact absurd h execRbInit_ne_fault
  | rbPush =>
    obtain ⟨b, hb, hf, hp, hi, hwr⟩ := execRbPush_fault h
    exact .inl ⟨b, hb, hf, hp, .inl ⟨rfl, hi, hwr⟩⟩
  | rbPop =>
    obtain ⟨b, hb, hf, hp, hi, hcs, hrd⟩ := execRbPop_fault h
    exact .inl ⟨b, hb, hf, hp, .inr ⟨rfl, hi, hcs, hrd⟩⟩
  | rbDrops => exact absurd h execRbDrops_ne_fault
  | canrxInit => exact absurd h execCanrxInit_ne_fault
  | canrxWrite tgt =>
    obtain ⟨c, rfl, hf, hp, hi, hl, hr, hwr⟩ := execCanrxWrite_fault h
    exact .inr ⟨c, hf, hp, .inl ⟨rfl, hi, hl, hr, hwr⟩⟩
  | canrxRead tgt =>
    obtain ⟨c, rfl, hf, hp, hi, hcs, hrd⟩ := execCanrxRead_fault h
    exact .inr ⟨c, hf, hp, .inr ⟨rfl, hi, hcs, hrd⟩⟩
  | canrxDrops tgt => exact absurd h execCanrxDrops_ne_fault
  | ethtxSend => exact absurd h execEthtxSend_ne_fault

/-- At the port of an instance no RB.* operation is refused. -/
theorem portBuffer?_eq_none_of_refused {i : Instr} (hi : i.atPort) (h : exec i s = .refused g) :
    s.portBuffer? = none := by
  by_contra hb
  obtain ⟨b, hb⟩ := Option.ne_none_iff_exists'.mp hb
  revert h
  cases i with
  | rbInit => simp only [exec, execRbInit, hb]; (repeat' split) <;> simp
  | rbPush => simp only [exec, execRbPush, hb]; (repeat' split) <;> simp
  | rbPop => simp only [exec, execRbPop, hb]; (repeat' split) <;> simp
  | rbDrops => simp only [exec, execRbDrops, hb]; (repeat' split) <;> simp
  | _ => simp [Instr.atPort, Instr.op] at hi

theorem execCanrxInit_ne_refused : execCanrxInit s ≠ .refused g := by unfold execCanrxInit; (repeat' split) <;> simp

theorem execCanrxWrite_ne_refused {tgt : Byte} : execCanrxWrite tgt s ≠ .refused g := by
  unfold execCanrxWrite; (repeat' split) <;> simp [State.canPush_ne_refused]

theorem execCanrxRead_ne_refused {tgt : Byte} : execCanrxRead tgt s ≠ .refused g := by
  unfold execCanrxRead; (repeat' split) <;> simp

theorem execCanrxDrops_ne_refused {tgt : Byte} : execCanrxDrops tgt s ≠ .refused g := by
  unfold execCanrxDrops; (repeat' split) <;> simp

theorem execEthtxSend_ne_refused : execEthtxSend s ≠ .refused g := by unfold execEthtxSend; (repeat' split) <;> simp

/-- Only an RB.* operation at a port of no instance is refused. -/
theorem exec_refused {i : Instr} (h : exec i s = .refused g) :
    g = .noSuchPort s.port.port ∧ s.rb[s.port.port]? = none ∧ i.atPort := by
  suffices hi : i.atPort by
    have hb := portBuffer?_eq_none_of_refused hi h
    exact ⟨Host.Outcome.refused.inj (h.symm.trans (exec_of_noPort hi hb)), hb, hi⟩
  cases i with
  | rbInit => exact .inl rfl
  | rbPush => exact .inr (.inl rfl)
  | rbPop => exact .inr (.inr (.inl rfl))
  | rbDrops => exact .inr (.inr (.inr rfl))
  | canrxInit => exact absurd h execCanrxInit_ne_refused
  | canrxWrite tgt => exact absurd h execCanrxWrite_ne_refused
  | canrxRead tgt => exact absurd h execCanrxRead_ne_refused
  | canrxDrops tgt => exact absurd h execCanrxDrops_ne_refused
  | ethtxSend => exact absurd h execEthtxSend_ne_refused

end Stops

end Machine

open Machine

/-- Settles O8: one branch of RB.PUSH per clause; on a READY instance the slot at `wr` decides what the push does. -/
theorem rbPushFollowsItsRule : Obligations.RbPushFollowsItsRule := by
  refine ⟨rfl, fun s b hb => ⟨exec_rbPush_of_other hb, exec_rbPush_of_uninit hb, fun sl hi hp hs => ⟨fun hv => ?_,
    fun hv => ?_⟩⟩⟩
  · exact exec_rbPush_of_push_some hb hi hp (RingBuffer.push_of_valid hs hv _)
  · exact exec_rbPush_of_push_some hb hi hp (RingBuffer.push_of_invalid hs hv _)

/-- Settles O25: one branch of ETHTX.SEND per clause, in the order of its checks. -/
theorem ethtxSendFollowsItsRule : Obligations.EthtxSendFollowsItsRule := by
  refine ⟨rfl, fun s => ⟨exec_ethtxSend_of_ctx_ne, exec_ethtxSend_of_busy, fun hc hf hl => ?_,
    exec_ethtxSend_of_shortRegion, exec_ethtxSend_of_longEnough⟩⟩
  rw [exec_ethtxSend_of_headerOnly hc hf hl]
  apply State.done_of_issuer
  exact State.ctx_eq_consumer.mp hc

/-- Settles O49: at power-up every instance is UNINIT and `eth.fsm` is IDLE, so a permitted operation comes to its
phase check, and a send to its region check. -/
theorem operationsBeforeInitFault : Obligations.OperationsBeforeInitFault := by
  intro p c i caller cs s hperm
  refine ⟨fun hop hport => ?_, fun d hi => ?_, ?_⟩
  · have hb : s.portBuffer? = some (RingBuffer.powerUp p.rb[c.port].capacity
        (List.replicate p.rb[c.port].recordBytes 0)) := by
      simp [s, State.portBuffer?, State.initial, RingBuffer.powerUpAll, hport]
    exact exec_rb_of_uninit hb rfl hop hperm
  · exact exec_canrx_of_uninit (by cases d <;> rfl) hi hperm
  · rintro rfl hl hr
    have hc : s.ctx = .consumer := State.ctx_eq_consumer.mpr (permitted_ethtxSend_iff.mp hperm)
    exact ⟨_, exec_ethtxSend_of_longEnough hc rfl hl hr, rfl, rfl⟩

/-- Settles O11: the stops found by `exec_fault` and `exec_refused` are met by the branches that stop. -/
theorem onlyTheNamedStopsStop : Obligations.OnlyTheNamedStopsStop := by
  intro i s
  refine ⟨fun hb hi => exec_of_noPort hi hb, fun f => exec_fault, fun b hb hp => ⟨?_, ?_⟩, fun c hp => ⟨?_, ?_⟩,
    fun r => exec_refused⟩
  · rintro rfl hi hwr
    exact exec_rbPush_of_push_none hb hi hp (RingBuffer.push_eq_none.mpr hwr)
  · rintro rfl hi hcs hrd
    exact exec_rbPop_of_stop hb hi hcs hp (RingBuffer.pop_eq_none.mpr hrd)
  · rintro rfl hi hl hr hwr
    rw [exec_canrxWrite_of_memRead_some (Controller.ofTgt_tgt c) hi hp hl
      (RegionStore.memRead_eq_some.mpr ⟨by rwa [Nat.zero_add], rfl⟩)]
    exact State.canPush_eq_fault.mpr ⟨hwr, rfl⟩
  · rintro rfl hi hcs hrd
    exact exec_canrxRead_of_stop hi hcs hp (RingBuffer.pop_eq_none.mpr hrd)

end Sys2Proof
end

section
/-! SUPPORT. Everything an operation can do, in one place: `Effect` names the kinds of next state that the meanings
have, and `RingBuffer.Moves` what any of them can do to one buffer. -/

namespace Sys2Proof.Machine

/-! ### What can happen to one buffer -/

section Moves

variable {α : Type}

/-- How an operation may change a buffer: not at all, by its INIT, by a push of a record, by a pop; each of the three only
where its condition holds. -/
inductive RingBuffer.Moves (mayPush : α → Prop) (mayInit mayPop : Prop) (b : RingBuffer α) : RingBuffer α → Prop where
  | stay : Moves mayPush mayInit mayPop b b
  | init (hp : b.phase = .uninit) (h : mayInit) : Moves mayPush mayInit mayPop b b.init
  | push {x : α} {r : ResultCode} {b' : RingBuffer α} (hp : b.phase = .ready) (h : mayPush x)
      (hq : b.push x = some (r, b')) : Moves mayPush mayInit mayPop b b'
  | pop {o : Option α} {b' : RingBuffer α} (hp : b.phase = .ready) (h : mayPop) (hq : b.pop = some (o, b')) :
      Moves mayPush mayInit mayPop b b'

variable {mayPush : α → Prop} {mayInit mayPop : Prop} {b b' : RingBuffer α}

theorem RingBuffer.phase_of_push {x : α} {r : ResultCode} (hq : b.push x = some (r, b')) : b'.phase = b.phase := by
  obtain ⟨sl, -, ⟨-, -, rfl⟩ | ⟨-, -, rfl⟩⟩ := RingBuffer.push_cases hq <;> rfl

theorem RingBuffer.phase_of_pop {o : Option α} (hq : b.pop = some (o, b')) : b'.phase = b.phase := by
  obtain ⟨sl, -, ⟨-, -, rfl⟩ | ⟨-, -, rfl⟩⟩ := RingBuffer.pop_cases hq <;> rfl

theorem Slot.changesOnlyBy_refl (x : Slot α) (P Q : Prop) : x.changesOnlyBy x P Q :=
  ⟨fun h h' => absurd (h.symm.trans h') (by decide), fun h h' => absurd (h.symm.trans h') (by decide),
    fun h => absurd rfl h⟩

/-- A push changes the slot at `wr` and no other, and that from Invalid to Valid. -/
theorem RingBuffer.changesOnlyBy_of_push {x : α} {r : ResultCode} (hq : b.push x = some (r, b')) {k : Nat}
    {old new : Slot α} (ho : b.slots[k]? = some old) (hn : b'.slots[k]? = some new) :
    old.changesOnlyBy new (k = b.wr) False := by
  obtain ⟨sl, hs, ⟨-, -, rfl⟩ | ⟨hv, -, rfl⟩⟩ := RingBuffer.push_cases hq
  · obtain rfl := Option.some.inj (ho.symm.trans hn)
    exact Slot.changesOnlyBy_refl _ _ _
  · by_cases hk : k = b.wr
    · subst hk
      obtain rfl := Option.some.inj (ho.symm.trans hs)
      rw [List.getElem?_set_self (RingBuffer.lt_capacity_of_getElem? hs)] at hn
      obtain rfl := Option.some.inj hn
      simp [Slot.changesOnlyBy, hv]
    · rw [List.getElem?_set_ne (Ne.symm hk)] at hn
      obtain rfl := Option.some.inj (ho.symm.trans hn)
      exact Slot.changesOnlyBy_refl _ _ _

/-- A pop changes the flag of the slot at `rd` and nothing else of any slot. -/
theorem RingBuffer.changesOnlyBy_of_pop {o : Option α} (hq : b.pop = some (o, b')) {k : Nat}
    {old new : Slot α} (ho : b.slots[k]? = some old) (hn : b'.slots[k]? = some new) :
    old.changesOnlyBy new False (k = b.rd) := by
  obtain ⟨sl, hs, ⟨-, -, rfl⟩ | ⟨hv, -, rfl⟩⟩ := RingBuffer.pop_cases hq
  · obtain rfl := Option.some.inj (ho.symm.trans hn)
    exact Slot.changesOnlyBy_refl _ _ _
  · by_cases hk : k = b.rd
    · subst hk
      obtain rfl := Option.some.inj (ho.symm.trans hs)
      rw [List.getElem?_set_self (RingBuffer.lt_capacity_of_getElem? hs)] at hn
      obtain rfl := Option.some.inj hn
      simp [Slot.changesOnlyBy]
    · rw [List.getElem?_set_ne (Ne.symm hk)] at hn
      obtain rfl := Option.some.inj (ho.symm.trans hn)
      exact Slot.changesOnlyBy_refl _ _ _

/-- INIT writes no record. -/
theorem RingBuffer.changesOnlyBy_of_init {k : Nat} {old new : Slot α} (ho : b.slots[k]? = some old)
    (hn : b.init.slots[k]? = some new) : old.changesOnlyBy new False True := by
  rw [RingBuffer.init_slots, List.getElem?_map, ho] at hn
  obtain rfl := Option.some.inj hn
  simp [Slot.changesOnlyBy]

theorem Slot.changesOnlyBy.imp {x y : Slot α} {P P' Q Q' : Prop} (h : x.changesOnlyBy y P Q) (hP : P → P')
    (hQ : Q → Q') : x.changesOnlyBy y P' Q' :=
  ⟨fun hx hy => hP (h.1 hx hy), fun hx hy => hQ (h.2.1 hx hy), h.2.2⟩

/-- The slots under a move (R23). -/
theorem RingBuffer.Moves.changesOnlyBy (h : b.Moves mayPush mayInit mayPop b') {k : Nat} {old new : Slot α}
    (ho : b.slots[k]? = some old) (hn : b'.slots[k]? = some new) :
    old.changesOnlyBy new (k = b.wr ∧ ∃ x, mayPush x) (mayInit ∨ (k = b.rd ∧ mayPop)) := by
  cases h with
  | stay =>
    obtain rfl := Option.some.inj (ho.symm.trans hn)
    exact Slot.changesOnlyBy_refl _ _ _
  | init _ h => exact (RingBuffer.changesOnlyBy_of_init ho hn).imp False.elim fun _ => .inl h
  | push _ h hq => exact (RingBuffer.changesOnlyBy_of_push hq ho hn).imp (fun hk => ⟨hk, _, h⟩) False.elim
  | pop _ h hq => exact (RingBuffer.changesOnlyBy_of_pop hq ho hn).imp False.elim fun hk => .inr ⟨hk, h⟩

/-- A phase moves only by INIT, from UNINIT to READY (R26). -/
theorem RingBuffer.Moves.phase (h : b.Moves mayPush mayInit mayPop b') :
    b'.phase = b.phase ∨ (mayInit ∧ b.phase = .uninit ∧ b'.phase = .ready) := by
  cases h with
  | stay => exact .inl rfl
  | init hp h => exact .inr ⟨h, hp, rfl⟩
  | push _ _ hq => exact .inl (RingBuffer.phase_of_push hq)
  | pop _ _ hq => exact .inl (RingBuffer.phase_of_pop hq)

theorem RingBuffer.Moves.ready (h : b.Moves mayPush mayInit mayPop b') (hp : b.phase = .ready) :
    b'.phase = .ready := by
  obtain hsame | ⟨-, -, hr⟩ := h.phase
  · exact hsame.trans hp
  · exact hr

/-- Before its INIT a buffer changes only by it (R26). -/
theorem RingBuffer.Moves.eq_of_uninit (h : b.Moves mayPush mayInit mayPop b') (hp : b.phase = .uninit)
    (hi : ¬ mayInit) : b' = b := by
  cases h with
  | stay => rfl
  | init _ h => exact absurd h hi
  | push hr => exact absurd (hp.symm.trans hr) (by simp)
  | pop hr => exact absurd (hp.symm.trans hr) (by simp)

theorem RingBuffer.Moves.mono {mayPush' : α → Prop} {mayInit' mayPop' : Prop} (h : b.Moves mayPush mayInit mayPop b')
    (hpush : ∀ x, mayPush x → mayPush' x) (hinit : mayInit → mayInit') (hpop : mayPop → mayPop') :
    b.Moves mayPush' mayInit' mayPop' b' := by
  cases h with
  | stay => exact .stay
  | init hp h => exact .init hp (hinit h)
  | push hp h hq => exact .push hp (hpush _ h) hq
  | pop hp h hq => exact .pop hp (hpop h) hq

end Moves

/-! ### What an operation can do -/

/-- The kinds of next state of the operations: F_CONTEXT for an issuer that is not permitted, another fault or an answer
that leaves the block as it is, and the eight that change it. -/
inductive Effect (s : State) : Instr → State → Prop where
  | notPermitted {i : Instr} (h : permitted i s.port.issuer s.port.port s.cs = false) :
      Effect s i (s.raise (s.contextFault i.op))
  | fault {i : Instr} {f : ModelFault} (hf : f.kind ∈ opFaults i.op) (hk : f.kind ≠ .context) : Effect s i (s.raise f)
  | answer {i : Instr} {r : ResultCode} {d : RespData} (hr : r ∈ opResults i.op) (hd : d.fits i.op r = true) :
      Effect s i (s.respond r d)
  | rbInit {b : RingBuffer Record} (hb : s.rb[s.port.port]? = some b) (hi : s.port.issuer = .startup)
      (hp : b.phase = .uninit) : Effect s .rbInit ((s.setPortBuffer b.init).respond .ok .none)
  | rbPush {b b' : RingBuffer Record} {r : ResultCode} (hb : s.rb[s.port.port]? = some b)
      (hi : s.port.issuer = .producer (.rb s.port.port)) (hp : b.phase = .ready)
      (hq : b.push s.port.ops.item = some (r, b')) : Effect s .rbPush ((s.setPortBuffer b').respond r .none)
  | rbPop {b b' : RingBuffer Record} {v : Record} (hb : s.rb[s.port.port]? = some b)
      (hi : s.port.issuer = .consumer) (hcs : s.cs = true) (hp : b.phase = .ready) (hq : b.pop = some (some v, b')) :
      Effect s .rbPop ((s.setPortBuffer b').respond .ok (.record v))
  | canrxInit (hi : s.port.issuer = .startup) (h0 : s.can.buf0.phase = .uninit) (h1 : s.can.buf1.phase = .uninit) :
      Effect s .canrxInit
        (State.respond { s with can := { buf0 := s.can.buf0.init, buf1 := s.can.buf1.init } } .ok .none)
  | canrxWrite {c : Controller} {bytes : List Byte} {r : ResultCode} {b : RingBuffer CanFrame} {n : Nat}
      (hi : s.port.issuer = .producer (.can c)) (hp : (s.can.buf c).phase = .ready)
      (hl : s.port.ops.length.toNat ≤ s.params.canPayloadMax)
      (hm : RegionStore.memRead s.caller s.port.ops.data 0 s.port.ops.length.toNat = some bytes)
      (hq : (s.can.buf c).push (s.canRecord c s.port.ops.rawId s.port.ops.length bytes) = some (r, b)) :
      Effect s (.canrxWrite c.tgt) (((s.setCanBuf c b).addDraws c n).respond r .none)
  | canrxRead {c : Controller} {f : CanFrame} {b : RingBuffer CanFrame} (hi : s.port.issuer = .consumer)
      (hcs : s.cs = true) (hp : (s.can.buf c).phase = .ready) (hq : (s.can.buf c).pop = some (some f, b)) :
      Effect s (.canrxRead c.tgt) ((s.setCanBuf c b).respond .ok (.frame f))
  | sendMalformed (hi : s.port.issuer = .consumer) (hf : s.eth.fsm = .idle) :
      Effect s .ethtxSend
        (State.respond { s with eth := { s.eth with result := .malformedFrame } } .malformedFrame .none)
  | sendStarts (hi : s.port.issuer = .consumer) (hf : s.eth.fsm = .idle) (hl : 14 < s.port.ops.len.toNat)
      (hr : s.port.ops.len.toNat ≤ RegionStore.size s.caller s.port.ops.frame) :
      Effect s .ethtxSend s.sendStarted

theorem State.addDraws_zero (s : State) (c : Controller) : s.addDraws c 0 = s := by cases c <;> rfl

section ExecEffect

variable {s t : State}

theorem execRbInit_effect (h : execRbInit s = .next t) : Effect s .rbInit t := by
  obtain ⟨b, hb, ⟨hi, rfl⟩ | ⟨-, -, rfl⟩ | ⟨hi, hp, rfl⟩⟩ := execRbInit_next h
  · exact .notPermitted (Bool.eq_false_iff.mpr fun hp => hi (permitted_rbInit_iff.mp hp))
  · exact .fault (by simp [opFaults, Instr.op, ModelFault.kind]) (by simp [ModelFault.kind])
  · exact .rbInit hb hi hp

theorem execRbPush_effect (h : execRbPush s = .next t) : Effect s .rbPush t := by
  obtain ⟨b, hb, ⟨hi, rfl⟩ | ⟨-, -, rfl⟩ | ⟨hi, hp, r, b', hq, rfl⟩⟩ := execRbPush_next h
  · exact .notPermitted (Bool.eq_false_iff.mpr fun hp => hi (permitted_rbPush_iff.mp hp))
  · exact .fault (by simp [opFaults, Instr.op, ModelFault.kind]) (by simp [ModelFault.kind])
  · exact .rbPush hb hi hp hq

theorem execRbPop_effect (h : execRbPop s = .next t) : Effect s .rbPop t := by
  obtain ⟨b, hb, ⟨hi, rfl⟩ | ⟨-, -, -, rfl⟩ | ⟨hi, hcs, hp, ⟨-, rfl⟩ | ⟨v, b', hq, rfl⟩⟩⟩ := execRbPop_next h
  · refine .notPermitted (Bool.eq_false_iff.mpr fun hp => ?_)
    obtain ⟨hc, hcs⟩ := permitted_rbPop_iff.mp hp
    exact hi.elim (· hc) (by simp [hcs])
  · exact .fault (by simp [opFaults, Instr.op, ModelFault.kind]) (by simp [ModelFault.kind])
  · exact .answer (by simp [opResults, Instr.op]) rfl
  · exact .rbPop hb hi hcs hp hq

theorem execRbDrops_effect (h : execRbDrops s = .next t) : Effect s .rbDrops t := by
  obtain ⟨b, -, ⟨-, rfl⟩ | ⟨-, rfl⟩⟩ := execRbDrops_next h
  · exact .fault (by simp [opFaults, Instr.op, ModelFault.kind]) (by simp [ModelFault.kind])
  · exact .answer (by simp [opResults, Instr.op]) rfl

theorem execCanrxInit_effect (h : execCanrxInit s = .next t) : Effect s .canrxInit t := by
  obtain ⟨hi, rfl⟩ | ⟨-, -, rfl⟩ | ⟨hi, h0, h1, rfl⟩ := execCanrxInit_next h
  · exact .notPermitted (Bool.eq_false_iff.mpr fun hp => hi (permitted_canrxInit_iff.mp hp))
  · exact .fault (by simp [opFaults, Instr.op, ModelFault.kind]) (by simp [ModelFault.kind])
  · exact .canrxInit hi h0 h1

theorem execCanrxWrite_effect {tgt : Byte} (h : execCanrxWrite tgt s = .next t) : Effect s (.canrxWrite tgt) t := by
  obtain ⟨hi, rfl⟩ | ⟨p, hi, hcase⟩ := execCanrxWrite_next h
  · refine .notPermitted (Bool.eq_false_iff.mpr fun hp => ?_)
    obtain ⟨p, hp, -⟩ := permitted_canrxWrite_iff.mp hp
    exact hi p hp
  obtain ⟨-, rfl⟩ | ⟨c, ht, hcase⟩ := hcase
  · exact .answer (by simp [opResults, Instr.op]) rfl
  obtain ⟨hother, rfl⟩ | ⟨-, -, rfl⟩ | ⟨-, -, -, rfl⟩ | ⟨rfl, hp, hl, ⟨-, rfl⟩ | ⟨bytes, hm, hpush⟩⟩ := hcase
  · refine .notPermitted (Bool.eq_false_iff.mpr fun hp => ?_)
    obtain ⟨p', hp', hown⟩ := permitted_canrxWrite_iff.mp hp
    exact hother ((Issuer.producer.inj (hi.symm.trans hp')).trans (hown c ht))
  · exact .fault (by simp [opFaults, Instr.op, ModelFault.kind]) (by simp [ModelFault.kind])
  · exact .answer (by simp [opResults, Instr.op]) rfl
  · exact .fault (by simp [opFaults, Instr.op, ModelFault.kind]) (by simp [ModelFault.kind])
  · obtain rfl := Controller.tgt_of_ofTgt ht
    obtain ⟨r, b, hq, ⟨rfl, rfl⟩ | ⟨rfl, rfl⟩⟩ := State.canPush_next hpush
    · exact .canrxWrite hi hp hl hm hq
    · rw [← State.addDraws_zero (s.setCanBuf c b) c]
      exact .canrxWrite hi hp hl hm hq

theorem execCanrxRead_effect {tgt : Byte} (h : execCanrxRead tgt s = .next t) : Effect s (.canrxRead tgt) t := by
  obtain ⟨hi, rfl⟩ | ⟨hi, hcs, hcase⟩ := execCanrxRead_next h
  · refine .notPermitted (Bool.eq_false_iff.mpr fun hp => ?_)
    obtain ⟨hc, hcs⟩ := permitted_canrxRead_iff.mp hp
    exact hi.elim (· hc) (by simp [hcs])
  obtain ⟨-, rfl⟩ | ⟨c, ht, ⟨-, rfl⟩ | ⟨hp, ⟨-, rfl⟩ | ⟨f, b, hq, rfl⟩⟩⟩ := hcase
  · exact .answer (by simp [opResults, Instr.op]) rfl
  · exact .fault (by simp [opFaults, Instr.op, ModelFault.kind]) (by simp [ModelFault.kind])
  · exact .answer (by simp [opResults, Instr.op]) rfl
  · obtain rfl := Controller.tgt_of_ofTgt ht
    exact .canrxRead hi hcs hp hq

theorem execCanrxDrops_effect {tgt : Byte} (h : execCanrxDrops tgt s = .next t) : Effect s (.canrxDrops tgt) t := by
  obtain ⟨-, rfl⟩ | ⟨c, -, ⟨-, rfl⟩ | ⟨-, rfl⟩⟩ := execCanrxDrops_next h
  · exact .answer (by simp [opResults, Instr.op]) rfl
  · exact .fault (by simp [opFaults, Instr.op, ModelFault.kind]) (by simp [ModelFault.kind])
  · exact .answer (by simp [opResults, Instr.op]) rfl

theorem execEthtxSend_effect (h : execEthtxSend s = .next t) : Effect s .ethtxSend t := by
  obtain ⟨hi, rfl⟩ | ⟨hi, ⟨-, rfl⟩ | ⟨hf, -, rfl⟩ | ⟨-, -, -, rfl⟩ | ⟨hf, hl, hr, rfl⟩⟩ := execEthtxSend_next h
  · exact .notPermitted (Bool.eq_false_iff.mpr fun hp => hi (permitted_ethtxSend_iff.mp hp))
  · exact .fault (by simp [opFaults, Instr.op, ModelFault.kind]) (by simp [ModelFault.kind])
  · exact .sendMalformed hi hf
  · exact .fault (by simp [opFaults, Instr.op, ModelFault.kind]) (by simp [ModelFault.kind])
  · exact .sendStarts hi hf hl hr

/-- Every next state of an operation is one of these. -/
theorem exec_effect {i : Instr} (h : exec i s = .next t) : Effect s i t := by
  cases i with
  | rbInit => exact execRbInit_effect h
  | rbPush => exact execRbPush_effect h
  | rbPop => exact execRbPop_effect h
  | rbDrops => exact execRbDrops_effect h
  | canrxInit => exact execCanrxInit_effect h
  | canrxWrite tgt => exact execCanrxWrite_effect h
  | canrxRead tgt => exact execCanrxRead_effect h
  | canrxDrops tgt => exact execCanrxDrops_effect h
  | ethtxSend => exact execEthtxSend_effect h

end ExecEffect

/-! ### What every operation leaves unchanged -/

section Frame

variable {s t : State} {i : Instr} (h : Effect s i t)

include h

theorem Effect.params : t.params = s.params := by cases h <;> first | rfl | simp
theorem Effect.caller : t.caller = s.caller := by cases h <;> first | rfl | simp
theorem Effect.driver : t.driver = s.driver := by cases h <;> first | rfl | simp
theorem Effect.inputs : t.inputs = s.inputs := by cases h <;> first | rfl | simp
theorem Effect.port : t.port = s.port := by cases h <;> first | rfl | simp
theorem Effect.cs : t.cs = s.cs := by cases h <;> first | rfl | simp
theorem Effect.task : t.task = s.task := by cases h <;> first | rfl | simp
theorem Effect.ended : t.ended = s.ended := by cases h <;> first | rfl | simp

/-- Only a command of the CONSUMER, while no send is in progress, changes EthTxAssembler, and it is ETHTX.SEND. -/
theorem Effect.eth : (t.eth = s.eth ∧ t.driverRequest = s.driverRequest)
    ∨ (i = .ethtxSend ∧ s.port.issuer = .consumer ∧ s.eth.fsm = .idle) := by
  cases h with
  | canrxWrite => left; simp
  | sendMalformed hi hf => exact .inr ⟨rfl, hi, hf⟩
  | sendStarts hi hf => exact .inr ⟨rfl, hi, hf⟩
  | _ => exact .inl ⟨rfl, rfl⟩

theorem Effect.rb_length : t.rb.length = s.rb.length := by
  cases h with
  | rbInit => exact List.length_set
  | rbPush => exact List.length_set
  | rbPop => exact List.length_set
  | canrxWrite => simp
  | _ => rfl

end Frame

/-! ### What an operation does to each buffer -/

/-- The frame a write stores is well formed (R27, R121, R122). -/
theorem State.canRecord_wellFormed {s : State} {c : Controller} {rawId : Word} {length : Byte} {bytes : List Byte}
    {ref : Nat} (hl : length.toNat ≤ s.params.canPayloadMax)
    (hm : RegionStore.memRead s.caller ref 0 length.toNat = some bytes) :
    (s.canRecord c rawId length bytes).wellFormed s.params = true := by
  have hid : normalise s.params.extMarkerMask rawId &&& s.params.extMarkerMask = 0 := by
    rw [normalise, BitVec.and_assoc, BitVec.and_comm (~~~_), BitVec.and_not_self]; exact BitVec.and_zero
  simp only [CanFrame.wellFormed, Bool.and_eq_true, decide_eq_true_eq]
  exact ⟨⟨hl, State.canRecord_data_length hm hl⟩, hid⟩

section Buffers

variable {s t : State} {i : Instr}

/-- One instance of a list is replaced: what each instance becomes. -/
theorem getElem?_set_moves {l : List (RingBuffer Record)} {n p : Nat} {b b' c : RingBuffer Record}
    {mayPush : Record → Prop} {mayInit mayPop : Prop} (hb : l[n]? = some b) (hc : l[p]? = some c)
    (hmove : p = n → b.Moves mayPush mayInit mayPop b') :
    ∃ c', (l.set n b')[p]? = some c' ∧ c.Moves mayPush mayInit mayPop c' := by
  by_cases hp : p = n
  · subst hp
    obtain rfl := Option.some.inj (hb.symm.trans hc)
    exact ⟨b', List.getElem?_set_self (List.getElem?_eq_some_iff.mp hb).1, hmove rfl⟩
  · exact ⟨c, by rw [List.getElem?_set_ne (Ne.symm hp), hc], .stay⟩

/-- A generic instance moves only by its own operation, issued at its port by the agent that may issue it (R33, R179). -/
theorem Effect.rb_moves (h : Effect s i t) {p : Nat} {c : RingBuffer Record} (hc : s.rb[p]? = some c) :
    ∃ c', t.rb[p]? = some c' ∧ c.Moves
      (fun x => i = .rbPush ∧ p = s.port.port ∧ s.port.issuer = .producer (.rb p) ∧ x = s.port.ops.item)
      (i = .rbInit ∧ p = s.port.port ∧ s.port.issuer = .startup)
      (i = .rbPop ∧ p = s.port.port ∧ s.port.issuer = .consumer ∧ s.cs = true) c' := by
  cases h with
  | rbInit hb hi hp => exact getElem?_set_moves hb hc fun hn => .init hp ⟨rfl, hn, hi⟩
  | rbPush hb hi hp hq => exact getElem?_set_moves hb hc fun hn => .push hp ⟨rfl, hn, hn ▸ hi, rfl⟩ hq
  | rbPop hb hi hcs hp hq => exact getElem?_set_moves hb hc fun hn => .pop hp ⟨rfl, hn, hi, hcs⟩ hq
  | canrxWrite => exact ⟨c, by simpa using hc, .stay⟩
  | _ => exact ⟨c, hc, .stay⟩

/-- A CAN buffer moves only by its own operation, issued by the agent that may issue it, CANRX.INIT moving both; and the
frames pushed are well formed. -/
theorem Effect.can_moves (h : Effect s i t) (d : Controller) :
    (s.can.buf d).Moves
      (fun f => i = .canrxWrite d.tgt ∧ s.port.issuer = .producer (.can d) ∧ f.wellFormed s.params = true)
      (i = .canrxInit ∧ s.port.issuer = .startup ∧ (∀ e, (s.can.buf e).phase = .uninit)
        ∧ ∀ e, (t.can.buf e).phase = .ready)
      (i = .canrxRead d.tgt ∧ s.port.issuer = .consumer ∧ s.cs = true) (t.can.buf d) := by
  cases h with
  | canrxInit hi h0 h1 =>
    have hboth : ∀ e, (s.can.buf e).phase = .uninit := fun e => by cases e <;> assumption
    have hready : ∀ e, (CanRxDemux.buf ⟨s.can.buf0.init, s.can.buf1.init⟩ e).phase = .ready := fun e => by
      cases e <;> rfl
    have hbuf : CanRxDemux.buf ⟨s.can.buf0.init, s.can.buf1.init⟩ d = (s.can.buf d).init := by cases d <;> rfl
    show RingBuffer.Moves _ _ _ _ (CanRxDemux.buf ⟨s.can.buf0.init, s.can.buf1.init⟩ d)
    rw [hbuf]
    exact .init (hboth d) ⟨rfl, hi, hboth, hready⟩
  | @canrxWrite c _ _ b _ hi hp hl hm hq =>
    simp only [State.respond_can, State.addDraws_can, State.setCanBuf_can]
    by_cases hd : d = c
    · subst hd
      rw [CanRxDemux.buf_setBuf_self]
      exact .push hp ⟨rfl, hi, State.canRecord_wellFormed hl hm⟩ hq
    · rw [CanRxDemux.buf_setBuf_other _ _ _ _ hd]
      exact .stay
  | @canrxRead c _ b hi hcs hp hq =>
    simp only [State.respond_can, State.setCanBuf_can]
    by_cases hd : d = c
    · subst hd
      rw [CanRxDemux.buf_setBuf_self]
      exact .pop hp ⟨rfl, hi, hcs⟩ hq
    · rw [CanRxDemux.buf_setBuf_other _ _ _ _ hd]
      exact .stay
  | _ => exact .stay

end Buffers

end Sys2Proof.Machine
end

section
/-! SUPPORT. Everything a step can do, in one place: which step is chosen, when it is enabled, and `StepEffect`, the
kinds of next state that a step has. -/

namespace Sys2Proof.Machine

/-! ### The chosen step -/

section Chosen

variable {s : State} {c : Choice}

theorem State.chosen_mem (hc : s.choose s.inputs = some c) : c.chosen ∈ s.inputs := by
  rw [(State.choose_eq_some hc).1]
  simp

theorem State.mem_of_mem_remaining (hc : s.choose s.inputs = some c) {x : Input} (hx : x ∈ c.remaining) :
    x ∈ s.inputs := by
  rw [(State.choose_eq_some hc).1]
  simp only [Choice.remaining, List.mem_append] at hx
  simp only [List.mem_append, List.mem_cons]
  tauto

/-- The oldest enabled step is the one chosen. -/
theorem State.choose_append {before after : List Input} {x : Input} (hb : ∀ y ∈ before, y.enabled s = false)
    (hx : x.enabled s = true) :
    s.choose (before ++ x :: after) = some { before := before, chosen := x, after := after } := by
  induction before with
  | nil => simp [State.choose, hx]
  | cons y ys ih =>
    have ih := ih fun z hz => hb z (List.mem_cons_of_mem _ hz)
    simp [State.choose, hb y List.mem_cons_self, ih]

/-- A step other than a power-up is chosen only in a run that is not over, with no fault recorded (R172). -/
theorem State.running_of_chosen (hc : s.choose s.inputs = some c) (hx : c.chosen ≠ .powerUp) :
    s.ended = false ∧ s.faulted = none ∧ c.chosen.enabledUnfaulted s = true := by
  obtain ⟨he, hp | ⟨hf, hu⟩⟩ := Input.enabled_cases (State.choose_eq_some hc).2.1
  · exact absurd hp hx
  · exact ⟨he, hf, hu⟩

theorem State.issuer_enabled_of_chosen {x : Command} (hc : s.choose s.inputs = some c) (hx : c.chosen = .command x) :
    x.issuer.enabled s = true := by
  have hu := (State.running_of_chosen hc (by simp [hx])).2.2
  rwa [hx] at hu

theorem Issuer.enabled_startup_iff : Issuer.enabled s .startup = true ↔ s.task = .startup := beq_iff_eq

theorem Issuer.enabled_consumer_iff : Issuer.enabled s .consumer = true ↔ s.eth.fsm = .idle := beq_iff_eq

theorem Issuer.enabled_producer_iff {p : Producer} :
    Issuer.enabled s (.producer p) = true ↔ s.cs = false ∧ p.exists? s = true := by
  rw [Issuer.enabled, Bool.and_eq_true, Bool.not_eq_true']

theorem State.idle_of_chosen_cs (hc : s.choose s.inputs = some c) (hx : c.chosen = .csEnter ∨ c.chosen = .csExit) :
    s.eth.fsm = .idle := by
  have hu := (State.running_of_chosen hc (by rcases hx with hx | hx <;> simp [hx])).2.2
  rcases hx with hx | hx <;> rw [hx] at hu <;> exact Issuer.enabled_consumer_iff.mp hu

theorem State.acquire_of_chosen {a : ProvideAnswer} (hc : s.choose s.inputs = some c)
    (hx : c.chosen = .provideAnswer a) : s.eth.fsm = .acquire := by
  have hu := (State.running_of_chosen hc (by simp [hx])).2.2
  rw [hx] at hu
  exact (Input.provideAnswer_enabledUnfaulted_iff a).mp hu

theorem Input.transmitAnswer_enabledUnfaulted_iff (a : TransmitStatus) :
    (Input.transmitAnswer a).enabledUnfaulted s = true ↔ s.eth.fsm = .submit :=
  beq_iff_eq

theorem State.submit_of_chosen {a : TransmitStatus} (hc : s.choose s.inputs = some c)
    (hx : c.chosen = .transmitAnswer a) : s.eth.fsm = .submit := by
  have hu := (State.running_of_chosen hc (by simp [hx])).2.2
  rw [hx] at hu
  exact (Input.transmitAnswer_enabledUnfaulted_iff a).mp hu

theorem State.internalEnabled_of_chosen (hc : s.choose s.inputs = some c) (hx : c.chosen = .internal) :
    s.internalEnabled = true := by
  have hu := (State.running_of_chosen hc (by simp [hx])).2.2
  rwa [hx] at hu

/-- The frame image of a send is not lent while the send is in progress (R66; log 12). -/
theorem State.frame_ne_of_chosen {ref : Nat} {bytes : List Byte} (hc : s.choose s.inputs = some c)
    (hx : c.chosen = .lendCaller ref bytes) (hf : s.eth.fsm ≠ .idle) : s.eth.frame ≠ ref := by
  have hu := (State.running_of_chosen hc (by simp [hx])).2.2
  rw [hx, Input.enabledUnfaulted, Bool.or_eq_true, beq_iff_eq, bne_iff_ne] at hu
  exact hu.resolve_left hf

end Chosen

/-! ### The kinds of step -/

/-- `s` with command `x` at the port and `rest` still pending, in the CONSUMER's loop if the command is the CONSUMER's. -/
def State.atCommand (s : State) (rest : List Input) (x : Command) : State :=
  { s with inputs := rest, port := x, task := if x.issuer = .consumer then .consumer else s.task }

section AtCommand

variable (s : State) (rest : List Input) (x : Command)

@[simp] theorem State.atCommand_params : (s.atCommand rest x).params = s.params := rfl
@[simp] theorem State.atCommand_rb : (s.atCommand rest x).rb = s.rb := rfl
@[simp] theorem State.atCommand_can : (s.atCommand rest x).can = s.can := rfl
@[simp] theorem State.atCommand_eth : (s.atCommand rest x).eth = s.eth := rfl
@[simp] theorem State.atCommand_cs : (s.atCommand rest x).cs = s.cs := rfl
@[simp] theorem State.atCommand_task :
    (s.atCommand rest x).task = if x.issuer = .consumer then .consumer else s.task := rfl
@[simp] theorem State.atCommand_faulted : (s.atCommand rest x).faulted = s.faulted := rfl
@[simp] theorem State.atCommand_ended : (s.atCommand rest x).ended = s.ended := rfl
@[simp] theorem State.atCommand_driverRequest : (s.atCommand rest x).driverRequest = s.driverRequest := rfl
@[simp] theorem State.atCommand_caller : (s.atCommand rest x).caller = s.caller := rfl
@[simp] theorem State.atCommand_driver : (s.atCommand rest x).driver = s.driver := rfl
@[simp] theorem State.atCommand_port : (s.atCommand rest x).port = x := rfl
@[simp] theorem State.atCommand_inputs : (s.atCommand rest x).inputs = rest := rfl

end AtCommand

/-- The block's own step is taken, chosen from the pending ones or because none of them is enabled; `rest` stays. -/
def State.internalTurn (s : State) (rest : List Input) : Prop :=
  (s.choose s.inputs = none ∧ rest = s.inputs)
    ∨ ∃ c, s.choose s.inputs = some c ∧ c.chosen = .internal ∧ rest = c.remaining

/-- The kinds of next state of a step: a command with its operation's effect or with an illegal word, the CONSUMER's
critical section, the driver's two answers, the block's own steps, the two lends, and a power-up. -/
inductive StepEffect (s : State) : State → Prop where
  | command {c : Choice} {x : Command} {i : Instr} {t : State} (hc : s.choose s.inputs = some c)
      (hx : c.chosen = .command x) (hd : decode x.word = .ok i) (h : Effect (s.atCommand c.remaining x) i t) :
      StepEffect s t
  | illegal {c : Choice} {x : Command} (hc : s.choose s.inputs = some c) (hx : c.chosen = .command x) :
      StepEffect s ((s.atCommand c.remaining x).raise (.illegalCmd x.word))
  | cs {c : Choice} {b : Bool} (hc : s.choose s.inputs = some c) (hx : c.chosen = .csEnter ∨ c.chosen = .csExit) :
      StepEffect s { s with inputs := c.remaining, task := .consumer, cs := b, resp := none }
  | provideAnswer {c : Choice} {a : ProvideAnswer} (hc : s.choose s.inputs = some c)
      (hx : c.chosen = .provideAnswer a) :
      StepEffect s { s with
        inputs := c.remaining
        eth := { s.eth with
          provStatus := a.status, bufIdx := a.bufIdx, bufRef := a.bufPtr, granted := a.lengthInOut,
          fsm := .reconcile }
        driverRequest := none
        resp := none }
  | transmitAnswer {c : Choice} {a : TransmitStatus} {r : ResultCode} (hc : s.choose s.inputs = some c)
      (hx : c.chosen = .transmitAnswer a) (hr : r = .ok ∨ r = .driverBusy) :
      StepEffect s (State.completeSend { s with inputs := c.remaining, driverRequest := none } r)
  | waits (hc : s.choose s.inputs = none) (hf : s.eth.fsm = .idle ∨ s.eth.fsm = .acquire ∨ s.eth.fsm = .submit) :
      StepEffect s { s with resp := none }
  | acquireFails {rest : List Input} (hi : s.internalTurn rest) (hf : s.eth.fsm = .reconcile)
      (hg : s.eth.provStatus ≠ .ok ∨ s.eth.granted.toNat < s.eth.reqLen.toNat) :
      StepEffect s (State.completeSend { s with inputs := rest } .bufferAcquireFailed)
  | granted {rest : List Input} (hi : s.internalTurn rest) (hf : s.eth.fsm = .reconcile)
      (hs : s.eth.provStatus = .ok) (hg : s.eth.reqLen.toNat ≤ s.eth.granted.toNat) :
      StepEffect s { s with inputs := rest, eth := { s.eth with fsm := .copy }, resp := none }
  | copyFaults {rest : List Input} {f : ModelFault} (hi : s.internalTurn rest) (hf : s.eth.fsm = .copy) :
      StepEffect s (State.raise { s with inputs := rest } f)
  | copies {rest : List Input} {drv : RegionStore} {payload mac hdr : List Byte} (hi : s.internalTurn rest)
      (hf : s.eth.fsm = .copy)
      (hp : RegionStore.memRead s.caller s.eth.frame 14 s.eth.reqLen.toNat = some payload)
      (hw : RegionStore.memWrite s.driver s.eth.bufRef 0 payload = some drv) :
      StepEffect s (State.copied { s with inputs := rest } drv mac hdr)
  | lendCaller {c : Choice} {ref : Nat} {bytes : List Byte} (hc : s.choose s.inputs = some c)
      (hx : c.chosen = .lendCaller ref bytes) :
      StepEffect s { s with
        inputs := c.remaining, caller := RegionStore.lend s.caller ref (Region.ofBytes bytes), resp := none }
  | lendDriver {c : Choice} {ref : Nat} {bytes : List Byte} (hc : s.choose s.inputs = some c)
      (hx : c.chosen = .lendDriver ref bytes) :
      StepEffect s { s with
        inputs := c.remaining, driver := RegionStore.lend s.driver ref (Region.ofBytes bytes), resp := none }
  | powerUp {c : Choice} (hc : s.choose s.inputs = some c) (hx : c.chosen = .powerUp) :
      StepEffect s (State.powerUp { s with inputs := c.remaining })

theorem StepEffect.of_ethInternal {s t : State} {rest : List Input} (hi : s.internalTurn rest)
    (h : ethInternal { s with inputs := rest } = .next t) : StepEffect s t := by
  obtain ⟨hf, rfl⟩ | ⟨hf, hg, rfl⟩ | ⟨hf, hs, hg, rfl⟩ | ⟨hf, hcopy⟩ := ethInternal_next h
  · obtain ⟨hn, rfl⟩ | ⟨c, hc, hx, -⟩ := hi
    · exact .waits hn hf
    · have hen := State.internalEnabled_iff.mp (State.internalEnabled_of_chosen hc hx)
      rcases hf with hf | hf | hf <;> rcases hen with he | he <;> exact absurd (hf.symm.trans he) (by simp)
  · exact .acquireFails hi hf hg
  · exact .granted hi hf hs hg
  · obtain ⟨-, he⟩ | ⟨payload, hp, ⟨-, he⟩ | ⟨drv, mac, hdr, hw, -, -, he⟩⟩ := ethCopy_cases { s with inputs := rest }
    all_goals obtain rfl := Host.Outcome.next.inj (he.symm.trans hcopy)
    · exact .copyFaults hi hf
    · exact .copyFaults hi hf
    · exact .copies hi hf hp hw

theorem StepEffect.of_runCommand {s t : State} {c : Choice} {x : Command} (hc : s.choose s.inputs = some c)
    (hx : c.chosen = .command x)
    (h : runCommand x (State.enterTask { s with inputs := c.remaining } x.issuer) = .next t) : StepEffect s t := by
  rw [State.enterTask_eq] at h
  obtain ⟨i, hd, he⟩ | ⟨-, rfl⟩ := runCommand_next h
  · exact .command hc hx hd (exec_effect he)
  · exact .illegal hc hx

/-- Every next state of a step is one of these. -/
theorem step_effect {s t : State} (h : step s = .next t) : StepEffect s t := by
  obtain ⟨c, hc, -, ht⟩ | ⟨hn, -, -, ht⟩ := step_next h
  case inr => exact .of_ethInternal (.inl ⟨hn, rfl⟩) ht
  obtain ⟨x, hx, hrun⟩ | ⟨b, hx, rfl⟩ | ⟨a, hx, ha⟩ | ⟨a, r, hx, hr, rfl⟩ | ⟨hx, hi⟩
    | ⟨ref, bytes, ⟨hx, rfl⟩ | ⟨hx, rfl⟩⟩ | ⟨hx, rfl⟩ := takeInput_next ht
  · exact .of_runCommand hc hx hrun
  · exact .cs hc hx
  · obtain rfl := Host.Outcome.next.inj ha
    exact .provideAnswer hc hx
  · exact .transmitAnswer hc hx hr
  · exact .of_ethInternal (.inr ⟨c, hc, hx, rfl⟩) hi
  · exact .lendCaller hc hx
  · exact .lendDriver hc hx
  · exact .powerUp hc hx

/-- A step that is not the power-up. -/
def State.noPowerUp (s : State) : Prop := ∀ c : Choice, s.choose s.inputs = some c → c.chosen ≠ .powerUp

/-- What stays pending after a step was pending before it. -/
theorem StepEffect.inputs_subset {s t : State} (h : StepEffect s t) : ∀ x ∈ t.inputs, x ∈ s.inputs := by
  have hturn : ∀ {rest : List Input}, s.internalTurn rest → ∀ x ∈ rest, x ∈ s.inputs := by
    rintro rest (⟨-, rfl⟩ | ⟨c, hc, -, rfl⟩) x hx
    · exact hx
    · exact State.mem_of_mem_remaining hc hx
  cases h with
  | command hc _ _ h =>
    intro x hx
    rw [h.inputs] at hx
    exact State.mem_of_mem_remaining hc hx
  | illegal hc => exact fun x => State.mem_of_mem_remaining hc
  | cs hc => exact fun x => State.mem_of_mem_remaining hc
  | provideAnswer hc => exact fun x => State.mem_of_mem_remaining hc
  | transmitAnswer hc => exact fun x => State.mem_of_mem_remaining hc
  | waits => exact fun x => id
  | acquireFails hi => exact hturn hi
  | granted hi => exact hturn hi
  | copyFaults hi => exact hturn hi
  | copies hi => exact hturn hi
  | lendCaller hc => exact fun x => State.mem_of_mem_remaining hc
  | lendDriver hc => exact fun x => State.mem_of_mem_remaining hc
  | powerUp hc => exact fun x => State.mem_of_mem_remaining hc

theorem StepEffect.params {s t : State} (h : StepEffect s t) : t.params = s.params := by
  cases h with
  | command _ _ _ h => exact h.params
  | _ => rfl

/-! ### What a step does to each buffer -/

section Buffers

variable {s t : State}

/-- What a step that is no power-up does to a generic instance: nothing, or what a command does at its port. -/
theorem StepEffect.rb_moves (h : StepEffect s t) (hpu : s.noPowerUp) {p : Nat} {b : RingBuffer Record}
    (hb : s.rb[p]? = some b) :
    ∃ b', t.rb[p]? = some b' ∧ b.Moves
      (fun r => ∃ x, .command x ∈ s.inputs ∧ decode x.word = .ok .rbPush ∧ x.port = p ∧ x.ops.item = r)
      (s.task = .startup) True b' := by
  cases h with
  | @command c x i _ hc hx hd h =>
    obtain ⟨b', hb', hmove⟩ := h.rb_moves hb
    refine ⟨b', hb', hmove.mono ?_ ?_ fun _ => trivial⟩
    · rintro r ⟨rfl, rfl, -, rfl⟩
      exact ⟨x, hx ▸ State.chosen_mem hc, hd, rfl, rfl⟩
    · rintro ⟨-, -, hi⟩
      have hen := State.issuer_enabled_of_chosen hc hx
      rw [show x.issuer = .startup from hi] at hen
      exact Issuer.enabled_startup_iff.mp hen
  | powerUp hc hx => exact absurd hx (hpu _ hc)
  | _ => exact ⟨b, hb, .stay⟩

theorem StepEffect.can_moves (h : StepEffect s t) (hpu : s.noPowerUp) (d : Controller) :
    (s.can.buf d).Moves (fun f => f.wellFormed s.params = true) (s.task = .startup) True (t.can.buf d) := by
  cases h with
  | @command c x i _ hc hx hd h =>
    refine (h.can_moves d).mono (fun f hf => hf.2.2) ?_ fun _ => trivial
    rintro ⟨-, hi, -⟩
    have hen := State.issuer_enabled_of_chosen hc hx
    rw [show x.issuer = .startup from hi] at hen
    exact Issuer.enabled_startup_iff.mp hen
  | powerUp hc hx => exact absurd hx (hpu _ hc)
  | _ => exact .stay

theorem StepEffect.rb_length (h : StepEffect s t) (hpu : s.noPowerUp) : t.rb.length = s.rb.length := by
  cases h with
  | command _ _ _ h => exact h.rb_length
  | powerUp hc hx => exact absurd hx (hpu _ hc)
  | _ => rfl

/-- A step is a power-up, or none is chosen. -/
theorem StepEffect.powerUp_or (h : StepEffect s t) :
    (∃ c, s.choose s.inputs = some c ∧ c.chosen = .powerUp ∧ t = State.powerUp { s with inputs := c.remaining })
      ∨ s.noPowerUp := by
  have hno : ∀ {c : Choice}, s.choose s.inputs = some c → c.chosen ≠ .powerUp → s.noPowerUp := fun hc hx d hd =>
    Option.some.inj (hc.symm.trans hd) ▸ hx
  have hturn : ∀ {rest : List Input}, s.internalTurn rest → s.noPowerUp := by
    rintro rest (⟨hn, -⟩ | ⟨c, hc, hx, -⟩)
    · exact fun d hd => absurd (hn.symm.trans hd) (by simp)
    · exact hno hc (by simp [hx])
  cases h with
  | powerUp hc hx => exact .inl ⟨_, hc, hx, rfl⟩
  | command hc hx => exact .inr (hno hc (by simp [hx]))
  | illegal hc hx => exact .inr (hno hc (by simp [hx]))
  | cs hc hx => exact .inr (hno hc (by rcases hx with hx | hx <;> simp [hx]))
  | provideAnswer hc hx => exact .inr (hno hc (by simp [hx]))
  | transmitAnswer hc hx => exact .inr (hno hc (by simp [hx]))
  | waits hn => exact .inr fun d hd => absurd (hn.symm.trans hd) (by simp)
  | acquireFails hi => exact .inr (hturn hi)
  | granted hi => exact .inr (hturn hi)
  | copyFaults hi => exact .inr (hturn hi)
  | copies hi => exact .inr (hturn hi)
  | lendCaller hc hx => exact .inr (hno hc (by simp [hx]))
  | lendDriver hc hx => exact .inr (hno hc (by simp [hx]))

end Buffers

end Sys2Proof.Machine
end

section
/-! SUPPORT. What the kinds of effect say of outcomes, responses, frames, slots and phases (R23, R26, R33, R77, R173,
R179). -/

namespace Sys2Proof

open Machine

namespace Machine

theorem permitted_of_no_context {i : Instr} (h : FaultKind.context ∉ opFaults i.op) (a : Issuer) (port : Nat)
    (cs : Bool) : permitted i a port cs = true := by
  cases i <;> first | rfl | exact absurd (by simp [opFaults, Instr.op]) h

/-- F_CONTEXT is in the row of every operation that some agent may not issue (R173, R179). -/
theorem contextFault_kind_mem {i : Instr} {s : State} (h : permitted i s.port.issuer s.port.port s.cs = false) :
    (s.contextFault i.op).kind ∈ opFaults i.op := by
  by_contra hn
  exact absurd ((permitted_of_no_context hn _ _ _).symm.trans h) (by simp)

theorem push_result {α : Type} {b b' : RingBuffer α} {x : α} {r : ResultCode} (hq : b.push x = some (r, b')) :
    r = .ok ∨ r = .bufferFull := by
  obtain ⟨sl, -, ⟨-, rfl, -⟩ | ⟨-, rfl, -⟩⟩ := RingBuffer.push_cases hq
  · exact .inr rfl
  · exact .inl rfl

/-- An effect raises a fault of its row, answers its issuer with a result and data of its row, or starts a send. -/
theorem Effect.outcome {s t : State} {i : Instr} (h : Effect s i t) :
    (∃ f, t = s.raise f ∧ f.kind ∈ opFaults i.op)
      ∨ (t.faulted = s.faulted ∧ ∃ r, t.resp = some r ∧ r.result ∈ opResults i.op ∧ r.agent = s.port.issuer
          ∧ r.data.fits i.op r.result = true)
      ∨ (t = s.sendStarted ∧ i = .ethtxSend ∧ s.eth.fsm = .idle) := by
  cases h with
  | notPermitted h => exact .inl ⟨_, rfl, contextFault_kind_mem h⟩
  | fault hf => exact .inl ⟨_, rfl, hf⟩
  | answer hr hd => exact .inr (.inl ⟨rfl, _, rfl, hr, rfl, hd⟩)
  | rbInit => exact .inr (.inl ⟨rfl, _, rfl, by simp [opResults, Instr.op], rfl, rfl⟩)
  | rbPush _ _ _ hq =>
    refine .inr (.inl ⟨rfl, _, rfl, ?_, rfl, ?_⟩) <;> rcases push_result hq with rfl | rfl <;>
      simp [opResults, Instr.op, RespData.fits]
  | rbPop => exact .inr (.inl ⟨rfl, _, rfl, by simp [opResults, Instr.op], rfl, rfl⟩)
  | canrxInit => exact .inr (.inl ⟨rfl, _, rfl, by simp [opResults, Instr.op], rfl, rfl⟩)
  | canrxWrite _ _ _ _ hq =>
    refine .inr (.inl ⟨by simp, _, rfl, ?_, by simp, ?_⟩) <;> rcases push_result hq with rfl | rfl <;>
      simp [opResults, Instr.op, RespData.fits]
  | canrxRead => exact .inr (.inl ⟨rfl, _, rfl, by simp [opResults, Instr.op], rfl, rfl⟩)
  | sendMalformed => exact .inr (.inl ⟨rfl, _, rfl, by simp [opResults, Instr.op], rfl, rfl⟩)
  | sendStarts _ hf => exact .inr (.inr ⟨rfl, rfl, hf⟩)

/-- F_CONTEXT comes from the table alone. -/
theorem Effect.not_permitted_of_context {s t : State} {i : Instr} (h : Effect s i t) (hf : s.faulted = none)
    {f : ModelFault} (ht : t.faulted = some f) (hk : f.kind = .context) :
    permitted i s.port.issuer s.port.port s.cs = false := by
  cases h with
  | notPermitted h => exact h
  | fault _ hne => exact absurd (Option.some.inj ht ▸ hk) hne
  | canrxWrite => simp [hf] at ht
  | _ => exact absurd (hf.symm.trans ht) (by simp)

/-- R23 for the slots of every buffer under one operation. -/
theorem Effect.slotsFollow {s t : State} {i : Instr} (h : Effect s i t) : s.slotsFollow i s.port t := by
  refine ⟨fun p k b b' x y hb hb' hx hy => ?_, fun d k x y hx hy => ?_⟩
  · obtain ⟨c, hc, hmove⟩ := h.rb_moves hb
    obtain rfl := Option.some.inj (hb'.symm.trans hc)
    refine (hmove.changesOnlyBy hx hy).imp ?_ ?_
    · rintro ⟨hk, -, hi, hp, hissuer, -⟩
      exact ⟨hi, hp, hk, hissuer⟩
    · rintro (⟨hi, hp, hissuer⟩ | ⟨hk, hi, hp, hissuer, hcs⟩)
      · exact ⟨hp, .inl ⟨hi, hissuer⟩⟩
      · exact ⟨hp, .inr ⟨hi, hk, hissuer, hcs⟩⟩
  · refine ((h.can_moves d).changesOnlyBy hx hy).imp ?_ ?_
    · rintro ⟨hk, -, hi, hissuer, -⟩
      exact ⟨hi, hk, hissuer⟩
    · rintro (⟨hi, hissuer, -⟩ | ⟨hk, hi, hissuer, hcs⟩)
      · exact .inl ⟨hi, hissuer⟩
      · exact .inr ⟨hi, hk, hissuer, hcs⟩

/-- An RB.* operation works at its port and nowhere else (R33). -/
theorem Effect.atPort_frame {s t : State} {i : Instr} (h : Effect s i t) (hi : i.atPort) :
    t.can = s.can ∧ ∀ p, p ≠ s.port.port → t.rb[p]? = s.rb[p]? := by
  cases h with
  | rbInit => exact ⟨rfl, fun p hp => List.getElem?_set_ne (Ne.symm hp)⟩
  | rbPush => exact ⟨rfl, fun p hp => List.getElem?_set_ne (Ne.symm hp)⟩
  | rbPop => exact ⟨rfl, fun p hp => List.getElem?_set_ne (Ne.symm hp)⟩
  | canrxInit => simp [Instr.atPort, Instr.op] at hi
  | canrxWrite => simp [Instr.atPort, Instr.op] at hi
  | canrxRead => simp [Instr.atPort, Instr.op] at hi
  | _ => exact ⟨rfl, fun _ _ => rfl⟩

/-- Only the RB.* operations work on the generic instances (R33). -/
theorem Effect.rb_of_not_atPort {s t : State} {i : Instr} (h : Effect s i t) (hi : ¬ i.atPort) : t.rb = s.rb := by
  cases h with
  | rbInit => exact absurd (.inl rfl) hi
  | rbPush => exact absurd (.inr (.inl rfl)) hi
  | rbPop => exact absurd (.inr (.inr (.inl rfl))) hi
  | canrxWrite => simp
  | _ => rfl

/-- ETHTX.SEND works on no buffer (R33). -/
theorem Effect.can_of_ethtxSend {s t : State} (h : Effect s .ethtxSend t) : t.can = s.can := by
  cases h <;> rfl

/-- A CAN buffer that its operation's target does not name stays as it is (R125). -/
theorem Effect.buf_of_other_target {s t : State} {i : Instr} (h : Effect s i t) {tgt : Byte}
    (hi : i = .canrxWrite tgt ∨ i = .canrxRead tgt) {d : Controller} (hd : tgt.toNat ≠ d.number) :
    t.can.buf d = s.can.buf d := by
  have hne : ∀ {c : Controller}, c.tgt = tgt → d ≠ c := by
    rintro c hc rfl
    exact hd (Controller.toNat_of_ofTgt (hc ▸ Controller.ofTgt_tgt d))
  cases h with
  | canrxInit => simp at hi
  | canrxWrite =>
    have hc := hi.elim Instr.canrxWrite.inj (by simp)
    simp [CanRxDemux.buf_setBuf_other _ _ _ _ (hne hc)]
  | canrxRead =>
    have hc := hi.elim (by simp) Instr.canrxRead.inj
    simp [CanRxDemux.buf_setBuf_other _ _ _ _ (hne hc)]
  | _ => rfl

end Machine

/-- Settles O32: `exec_of_not_permitted` one way; the other way, no effect but `notPermitted` raises F_CONTEXT. -/
theorem contextFaultExactlyWhereNotPermitted : Obligations.ContextFaultExactlyWhereNotPermitted := by
  intro i s hf hport
  constructor
  · intro h
    exact (exec_effect h).not_permitted_of_context hf rfl rfl
  · exact exec_of_not_permitted hport

/-- Settles O34: the three kinds of outcome of `Effect.outcome`. -/
theorem outcomesAreInTheTable : Obligations.OutcomesAreInTheTable := by
  intro i s t hf h
  obtain ⟨f, rfl, hk⟩ | ⟨hft, r, hr, hres, ha, -⟩ | ⟨rfl, rfl, hidle⟩ := (exec_effect h).outcome
  · exact .inl ⟨f, rfl, hk, rfl⟩
  · exact .inr (.inl ⟨hft.trans hf, r, hr, hres, ha⟩)
  · exact .inr (.inr ⟨hf, rfl, rfl, hidle, rfl⟩)

/-- Settles O35: a fault and a started send return no response, and an answer's data fits. -/
theorem responsesCarryTheirData : Obligations.ResponsesCarryTheirData := by
  intro i s t r h hr
  obtain ⟨f, rfl, -⟩ | ⟨-, r', hr', -, -, hd⟩ | ⟨rfl, -, -⟩ := (exec_effect h).outcome
  · simp at hr
  · obtain rfl := Option.some.inj (hr.symm.trans hr')
    exact hd
  · simp [State.sendStarted] at hr

/-- Settles O37: the frame of every effect; the regions are the very same stores. -/
theorem commandsLeaveRegionsAndOtherStateAlone : Obligations.CommandsLeaveRegionsAndOtherStateAlone := by
  intro i s t hexec
  have h := exec_effect hexec
  refine ⟨fun _ _ => by rw [h.caller], fun _ _ => by rw [h.driver], h.params, h.inputs, h.port, h.cs, h.task, h.ended,
    fun hi => h.eth.resolve_right fun hs => hi hs.1, fun hi => ?_⟩
  obtain rfl : i = .ethtxSend := by cases i <;> first | rfl | cases hi
  exact ⟨h.rb_of_not_atPort (by simp [Instr.atPort, Instr.op]), h.can_of_ethtxSend⟩

/-- Settles O38: the three frames of the buffer operations. -/
theorem operationsTouchOnlyTheirInstance : Obligations.OperationsTouchOnlyTheirInstance := by
  intro i s t hexec
  have h := exec_effect hexec
  refine ⟨h.atPort_frame, fun hi => h.rb_of_not_atPort ?_, fun tgt hi d => h.buf_of_other_target hi⟩
  rintro (hp | hp | hp | hp) <;> simp [hp] at hi

/-- Settles O39: a command's effect on the slots is `Effect.slotsFollow`; no other step but a power-up touches an
instance. -/
theorem validFlagsChangeOnlyByTheirOperation : Obligations.ValidFlagsChangeOnlyByTheirOperation := by
  refine ⟨fun i s t h => (exec_effect h).slotsFollow, fun s t h hpu => ?_⟩
  cases step_effect h with
  | command hc hx hd h => exact .inr ⟨_, _, _, hc, hx, hd, h.slotsFollow⟩
  | powerUp hc hx => exact absurd hx (hpu _ hc)
  | _ => exact .inl ⟨rfl, rfl⟩

/-- Settles O40: `RingBuffer.Moves.phase` for each buffer, under an operation and under a step. -/
theorem phaseMovesOnlyFromUninitToReady : Obligations.PhaseMovesOnlyFromUninitToReady := by
  refine ⟨fun i s t hexec => ⟨fun p b b' hb hb' hne => ?_, fun d hne => ?_⟩, fun s t hstep hpu => ⟨fun p b hb hp => ?_,
    fun d hp => ((step_effect hstep).can_moves hpu d).ready hp⟩⟩
  · obtain ⟨c, hc, hmove⟩ := (exec_effect hexec).rb_moves hb
    obtain rfl := Option.some.inj (hb'.symm.trans hc)
    obtain ⟨⟨hi, hport, hissuer⟩, hu, hr⟩ := hmove.phase.resolve_left hne
    exact ⟨hi, hport, State.ctx_eq_startup.mpr hissuer, hu, hr⟩
  · obtain ⟨⟨hi, hissuer, hall, hready⟩, -, -⟩ := ((exec_effect hexec).can_moves d).phase.resolve_left hne
    exact ⟨hi, State.ctx_eq_startup.mpr hissuer, hall, hready⟩
  · obtain ⟨b', hb', hmove⟩ := (step_effect hstep).rb_moves hpu hb
    exact ⟨b', hb', hmove.ready hp⟩

end Sys2Proof
end

section
/-! SUPPORT. The seven invariants: what each needs of a move of one buffer and of the machine at power-up, and that every
step keeps it. -/

namespace Sys2Proof

namespace Machine

/-! ### The machine at power-up (R35, R190; log 1) -/

section PowerUp

variable {p : Config.Params}

theorem RingBuffer.getElem?_powerUpAll (i : Nat) : (RingBuffer.powerUpAll p)[i]? =
    (p.rb[i]?).map fun q => RingBuffer.powerUp q.capacity (List.replicate q.recordBytes 0) := by
  simp [RingBuffer.powerUpAll]

theorem RingBuffer.phase_of_mem_powerUpAll {b : RingBuffer Record} (hb : b ∈ RingBuffer.powerUpAll p) :
    b.phase = .uninit := by
  obtain ⟨q, -, rfl⟩ := List.mem_map.mp hb
  rfl

theorem RingBuffer.map_capacity_powerUpAll :
    (RingBuffer.powerUpAll p).map RingBuffer.capacity = p.rb.map (·.capacity) := by
  simp [RingBuffer.powerUpAll]

theorem CanRxDemux.phase_powerUp (c : Controller) : ((CanRxDemux.powerUp p).buf c).phase = .uninit := by
  cases c <;> rfl

/-- Every record at power-up has its type's size (log 1). -/
theorem RingBuffer.record_length_powerUpAll {i : Nat} {b : RingBuffer Record} {q : Config.RbParams}
    (hb : (RingBuffer.powerUpAll p)[i]? = some b) (hq : p.rb[i]? = some q) {sl : Slot Record} (hsl : sl ∈ b.slots) :
    sl.data.length = q.recordBytes := by
  rw [RingBuffer.getElem?_powerUpAll, hq] at hb
  obtain rfl := Option.some.inj hb
  obtain rfl := List.eq_of_mem_replicate hsl
  exact List.length_replicate

theorem RingBuffer.sound_of_uninit {α : Type} {b : RingBuffer α} (hp : b.phase = .uninit) : b.sound := fun hr =>
  absurd (hp.symm.trans hr) (by simp)

end PowerUp

/-! ### The invariants under a move of one buffer -/

section Moves

variable {α : Type} {mayPush : α → Prop} {mayInit mayPop : Prop} {b b' : RingBuffer α}

theorem RingBuffer.occupancy.of_push (h : b.occupancy) {x : α} {r : ResultCode} (hq : b.push x = some (r, b')) :
    b'.occupancy := by
  obtain ⟨sl, hs, ⟨-, -, rfl⟩ | ⟨hv, -, rfl⟩⟩ := RingBuffer.push_cases hq
  · exact h.withDrops _
  · exact h.pushed hs hv x

theorem RingBuffer.occupancy.of_pop (h : b.occupancy) {o : Option α} (hq : b.pop = some (o, b')) : b'.occupancy := by
  obtain ⟨sl, hs, ⟨-, -, rfl⟩ | ⟨hv, -, rfl⟩⟩ := RingBuffer.pop_cases hq
  · exact h
  · exact h.popped hs hv

theorem RingBuffer.Moves.sound (h : b.Moves mayPush mayInit mayPop b') (hN : 0 < b.capacity) (hb : b.sound) :
    b'.sound := by
  cases h with
  | stay => exact hb
  | init => exact fun _ => RingBuffer.occupancy_init hN
  | push hp _ hq => exact fun _ => (hb hp).of_push hq
  | pop hp _ hq => exact fun _ => (hb hp).of_pop hq

theorem RingBuffer.Moves.capacity (h : b.Moves mayPush mayInit mayPop b') : b'.capacity = b.capacity := by
  cases h with
  | stay => rfl
  | init => exact RingBuffer.capacity_init b
  | push _ _ hq =>
    obtain ⟨sl, -, ⟨-, -, rfl⟩ | ⟨-, -, rfl⟩⟩ := RingBuffer.push_cases hq
    · rfl
    · exact List.length_set
  | pop _ _ hq =>
    obtain ⟨sl, -, ⟨-, -, rfl⟩ | ⟨-, -, rfl⟩⟩ := RingBuffer.pop_cases hq
    · rfl
    · exact List.length_set

/-- Where a slot of the buffer after a move comes from: a slot before it with the same record, Valid if it is Valid now,
or a push. -/
theorem RingBuffer.Moves.slot_origin (h : b.Moves mayPush mayInit mayPop b') {new : Slot α} (hn : new ∈ b'.slots) :
    (∃ old ∈ b.slots, old.data = new.data ∧ (new.valid = true → old.valid = true ∧ b.phase = .ready ∨ b' = b))
      ∨ mayPush new.data := by
  cases h with
  | stay => exact .inl ⟨new, hn, rfl, fun _ => .inr rfl⟩
  | init =>
    obtain ⟨old, ho, rfl⟩ := List.mem_map.mp hn
    exact .inl ⟨old, ho, rfl, by simp⟩
  | push hp hx hq =>
    obtain ⟨sl, -, ⟨-, -, rfl⟩ | ⟨-, -, rfl⟩⟩ := RingBuffer.push_cases hq
    · exact .inl ⟨new, hn, rfl, fun hv => .inl ⟨hv, hp⟩⟩
    · obtain ho | rfl := List.mem_or_eq_of_mem_set hn
      · exact .inl ⟨new, ho, rfl, fun hv => .inl ⟨hv, hp⟩⟩
      · exact .inr hx
  | pop hp _ hq =>
    obtain ⟨sl, hs, ⟨-, -, rfl⟩ | ⟨-, -, rfl⟩⟩ := RingBuffer.pop_cases hq
    · exact .inl ⟨new, hn, rfl, fun hv => .inl ⟨hv, hp⟩⟩
    · obtain ho | rfl := List.mem_or_eq_of_mem_set hn
      · exact .inl ⟨new, ho, rfl, fun hv => .inl ⟨hv, hp⟩⟩
      · exact .inl ⟨sl, List.mem_of_getElem? hs, rfl, by simp⟩

/-- A property of records that every pushed record has stays true of all slots. -/
theorem RingBuffer.Moves.forall_slots (h : b.Moves mayPush mayInit mayPop b') {P : α → Prop}
    (hpush : ∀ x, mayPush x → P x) (hb : ∀ sl ∈ b.slots, P sl.data) : ∀ sl ∈ b'.slots, P sl.data := by
  intro new hn
  obtain ⟨old, ho, hdata, -⟩ | hx := h.slot_origin hn
  · exact hdata ▸ hb old ho
  · exact hpush _ hx

/-- A property of records that every pushed record has stays true of the Valid slots of a READY buffer. -/
theorem RingBuffer.Moves.forall_valid (h : b.Moves mayPush mayInit mayPop b') {P : α → Prop}
    (hpush : ∀ x, mayPush x → P x) (hb : b.phase = .ready → ∀ sl ∈ b.slots, sl.valid = true → P sl.data)
    (hr : b'.phase = .ready) : ∀ sl ∈ b'.slots, sl.valid = true → P sl.data := by
  intro new hn hv
  obtain ⟨old, ho, hdata, hold⟩ | hx := h.slot_origin hn
  · obtain ⟨hov, hp⟩ | rfl := hold hv
    · exact hdata ▸ hb hp old ho hov
    · exact hb hr new hn hv
  · exact hpush _ hx

end Moves

/-! ### The instances of a state under a step -/

section Rings

variable {s t : State}

theorem StepEffect.rb_origin (h : StepEffect s t) (hpu : s.noPowerUp) {p : Nat} {b' : RingBuffer Record}
    (hb' : t.rb[p]? = some b') :
    ∃ b, s.rb[p]? = some b ∧ b.Moves
      (fun r => ∃ x, .command x ∈ s.inputs ∧ decode x.word = .ok .rbPush ∧ x.port = p ∧ x.ops.item = r)
      (s.task = .startup) True b' := by
  have hlt : p < s.rb.length := h.rb_length hpu ▸ (List.getElem?_eq_some_iff.mp hb').1
  obtain ⟨c, hc, hmove⟩ := h.rb_moves hpu (List.getElem?_eq_getElem hlt)
  obtain rfl := Option.some.inj (hb'.symm.trans hc)
  exact ⟨_, List.getElem?_eq_getElem hlt, hmove⟩

theorem State.ringsSound_iff : s.ringsSound ↔ (∀ b ∈ s.rb, b.sound) ∧ ∀ c, (s.can.buf c).sound :=
  ⟨fun h => ⟨h.1, fun c => by cases c <;> [exact h.2.1; exact h.2.2]⟩, fun h => ⟨h.1, h.2 .can0, h.2 .can1⟩⟩

/-- R6, D11: every instance has a slot. -/
theorem State.shapeFixed.capacity_pos (h : s.shapeFixed) :
    (∀ b ∈ s.rb, 0 < b.capacity) ∧ ∀ c, 0 < (s.can.buf c).capacity := by
  obtain ⟨hwf, hrb, h0, h1⟩ := h
  simp only [Config.Params.wellFormed, Bool.and_eq_true, decide_eq_true_eq, List.all_eq_true] at hwf
  obtain ⟨⟨hall, hcan⟩, -⟩ := hwf
  constructor
  · intro b hb
    have hmem : b.capacity ∈ s.params.rb.map (·.capacity) := hrb ▸ List.mem_map_of_mem hb
    obtain ⟨q, hq, he⟩ := List.mem_map.mp hmem
    have hpos := hall q hq
    rw [Config.RbParams.wellFormed, decide_eq_true_eq] at hpos
    exact he ▸ hpos
  · intro c
    cases c
    · exact h0.symm ▸ hcan
    · exact h1.symm ▸ hcan

theorem State.ringsSound_of_uninit (hrb : ∀ b ∈ s.rb, b.phase = .uninit) (hcan : ∀ c, (s.can.buf c).phase = .uninit) :
    s.ringsSound :=
  State.ringsSound_iff.mpr
    ⟨fun b hb => RingBuffer.sound_of_uninit (hrb b hb), fun c => RingBuffer.sound_of_uninit (hcan c)⟩

theorem State.shapeFixed_of_powerUp (hwf : s.params.wellFormed = true) (hrb : s.rb = RingBuffer.powerUpAll s.params)
    (hcan : s.can = CanRxDemux.powerUp s.params) : s.shapeFixed := by
  refine ⟨hwf, hrb ▸ RingBuffer.map_capacity_powerUpAll, ?_, ?_⟩
  · rw [hcan]; exact RingBuffer.capacity_powerUp _ _
  · rw [hcan]; exact RingBuffer.capacity_powerUp _ _

end Rings

end Machine

open Machine

/-- Settles O51: `RingBuffer.Moves.sound` for each instance; at power-up none is READY. -/
theorem everyStepKeepsTheOccupancy : Obligations.EveryStepKeepsTheOccupancy := by
  intro s t hshape hsound hstep
  have h := step_effect hstep
  obtain ⟨hrbpos, hcanpos⟩ := hshape.capacity_pos
  obtain ⟨hrb, hcan⟩ := State.ringsSound_iff.mp hsound
  obtain ⟨c, -, -, rfl⟩ | hpu := h.powerUp_or
  · exact State.ringsSound_of_uninit (fun b => RingBuffer.phase_of_mem_powerUpAll) CanRxDemux.phase_powerUp
  refine State.ringsSound_iff.mpr ⟨fun b' hb' => ?_, fun d => (h.can_moves hpu d).sound (hcanpos d) (hcan d)⟩
  obtain ⟨p, hp⟩ := List.mem_iff_getElem?.mp hb'
  obtain ⟨b, hb, hmove⟩ := h.rb_origin hpu hp
  have hmem := List.mem_of_getElem? hb
  exact hmove.sound (hrbpos b hmem) (hrb b hmem)

/-- Settles O52: `RingBuffer.Moves.capacity` for each instance; at power-up the parameters give the sizes. -/
theorem everyStepKeepsTheShape : Obligations.EveryStepKeepsTheShape := by
  intro s t hshape hstep
  have h := step_effect hstep
  refine ⟨h.params, ?_⟩
  obtain ⟨c, -, -, rfl⟩ | hpu := h.powerUp_or
  · exact State.shapeFixed_of_powerUp hshape.1 rfl rfl
  obtain ⟨hwf, hrb, h0, h1⟩ := hshape
  have hcap : t.rb.map RingBuffer.capacity = s.rb.map RingBuffer.capacity := by
    refine List.ext_getElem? fun p => ?_
    rw [List.getElem?_map, List.getElem?_map]
    cases hb : s.rb[p]? with
    | none =>
      have hnone : t.rb[p]? = none := by
        rwa [List.getElem?_eq_none_iff, h.rb_length hpu, ← List.getElem?_eq_none_iff]
      rw [hnone]
    | some b =>
      obtain ⟨b', hb', hmove⟩ := h.rb_moves hpu hb
      rw [hb', Option.map_some, Option.map_some, hmove.capacity]
  rw [State.shapeFixed, h.params]
  exact ⟨hwf, hcap.trans hrb, (h.can_moves hpu .can0).capacity.trans h0, (h.can_moves hpu .can1).capacity.trans h1⟩

/-- Settles O53: only a lend and COPY write a store, and both keep its form. -/
theorem everyStepKeepsTheRegionsCanonical : Obligations.EveryStepKeepsTheRegionsCanonical := by
  rintro s t ⟨hcaller, hdriver⟩ hstep
  cases step_effect hstep with
  | command _ _ _ h => exact ⟨h.caller ▸ hcaller, h.driver ▸ hdriver⟩
  | copies _ _ _ hw => exact ⟨hcaller, (RegionStore.memWrite_spec hdriver hw).2.1⟩
  | lendCaller => exact ⟨RegionStore.lend_wf hcaller (Region.ofBytes_wf _), hdriver⟩
  | lendDriver => exact ⟨hcaller, RegionStore.lend_wf hdriver (Region.ofBytes_wf _)⟩
  | _ => exact ⟨hcaller, hdriver⟩

/-- Settles O55: only a write makes a slot of a CAN buffer Valid, and what it stores is well formed. -/
theorem everyStepKeepsTheFramesWellFormed : Obligations.EveryStepKeepsTheFramesWellFormed := by
  intro s t hframes hstep c hready
  have h := step_effect hstep
  obtain ⟨d, -, -, rfl⟩ | hpu := h.powerUp_or
  · exact absurd (hready.symm.trans (CanRxDemux.phase_powerUp c)) (by simp)
  rw [h.params]
  exact (h.can_moves hpu c).forall_valid (fun _ => id) (hframes c) hready

/-- Settles O56: a record enters a slot only by the push of a pending command, which carries one of the right size. -/
theorem everyStepKeepsTheRecordSize : Obligations.EveryStepKeepsTheRecordSize := by
  rintro s t ⟨hinputs, hrecords⟩ hstep
  have h := step_effect hstep
  refine ⟨fun x hx => h.params ▸ hinputs x (h.inputs_subset x hx), fun p b' q hb' hq => ?_⟩
  obtain ⟨c, -, -, rfl⟩ | hpu := h.powerUp_or
  · exact fun sl hsl => RingBuffer.record_length_powerUpAll hb' hq hsl
  rw [h.params] at hq
  obtain ⟨b, hb, hmove⟩ := h.rb_origin hpu hb'
  refine hmove.forall_slots (P := fun r => r.length = q.recordBytes) ?_ (hrecords p b q hb hq)
  rintro r ⟨x, hx, hd, rfl, rfl⟩
  simpa [Input.wellFormed, hd, hq] using hinputs _ hx

/-- Settles O57: while the task is STARTUP no step of the CONSUMER has been taken, and only the CONSUMER's steps set `cs`
or leave IDLE. -/
theorem everyStepKeepsTheTaskOrder : Obligations.EveryStepKeepsTheTaskOrder := by
  intro s t horder hstep htask
  cases step_effect hstep with
  | command _ _ _ h =>
    rw [h.task, State.atCommand_task] at htask
    split at htask
    · exact absurd htask (by simp)
    rename_i hi
    obtain ⟨hcs, hidle⟩ := horder htask
    obtain ⟨heth, -⟩ | ⟨-, hc, -⟩ := h.eth
    · exact ⟨h.cs.trans hcs, heth ▸ hidle⟩
    · exact absurd hc hi
  | illegal =>
    simp only [State.raise_task, State.atCommand_task] at htask
    split at htask
    · exact absurd htask (by simp)
    · exact horder htask
  | cs => exact absurd htask (by simp)
  | provideAnswer hc hx =>
    have hidle := (horder htask).2
    exact absurd ((State.acquire_of_chosen hc hx).symm.trans hidle) (by simp)
  | transmitAnswer => exact ⟨(horder htask).1, rfl⟩
  | acquireFails => exact ⟨(horder htask).1, rfl⟩
  | granted _ hf => exact absurd (hf.symm.trans (horder htask).2) (by simp)
  | copies _ hf => exact absurd (hf.symm.trans (horder htask).2) (by simp)
  | powerUp => exact ⟨rfl, rfl⟩
  | _ => exact horder htask

/-! ### The consistency of a send -/

namespace Machine

section Send

variable {s t : State}

/-- The consistency of a send looks at these four fields only. -/
theorem State.sendConsistent.congr (h : s.sendConsistent) (he : t.eth = s.eth) (hd : t.driverRequest = s.driverRequest)
    (hc : t.caller = s.caller) (hp : t.params = s.params) : t.sendConsistent := by
  rw [State.sendConsistent, he, hd, hc, hp]
  exact h

/-- With no send in progress all there is to keep is that no request is pending. -/
theorem State.sendConsistent_of_idle (hf : s.eth.fsm = .idle) (hd : s.driverRequest = none) : s.sendConsistent := by
  simp [State.sendConsistent, hf, hd]

theorem State.sendConsistent.request_of_idle (h : s.sendConsistent) (hf : s.eth.fsm = .idle) :
    s.driverRequest = none := by
  rw [h.2.2, hf]

theorem State.sendConsistent.request_of_reconcile (h : s.sendConsistent) (hf : s.eth.fsm = .reconcile) :
    s.driverRequest = none := by
  rw [h.2.2, hf]

/-- `reqLen = len - 14` does not wrap (R152). -/
theorem State.sendStarted_consistent (hl : 14 < s.port.ops.len.toNat)
    (hr : s.port.ops.len.toNat ≤ RegionStore.size s.caller s.port.ops.frame) : s.sendStarted.sendConsistent := by
  refine ⟨fun _ => ⟨hl, ?_, hr⟩, fun hf => by simp [State.sendStarted] at hf, rfl⟩
  exact BitVec.toNat_sub_of_le (BitVec.le_def.mpr hl.le)

theorem Effect.sendConsistent {i : Instr} (h : Effect s i t) (hs : s.sendConsistent) : t.sendConsistent := by
  cases h with
  | sendMalformed _ hf => exact State.sendConsistent_of_idle hf (hs.request_of_idle hf)
  | sendStarts _ _ hl hr => exact State.sendStarted_consistent hl hr
  | canrxWrite => exact hs.congr (by simp) (by simp) (by simp) (by simp)
  | _ => exact hs.congr rfl rfl rfl rfl

end Send

end Machine

/-- Settles O54: a command by `Effect.sendConsistent`; the driver's answers and the block's own steps one by one. -/
theorem everyStepKeepsTheSendConsistent : Obligations.EveryStepKeepsTheSendConsistent := by
  intro s t hs hstep
  obtain ⟨hlen, hgrant, hreq⟩ := id hs
  cases step_effect hstep with
  | command _ _ _ h => exact h.sendConsistent (hs.congr rfl rfl rfl rfl)
  | provideAnswer hc hx =>
    have hf := State.acquire_of_chosen hc hx
    exact ⟨fun _ => hlen (by simp [hf]), by simp, rfl⟩
  | transmitAnswer => exact State.sendConsistent_of_idle rfl rfl
  | acquireFails _ hf => exact State.sendConsistent_of_idle rfl (hs.request_of_reconcile hf)
  | granted _ hf hok hle => exact ⟨fun _ => hlen (by simp [hf]), fun _ => ⟨hok, hle⟩, hs.request_of_reconcile hf⟩
  | copies _ hf => exact ⟨fun _ => hlen (by simp [hf]), fun _ => hgrant (.inl hf), rfl⟩
  | @lendCaller c ref bytes hc hx =>
    refine ⟨fun hf => ?_, hgrant, hreq⟩
    have hsize : RegionStore.size (RegionStore.lend s.caller ref (Region.ofBytes bytes)) s.eth.frame
        = RegionStore.size s.caller s.eth.frame := by
      rw [RegionStore.size, RegionStore.region_lend, if_neg (State.frame_ne_of_chosen hc hx hf), RegionStore.size]
    obtain ⟨h15, hreqLen, hle⟩ := hlen hf
    exact ⟨h15, hreqLen, hle.trans_eq hsize.symm⟩
  | powerUp => exact State.sendConsistent_of_idle rfl rfl
  | _ => exact hs.congr rfl rfl rfl rfl

/-- Settles O48: each claim is a field of `State.initial`. -/
theorem resetIsThePowerUpState : Obligations.ResetIsThePowerUpState :=
  ⟨rfl, fun _ => ⟨fun _ => RingBuffer.phase_of_mem_powerUpAll, rfl, rfl, rfl, rfl, rfl, rfl, rfl⟩⟩

/-- Settles O58: before any INIT the invariants about READY instances ask nothing, and no send is in progress. -/
theorem invariantsHoldAtPowerUp : Obligations.InvariantsHoldAtPowerUp := by
  refine ⟨rfl, fun p hwf => ⟨State.shapeFixed_of_powerUp hwf rfl rfl, ?_, ⟨rfl, rfl⟩, ?_, ?_, ?_, fun _ => ⟨rfl, rfl⟩⟩⟩
  · exact State.ringsSound_of_uninit (fun b => RingBuffer.phase_of_mem_powerUpAll) CanRxDemux.phase_powerUp
  · exact State.sendConsistent_of_idle rfl rfl
  · exact fun c hr => absurd (hr.symm.trans (CanRxDemux.phase_powerUp c)) (by simp)
  · exact ⟨by simp [State.initial], fun i b q hb hq sl hsl => RingBuffer.record_length_powerUpAll hb hq hsl⟩

end Sys2Proof
end

section
/-! SUPPORT. The later transitions of a send, faults and power-up, the agents, and the end of a run (R143 to R147, R172,
R181, R200). -/

namespace Sys2Proof

namespace Machine

/-! ### Taking a command -/

theorem runCommand_of_decode {c : Command} {i : Instr} (h : decode c.word = .ok i) (s : State) :
    runCommand c s = exec i { s with port := c } := by
  simp [runCommand, h]

theorem takeInput_command_of_decode {x : Command} {i : Instr} (hd : decode x.word = .ok i) (s : State)
    (rest : List Input) : takeInput (.command x) { s with inputs := rest } = exec i (s.atCommand rest x) := by
  rw [takeInput, runCommand_of_decode hd, State.enterTask_eq]
  rfl

theorem step_of_command {s : State} {c : Choice} {x : Command} {i : Instr} (hc : s.choose s.inputs = some c)
    (hx : c.chosen = .command x) (hd : decode x.word = .ok i) : step s = exec i (s.atCommand c.remaining x) := by
  rw [step_of_choose hc, hx, takeInput_command_of_decode hd]

/-! ### RECONCILE, COPY and SUBMIT (R144 to R146) -/

theorem Input.internal_enabled {s : State} (he : s.ended = false) (hf : s.faulted = none)
    (h : s.eth.fsm = .reconcile ∨ s.eth.fsm = .copy) : Input.internal.enabled s = true := by
  rw [Input.enabled_of_running he hf]
  exact State.internalEnabled_iff.mpr h

theorem ethInternal_of_reconcile {s : State} (h : s.eth.fsm = .reconcile) : ethInternal s = ethReconcile s := by
  simp [ethInternal, h]

theorem ethInternal_of_copy {s : State} (h : s.eth.fsm = .copy) : ethInternal s = ethCopy s := by
  simp [ethInternal, h]

theorem ethReconcile_of_refusal {s : State}
    (h : s.eth.provStatus ≠ .ok ∨ s.eth.granted.toNat < s.eth.reqLen.toNat) :
    ethReconcile s = .next (s.completeSend .bufferAcquireFailed) := by
  unfold ethReconcile
  split_ifs with hs hg
  · rfl
  · rfl
  · exact absurd h (not_or.mpr ⟨hs, hg⟩)

theorem ethReconcile_of_grant {s : State} (hs : s.eth.provStatus = .ok)
    (hg : s.eth.reqLen.toNat ≤ s.eth.granted.toNat) :
    ethReconcile s = .next { s with eth := { s.eth with fsm := .copy }, resp := none } := by
  simp [ethReconcile, hs, Nat.not_lt.mpr hg]

/-- The EtherType is two bytes, the first the more significant (R52). -/
theorem etherTypeOf_pair (a b : Byte) : etherTypeOf [a, b] = a ++ b := by
  have happend : (a ++ b : BitVec (8 + 8)).toNat = a.toNat <<< 8 ||| b.toNat := BitVec.toNat_append a b
  apply BitVec.eq_of_toNat_eq
  refine Eq.trans ?_ happend.symm
  have ha : a.toNat < 256 := a.isLt
  have hb : b.toNat < 256 := b.isLt
  have hlt : a.toNat <<< 8 < 65536 := by rw [Nat.shiftLeft_eq]; omega
  simp [etherTypeOf, Nat.mod_eq_of_lt hlt, Nat.mod_eq_of_lt (show a.toNat < 65536 by omega),
    Nat.mod_eq_of_lt (show b.toNat < 65536 by omega)]

theorem RegionStore.memWrite_eq_none {st : RegionStore} {ref off : Nat} {v : List Byte} :
    RegionStore.memWrite st ref off v = none ↔ RegionStore.size st ref < off + v.length := by
  unfold RegionStore.memWrite
  split <;> simp <;> omega

section Copy

variable {s : State}

theorem ethCopy_of_shortFrame (h : RegionStore.size s.caller s.eth.frame < 14 + s.eth.reqLen.toNat) :
    ethCopy s = .next (s.raise (.callerRegion s.eth.frame (14 + s.eth.reqLen.toNat))) := by
  have hnone := RegionStore.memRead_eq_none.mpr h
  obtain ⟨-, he⟩ | ⟨payload, hp, -⟩ := ethCopy_cases s
  · exact he
  · exact absurd (hnone.symm.trans hp) (by simp)

theorem ethCopy_of_shortGrant (h : 14 + s.eth.reqLen.toNat ≤ RegionStore.size s.caller s.eth.frame)
    (hd : RegionStore.size s.driver s.eth.bufRef < s.eth.reqLen.toNat) :
    ethCopy s = .next (s.raise (.driverRegion s.eth.bufRef s.eth.reqLen.toNat)) := by
  obtain ⟨hn, -⟩ | ⟨payload, hp, ⟨-, he⟩ | ⟨drv, mac, hdr, hw, -⟩⟩ := ethCopy_cases s
  · exact absurd (RegionStore.memRead_eq_none.mp hn) (Nat.not_lt.mpr h)
  · exact he
  · have hnone := RegionStore.memWrite_eq_none (st := s.driver) (ref := s.eth.bufRef) (off := 0) (v := payload)
    rw [RegionStore.memRead_length hp, Nat.zero_add] at hnone
    exact absurd ((hnone.mpr hd).symm.trans hw) (by simp)

/-- Byte `k` of the frame image, where it has one (R51). -/
def State.frameByte (s : State) (k : Nat) : Byte := Memory.read (RegionStore.region s.caller s.eth.frame).cells k

/-- The destination address of the frame image (R52). -/
def State.frameMac (s : State) : MacAddr :=
  { b0 := s.frameByte 0, b1 := s.frameByte 1, b2 := s.frameByte 2, b3 := s.frameByte 3, b4 := s.frameByte 4,
    b5 := s.frameByte 5 }

/-- The state in SUBMIT with the driver's regions `drv`, the header latched and Transmit issued (R145). -/
def State.submitted (s : State) (drv : RegionStore) : State :=
  { s with
    driver := drv
    eth := { s.eth with dstMac := s.frameMac, etherType := s.frameByte 12 ++ s.frameByte 13, fsm := .submit }
    driverRequest := some (.transmit s.params.ethCtrlIdx s.eth.bufIdx (s.frameByte 12 ++ s.frameByte 13) true
      s.eth.reqLen s.frameMac)
    resp := none }

/-- COPY over regions that are long enough: the payload moves and Transmit is issued (R145). -/
theorem ethCopy_of_longEnough (hwf : s.storesWf)
    (h : 14 + s.eth.reqLen.toNat ≤ RegionStore.size s.caller s.eth.frame)
    (hd : s.eth.reqLen.toNat ≤ RegionStore.size s.driver s.eth.bufRef) :
    ∃ drv, ethCopy s = .next (s.submitted drv)
      ∧ (∀ k, k < s.eth.reqLen.toNat →
          RegionStore.byte? drv s.eth.bufRef k = RegionStore.byte? s.caller s.eth.frame (14 + k))
      ∧ ∀ ref k, ¬ (ref = s.eth.bufRef ∧ k < s.eth.reqLen.toNat) →
          RegionStore.byte? drv ref k = RegionStore.byte? s.driver ref k := by
  obtain ⟨hn, -⟩ | ⟨payload, hp, hcase⟩ := ethCopy_cases s
  · exact absurd (RegionStore.memRead_eq_none.mp hn) (Nat.not_lt.mpr h)
  have hlen := RegionStore.memRead_length hp
  obtain ⟨hn, -⟩ | ⟨drv, mac, hdr, hw, hmac, hhdr, he⟩ := hcase
  · rw [RegionStore.memWrite_eq_none, hlen, Nat.zero_add] at hn
    exact absurd hn (Nat.not_lt.mpr hd)
  obtain ⟨-, rfl⟩ := RegionStore.memRead_eq_some.mp hmac
  obtain ⟨-, rfl⟩ := RegionStore.memRead_eq_some.mp hhdr
  obtain ⟨-, -, -, hwritten, hother⟩ := RegionStore.memWrite_spec hwf.2 hw
  rw [hlen] at hwritten hother
  refine ⟨drv, ?_, fun k hk => ?_, fun ref k hne => hother ref k fun href => ?_⟩
  · rw [he, State.submitted, ← etherTypeOf_pair]
    rfl
  · have hbyte := hwritten k hk
    rwa [Nat.zero_add, RegionStore.memRead_byte? hp hk] at hbyte
  · rw [Nat.zero_add]
    exact .inr (Nat.le_of_not_lt fun hk => hne ⟨href, hk⟩)

end Copy

/-! ### Faults and the end of a run (R172) -/

section Faults

variable {s : State}

/-- Once the run is over nothing is enabled. -/
theorem State.choose_of_ended (he : s.ended = true) (xs : List Input) : s.choose xs = none :=
  State.choose_eq_none.mpr fun x _ => by simp [Input.enabled, he]

theorem step_of_ended (he : s.ended = true) : step s = .fault .runEnded := by
  rw [step_of_no_choice (State.choose_of_ended he _)]
  simp [idleStep, he]

/-- Once a fault is recorded only a power-up is enabled. -/
theorem Input.eq_powerUp_of_enabled {f : ModelFault} (hf : s.faulted = some f) {x : Input}
    (hx : x.enabled s = true) : x = .powerUp := by
  obtain ⟨-, hp | ⟨hn, -⟩⟩ := Input.enabled_cases hx
  · exact hp
  · exact absurd (hf.symm.trans hn) (by simp)

theorem step_of_faulted {f : ModelFault} (he : s.ended = false) (hf : s.faulted = some f)
    (hp : Input.powerUp ∉ s.inputs) : step s = .fault (.stopped f) := by
  have hn : s.choose s.inputs = none := State.choose_eq_none.mpr fun x hx =>
    Bool.eq_false_iff.mpr fun hen => hp (Input.eq_powerUp_of_enabled hf hen ▸ hx)
  rw [step_of_no_choice hn]
  simp [idleStep, he, hf]

/-- The only step of a faulted block is a power-up. -/
theorem step_next_of_faulted {t : State} {f : ModelFault} (hf : s.faulted = some f) (h : step s = .next t) :
    ∃ before after, s.inputs = before ++ .powerUp :: after ∧ t = { s.powerUp with inputs := before ++ after } := by
  obtain ⟨c, hc, hen, ht⟩ | ⟨-, -, hn, -⟩ := step_next h
  · have hx := Input.eq_powerUp_of_enabled hf hen
    obtain ⟨hsplit, -, -⟩ := State.choose_eq_some hc
    rw [hx] at hsplit ht
    exact ⟨c.before, c.after, hsplit, (Host.Outcome.next.inj ht).symm⟩
  · exact absurd (hf.symm.trans hn) (by simp)

theorem State.not_endOfRun_of_ended (he : s.ended = true) : ¬ s.endOfRun := fun h =>
  absurd (he.symm.trans h.1) (by simp)

theorem State.not_endOfRun_of_faulted {f : ModelFault} (hf : s.faulted = some f) : ¬ s.endOfRun := fun h =>
  absurd (hf.symm.trans h.2.1) (by simp)

theorem exec_faulted {i : Instr} {t : State} {f : ModelFault} (hf : s.faulted = none) (h : exec i s = .next t)
    (ht : t.faulted = some f) : t = s.raise f := by
  obtain ⟨g, rfl, -⟩ | ⟨hsame, -⟩ | ⟨rfl, -⟩ := (exec_effect h).outcome
  · rw [← Option.some.inj ht]
  · exact absurd (ht.symm.trans (hsame.trans hf)) (by simp)
  · exact absurd (ht.symm.trans hf) (by simp)

theorem runCommand_faulted {c : Command} {t : State} {f : ModelFault} (hf : s.faulted = none)
    (h : runCommand c s = .next t) (ht : t.faulted = some f) : t = State.raise { s with port := c } f := by
  obtain ⟨i, -, he⟩ | ⟨-, rfl⟩ := runCommand_next h
  · exact exec_faulted hf he ht
  · rw [← Option.some.inj ht]
    rfl

theorem ethInternal_faulted {t : State} {f : ModelFault} (hf : s.faulted = none) (h : ethInternal s = .next t)
    (ht : t.faulted = some f) : t = s.raise f := by
  have hno : t.faulted = s.faulted → t = s.raise f := fun hsame =>
    absurd (ht.symm.trans (hsame.trans hf)) (by simp)
  obtain ⟨-, rfl⟩ | ⟨-, -, rfl⟩ | ⟨-, -, -, rfl⟩ | ⟨-, hcopy⟩ := ethInternal_next h
  · exact hno rfl
  · exact hno rfl
  · exact hno rfl
  obtain ⟨-, he⟩ | ⟨payload, -, ⟨-, he⟩ | ⟨drv, mac, hdr, -, -, -, he⟩⟩ := ethCopy_cases s
  all_goals obtain rfl := Host.Outcome.next.inj (he.symm.trans hcopy)
  · rw [← Option.some.inj ht]
  · rw [← Option.some.inj ht]
  · exact hno rfl

end Faults

/-! ### What a send does under an operation -/

theorem Effect.send {s t : State} {i : Instr} (h : Effect s i t) :
    (t.eth.fsm = s.eth.fsm ∧ t.driverRequest = s.driverRequest) ∨ (s.eth.fsm = .idle ∧ t = s.sendStarted) := by
  cases h with
  | canrxWrite => left; simp
  | sendStarts _ hf => exact .inr ⟨hf, rfl⟩
  | _ => exact .inl ⟨rfl, rfl⟩

/-- While a send is in progress no command changes EthTxAssembler or the request. -/
theorem Effect.eth_of_busy {s t : State} {i : Instr} (h : Effect s i t) (hf : s.eth.fsm ≠ .idle) :
    t.eth = s.eth ∧ t.driverRequest = s.driverRequest :=
  h.eth.resolve_right fun hs => hf hs.2.2

end Machine

open Machine

/-- Settles O4: the chosen command is decoded and run in `State.atCommand`. -/
theorem stepRunsTheDecodedCommand : Obligations.StepRunsTheDecodedCommand :=
  fun _ _ _ _ _ hc hd _ => step_of_command hc rfl hd

/-- Settles O5: `State.choose_append` finds the step. -/
theorem stepTakesTheOldestEnabledInput : Obligations.StepTakesTheOldestEnabledInput := by
  intro s before after x hin hb hx
  have hc := State.choose_append (after := after) hb hx
  rw [← hin] at hc
  exact step_of_choose hc

/-- Settles O27: RECONCILE is `ethReconcile`, which has these two outcomes. -/
theorem reconcileFollowsItsRule : Obligations.ReconcileFollowsItsRule := by
  intro s hf
  refine ⟨fun he hn => Input.internal_enabled he hn (.inl hf), fun hg => ?_, fun hs hg => ?_⟩ <;>
    rw [takeInput, ethInternal_of_reconcile hf]
  · exact ethReconcile_of_refusal hg
  · exact ethReconcile_of_grant hs hg

/-- Settles O28: the three outcomes of `ethCopy`; the header bytes are read from the frame image. -/
theorem copyFollowsItsRule : Obligations.CopyFollowsItsRule := by
  intro s hf
  refine ⟨fun he hn => Input.internal_enabled he hn (.inr hf), fun hwf hframe hgrant => ?_, fun hframe => ?_,
    fun hframe hgrant => ?_⟩ <;> rw [takeInput, ethInternal_of_copy hf]
  · obtain ⟨drv, he, hcopied, hother⟩ := ethCopy_of_longEnough hwf hframe hgrant
    refine ⟨_, s.frameByte, fun k hk => ?_, he, hcopied, hother, rfl⟩
    rw [RegionStore.byte?, if_pos (by omega), State.frameByte]
  · exact ethCopy_of_shortFrame hframe
  · exact ethCopy_of_shortGrant hframe hgrant

/-- Settles O29: the answer to Transmit completes the send with one of two results. -/
theorem submitCompletesTheSend : Obligations.SubmitCompletesTheSend := by
  intro s t he hf
  refine ⟨?_, rfl, rfl⟩
  rw [Input.enabled_of_running he hf]
  exact Input.transmitAnswer_enabledUnfaulted_iff t

/-- Settles O31: of the kinds of step, ETHTX.SEND and COPY alone issue a request, and each kind makes one of the moves. -/
theorem requestsAreIssuedOncePerSend : Obligations.RequestsAreIssuedOncePerSend := by
  refine ⟨fun s t r hstep hr hnew hs => ?_, fun s t hstep hpu => ?_⟩
  · have hsame {P : Prop} (h : t.driverRequest = s.driverRequest) : P := absurd (h.symm.trans hr) hnew
    cases step_effect hstep with
    | command _ _ _ h =>
      obtain ⟨-, hd⟩ | ⟨hf, rfl⟩ := h.send
      · exact hsame hd
      · exact .inl ⟨hf, rfl, (Option.some.inj hr).symm⟩
    | copies _ hf =>
      obtain ⟨hok, hle⟩ := hs.2.1 (.inl hf)
      exact .inr ⟨hf, rfl, hok, hle, (Option.some.inj hr).symm⟩
    | provideAnswer => exact absurd hr (by simp)
    | transmitAnswer => exact absurd hr (by simp)
    | powerUp => exact absurd hr (by simp)
    | _ => exact hsame rfl
  · cases step_effect hstep with
    | command _ _ _ h =>
      obtain hsame | ⟨hf, rfl⟩ := h.send
      · exact .inl hsame
      · exact .inr (.inl ⟨hf, rfl, rfl⟩)
    | provideAnswer hc hx => exact .inr (.inr (.inl ⟨State.acquire_of_chosen hc hx, rfl, rfl⟩))
    | acquireFails _ hf hg => exact .inr (.inr (.inr (.inl ⟨hf, rfl, rfl, rfl, hg⟩)))
    | granted _ hf hok hle => exact .inr (.inr (.inr (.inr (.inl ⟨hf, rfl, rfl, hok, hle⟩))))
    | copies _ hf => exact .inr (.inr (.inr (.inr (.inr (.inl ⟨hf, rfl, rfl⟩)))))
    | transmitAnswer hc hx => exact .inr (.inr (.inr (.inr (.inr (.inr ⟨State.submit_of_chosen hc hx, rfl, rfl⟩)))))
    | powerUp hc hx => exact absurd hx (hpu _ hc)
    | _ => exact .inl ⟨rfl, rfl⟩

/-- Settles O33: a raised fault is `State.raise`; after it, and after a power-up, nothing else is enabled. -/
theorem faultStopsTheBlockUntilPowerUp : Obligations.FaultStopsTheBlockUntilPowerUp := by
  refine ⟨fun i s t f => exec_faulted, fun x s t f hf h ht => ?_, fun s f => step_of_faulted,
    fun s t f => step_next_of_faulted, fun s => step_of_ended, fun s t c hc hx h => ?_,
    fun s t f hf => ⟨State.not_endOfRun_of_faulted hf, fun h => ?_⟩⟩
  · have hno {P : Prop} (hsame : t.faulted = none) : P := absurd (ht.symm.trans hsame) (by simp)
    obtain ⟨c, rfl, hrun⟩ | ⟨b, -, rfl⟩ | ⟨a, -, ha⟩ | ⟨a, r, -, -, rfl⟩ | ⟨rfl, hi⟩
      | ⟨ref, bytes, ⟨-, rfl⟩ | ⟨-, rfl⟩⟩ | ⟨-, rfl⟩ := takeInput_next h
    · have hraise := runCommand_faulted ((State.enterTask_faulted s c.issuer).trans hf) hrun ht
      rw [State.enterTask_eq] at hraise
      exact .inl ⟨c, rfl, hraise⟩
    · exact hno hf
    · exact hno (by rw [← Host.Outcome.next.inj ha]; exact hf)
    · exact hno hf
    · exact .inr ⟨rfl, ethInternal_faulted hf hi ht⟩
    · exact hno hf
    · exact hno hf
    · exact hno rfl
  · have ht : t.ended = true := by
      rw [step_of_choose hc, hx] at h
      rw [← Host.Outcome.next.inj h]
      rfl
    exact ⟨ht, State.not_endOfRun_of_ended ht⟩
  · obtain ⟨before, after, -, rfl⟩ := step_next_of_faulted hf h
    exact ⟨State.not_endOfRun_of_ended rfl, step_of_ended rfl⟩

namespace Machine

/-- No row of R173 holds InvalidMailbox (R76). -/
theorem ne_invalidMailbox_of_mem {op : Op} {r : ResultCode} (h : r ∈ opResults op) : r ≠ .invalidMailbox := by
  rintro rfl
  cases op <;> simp [opResults] at h

theorem StepEffect.result_ne_invalidMailbox {s t : State} (h : StepEffect s t) {r : Response}
    (hr : t.resp = some r) : r.result ≠ .invalidMailbox := by
  cases h with
  | command _ _ _ h =>
    obtain ⟨f, rfl, -⟩ | ⟨-, r', hr', hres, -⟩ | ⟨rfl, -⟩ := h.outcome
    · simp at hr
    · obtain rfl := Option.some.inj (hr.symm.trans hr')
      exact ne_invalidMailbox_of_mem hres
    · simp [State.sendStarted] at hr
  | transmitAnswer _ _ hres =>
    rw [← Option.some.inj hr]
    rcases hres with rfl | rfl <;> simp
  | acquireFails => rw [← Option.some.inj hr]; simp
  | _ => exact absurd hr (by simp)

theorem ResultCode.code_of_ne_invalidMailbox {r : ResultCode} (h : r ≠ .invalidMailbox) :
    r.code ≠ 4 ∧ r.code.toNat < 8 := by
  cases r <;> first | exact absurd rfl h | decide

end Machine

/-- Settles O36: the values by evaluation; no step answers InvalidMailbox, the one code 4. -/
theorem resultCodesAreTheTable : Obligations.ResultCodesAreTheTable :=
  ⟨⟨rfl, rfl, rfl, rfl, rfl, rfl, rfl, rfl⟩, fun _ _ _ hstep hr =>
    ResultCode.code_of_ne_invalidMailbox ((step_effect hstep).result_ne_invalidMailbox hr)⟩

/-! ### Regions -/

/-- Settles O41: only a lend writes the caller store, and the lend of the frame image of a send waits. -/
theorem callerRegionsAreNeverWritten : Obligations.CallerRegionsAreNeverWritten := by
  refine ⟨fun s t hstep hlend => ?_, fun s t hstep hbusy => ?_⟩
  · cases step_effect hstep with
    | command _ _ _ h => exact h.caller
    | lendCaller hc hx => exact absurd hx (hlend _ _ _ hc)
    | _ => rfl
  · suffices h : RegionStore.region t.caller s.eth.frame = RegionStore.region s.caller s.eth.frame
        ∧ (t.eth.fsm ≠ .idle → t.eth.frame = s.eth.frame) from
      ⟨fun k => by rw [RegionStore.byte?, RegionStore.size, h.1]; rfl, h⟩
    cases step_effect hstep with
    | command _ _ _ h => exact ⟨by rw [h.caller]; rfl, fun _ => by rw [(h.eth_of_busy hbusy).1]; rfl⟩
    | lendCaller hc hx =>
      refine ⟨?_, fun _ => rfl⟩
      rw [RegionStore.region_lend, if_neg (State.frame_ne_of_chosen hc hx hbusy)]
    | powerUp => exact ⟨rfl, fun h => absurd rfl h⟩
    | _ => exact ⟨rfl, fun _ => rfl⟩

/-- Settles O42: but for the driver's own lend only COPY writes the driver store, and `memWrite_spec` says where. -/
theorem driverRegionsAreWrittenOnlyByCopy : Obligations.DriverRegionsAreWrittenOnlyByCopy := by
  intro s t ref k hwf hstep hlend hne
  cases step_effect hstep with
  | command _ _ _ h => exact absurd (by rw [h.driver]; rfl) hne
  | copies _ hf hp hw =>
    have hother := (RegionStore.memWrite_spec hwf.2 hw).2.2.2.2 ref k
    rw [RegionStore.memRead_length hp, Nat.zero_add] at hother
    refine ⟨hf, rfl, ?_⟩
    by_contra hn
    exact hne (hother fun href => .inr (Nat.le_of_not_lt fun hk => hn ⟨href, hk⟩))
  | @lendDriver c ref' bytes hc hx =>
    have hother : ref ≠ ref' := by
      rintro rfl
      exact hlend c bytes hc hx
    refine absurd ?_ hne
    rw [RegionStore.byte?, RegionStore.size, RegionStore.region_lend, if_neg hother]
    rfl
  | _ => exact absurd rfl hne

/-! ### Agents -/

/-- Settles O43: a PRODUCER's enabledness asks for cs = 0, and the driver's does not look at cs. -/
theorem criticalSectionMasksEveryProducer : Obligations.CriticalSectionMasksEveryProducer := by
  refine ⟨fun _ => ⟨rfl, rfl⟩, fun s c x p hc hcs hx hi => ?_, fun _ _ _ _ => ⟨rfl, rfl⟩⟩
  have hen := State.issuer_enabled_of_chosen hc hx
  rw [hi] at hen
  exact absurd ((Issuer.enabled_producer_iff.mp hen).1.symm.trans hcs) (by simp)

/-- Settles O44: the enabledness of a chosen command, read for each kind of issuer. -/
theorem onlyAgentsThatMayStepAreTaken : Obligations.OnlyAgentsThatMayStepAreTaken := by
  intro s c x hc hx
  obtain ⟨he, hf, -⟩ := State.running_of_chosen hc (by simp [hx])
  have hen := State.issuer_enabled_of_chosen hc hx
  refine ⟨he, hf, fun hi => ?_, fun p hi => ?_, fun hi => ?_⟩ <;> rw [hi] at hen
  · exact Issuer.enabled_startup_iff.mp hen
  · obtain ⟨hcs, hex⟩ := Issuer.enabled_producer_iff.mp hen
    refine ⟨hcs, ?_⟩
    rintro i rfl
    obtain ⟨b, hb⟩ := Option.isSome_iff_exists.mp hex
    exact (List.getElem?_eq_some_iff.mp hb).1
  · exact Issuer.enabled_consumer_iff.mp hen

namespace Machine

/-- In the CONSUMER's loop every step but a power-up stays in it. -/
theorem StepEffect.task_of_consumer {s t : State} (h : StepEffect s t) (hpu : s.noPowerUp) (hs : s.task = .consumer) :
    t.task = .consumer := by
  cases h with
  | command _ _ _ h => rw [h.task]; simp [hs]
  | illegal => simp [hs]
  | cs => rfl
  | powerUp hc hx => exact absurd hx (hpu _ hc)
  | _ => exact hs

theorem not_startup_of_chosen {s : State} {c : Choice} {x : Command} (hc : s.choose s.inputs = some c)
    (hx : c.chosen = .command x) (hs : s.task = .consumer) : x.issuer ≠ .startup := by
  intro hi
  have hen := State.issuer_enabled_of_chosen hc hx
  rw [hi] at hen
  exact absurd ((Issuer.enabled_startup_iff.mp hen).symm.trans hs) (by simp)

theorem runCommand_task {s t : State} {x : Command} (h : runCommand x s = .next t) : t.task = s.task := by
  obtain ⟨i, -, he⟩ | ⟨-, rfl⟩ := runCommand_next h
  · exact (exec_effect he).task
  · rfl

/-- A step that is chosen to be the CONSUMER's starts its loop (log 16). -/
theorem task_of_consumer_chosen {s t : State} {c : Choice} (hc : s.choose s.inputs = some c) (hstep : step s = .next t)
    (hx : c.chosen = .csEnter ∨ c.chosen = .csExit ∨ ∃ x, c.chosen = .command x ∧ x.issuer = .consumer) :
    t.task = .consumer := by
  rw [step_of_choose hc] at hstep
  obtain hx | hx | ⟨x, hx, hi⟩ := hx <;> rw [hx] at hstep
  · rw [← Host.Outcome.next.inj hstep]; rfl
  · rw [← Host.Outcome.next.inj hstep]; rfl
  · rw [runCommand_task hstep, State.enterTask_task, if_pos hi]

end Machine

end Sys2Proof
end

section
/-! SUPPORT. STARTUP and the CONSUMER, power-up, progress, and the end of a run (R147, R150, R181, R190, R200); and a
word placed by `withFetchWord` (log 3). -/

namespace Sys2Proof

open Machine

/-- Settles O45: in the CONSUMER's loop `StepEffect.task_of_consumer` keeps the task, and INIT has no issuer. -/
theorem startupIsLeftForGood : Obligations.StartupIsLeftForGood := by
  refine ⟨fun s t c hc hstep hx => task_of_consumer_chosen hc hstep hx, fun s htask =>
    ⟨fun c x hc hx => not_startup_of_chosen hc hx htask, fun t hstep hpu => ?_⟩⟩
  have h := step_effect hstep
  have hinit : ¬ s.task = .startup := by simp [htask]
  refine ⟨h.task_of_consumer hpu htask, fun p b hb hp => ?_, fun d hp => (h.can_moves hpu d).eq_of_uninit hp hinit⟩
  obtain ⟨b', hb', hmove⟩ := h.rb_moves hpu hb
  rwa [hmove.eq_of_uninit hp hinit] at hb'

/-- Settles O46: the CONSUMER's steps are enabled in IDLE only, and another agent's command has no effect on a send. -/
theorem consumerWaitsForItsSend : Obligations.ConsumerWaitsForItsSend := by
  intro s t c hc hbusy hstep
  refine ⟨fun hx => hbusy (State.idle_of_chosen_cs hc (.inl hx)), fun hx => hbusy (State.idle_of_chosen_cs hc (.inr hx)),
    fun x hx => ?_⟩
  have hissuer : x.issuer ≠ .consumer := fun hi => by
    have hen := State.issuer_enabled_of_chosen hc hx
    rw [hi] at hen
    exact hbusy (Issuer.enabled_consumer_iff.mp hen)
  refine ⟨hissuer, ?_⟩
  cases hd : decode x.word with
  | ok i =>
    rw [step_of_command hc hx hd] at hstep
    exact (exec_effect hstep).eth_of_busy hbusy
  | error e =>
    rw [step_of_choose hc, hx, takeInput, runCommand_of_decode_error _ hd] at hstep
    obtain rfl := Host.Outcome.next.inj hstep
    exact ⟨State.enterTask_eth _ _, State.enterTask_driverRequest _ _⟩

namespace Machine

/-- With no ready step enabled, a running block takes its own step (R30). -/
theorem step_of_running {s : State} (he : s.ended = false) (hf : s.faulted = none) (hn : s.choose s.inputs = none) :
    step s = ethInternal s := by
  rw [step_of_no_choice hn]
  simp [idleStep, he, hf]

theorem ethInternal_of_waiting {s : State} (h : s.eth.fsm = .acquire ∨ s.eth.fsm = .submit ∨ s.eth.fsm = .idle) :
    ethInternal s = .next { s with resp := none } := by
  rcases h with h | h | h <;> simp [ethInternal, h]

/-- The block's own step never stops. -/
theorem exists_ethInternal_next (s : State) : ∃ t, ethInternal s = .next t := by
  cases hf : s.eth.fsm with
  | reconcile =>
    rw [ethInternal_of_reconcile hf]
    by_cases hg : s.eth.provStatus ≠ .ok ∨ s.eth.granted.toNat < s.eth.reqLen.toNat
    · exact ⟨_, ethReconcile_of_refusal hg⟩
    · rw [not_or, not_not] at hg
      exact ⟨_, ethReconcile_of_grant hg.1 (Nat.not_lt.mp hg.2)⟩
  | copy =>
    rw [ethInternal_of_copy hf]
    obtain ⟨-, he⟩ | ⟨payload, -, ⟨-, he⟩ | ⟨drv, mac, hdr, -, -, -, he⟩⟩ := ethCopy_cases s <;> exact ⟨_, he⟩
  | idle => exact ⟨_, ethInternal_of_waiting (.inr (.inr hf))⟩
  | acquire => exact ⟨_, ethInternal_of_waiting (.inl hf)⟩
  | submit => exact ⟨_, ethInternal_of_waiting (.inr (.inl hf))⟩

/-- With sound rings no index names a slot that there is not (R110). -/
theorem exec_ne_fault_of_ringsSound {s : State} (h : s.ringsSound) {i : Instr} {f : Fault} : exec i s ≠ .fault f := by
  intro hf
  obtain ⟨hrb, hcan⟩ := State.ringsSound_iff.mp h
  obtain ⟨b, hb, -, hp, hidx⟩ | ⟨c, -, hp, hidx⟩ := exec_fault hf
  · obtain ⟨hrd, hwr, -⟩ := hrb b (List.mem_of_getElem? hb) hp
    rw [RingBuffer.capacity] at hrd hwr
    obtain ⟨-, -, hle⟩ | ⟨-, -, -, hle⟩ := hidx <;> omega
  · obtain ⟨hrd, hwr, -⟩ := hcan c hp
    rw [RingBuffer.capacity] at hrd hwr
    obtain ⟨-, -, -, -, hle⟩ | ⟨-, -, -, hle⟩ := hidx <;> omega

/-- A ready step that is no command always answers a next state. -/
theorem exists_takeInput_next {x : Input} (hx : ∀ c, x ≠ .command c) (s : State) : ∃ t, takeInput x s = .next t := by
  cases x with
  | command c => exact absurd rfl (hx c)
  | internal => exact exists_ethInternal_next s
  | transmitAnswer a => cases a <;> exact ⟨_, rfl⟩
  | _ => exact ⟨_, rfl⟩

theorem Input.powerUp_enabled {s : State} (he : s.ended = false) : Input.powerUp.enabled s = true := by
  simp [Input.enabled, he, Input.enabledUnfaulted]

end Machine

/-- Settles O47: `ethInternal` waits in three states and is the step of RECONCILE and COPY. -/
theorem sendWaitsOnlyForTheDriver : Obligations.SendWaitsOnlyForTheDriver := by
  intro s he hf hn
  rw [step_of_running he hf hn]
  exact ⟨ethInternal_of_waiting, fun _ => rfl⟩

/-- Settles O50: the power-up at the head is enabled, and `State.powerUp` names every field. -/
theorem powerUpForgetsTheBlock : Obligations.PowerUpForgetsTheBlock := fun _ _ he hin =>
  ⟨_, step_of_head hin (Input.powerUp_enabled he), rfl, rfl, rfl, rfl, rfl, rfl, rfl, rfl, rfl, rfl, rfl, rfl, rfl,
    step_of_ended rfl⟩

/-- Settles O59: of all that a step can run, only `exec` may not answer a next state; sound rings exclude its fault. -/
theorem soundBlockNeverGetsStuck : Obligations.SoundBlockNeverGetsStuck := by
  intro s he hf hsound
  cases hc : s.choose s.inputs with
  | none =>
    rw [step_of_running he hf hc]
    exact .inl (exists_ethInternal_next s)
  | some c =>
    by_cases hx : ∀ x, c.chosen ≠ .command x
    · rw [step_of_choose hc]
      exact .inl (exists_takeInput_next hx _)
    push Not at hx
    obtain ⟨x, hx⟩ := hx
    cases hd : decode x.word with
    | error e =>
      rw [step_of_choose hc, hx, takeInput, runCommand_of_decode_error _ hd]
      exact .inl ⟨_, rfl⟩
    | ok i =>
      have hstep := step_of_command hc hx hd
      cases hexec : exec i (s.atCommand c.remaining x) with
      | next t => exact .inl ⟨t, hstep.trans hexec⟩
      | fault f => exact absurd hexec (exec_ne_fault_of_ringsSound (s := s.atCommand c.remaining x) hsound)
      | refused r =>
        obtain ⟨rfl, hport, hi⟩ := exec_refused hexec
        exact .inr ⟨c, x, i, rfl, hx, hd, hi, hport, hstep.trans hexec⟩

/-- Settles O60: at the end of a run only the waiting step and the two lends are left. -/
theorem endOfRunIsQuiet : Obligations.EndOfRunIsQuiet := by
  intro s t hend hpu hstep
  obtain ⟨he, hf, hidle, hcs, hinputs⟩ := id hend
  have h := step_effect hstep
  have hnone {c : Choice} (hc : s.choose s.inputs = some c) : c.chosen.ofAgent = false :=
    hinputs _ (State.chosen_mem hc)
  have hpending : ∀ x ∈ t.inputs, x.ofAgent = false := fun x hx => hinputs x (h.inputs_subset x hx)
  cases h with
  | command hc hx => exact absurd (hnone hc) (by simp [hx, Input.ofAgent])
  | illegal hc hx => exact absurd (hnone hc) (by simp [hx, Input.ofAgent])
  | cs hc hx => exact absurd (hnone hc) (by rcases hx with hx | hx <;> simp [hx, Input.ofAgent])
  | provideAnswer hc hx => exact absurd (hnone hc) (by simp [hx, Input.ofAgent])
  | transmitAnswer hc hx => exact absurd (hnone hc) (by simp [hx, Input.ofAgent])
  | waits => exact ⟨hend, rfl, rfl, rfl, rfl, rfl, fun _ => ⟨rfl, rfl⟩⟩
  | acquireFails _ hf => exact absurd (hidle.symm.trans hf) (by simp)
  | granted _ hf => exact absurd (hidle.symm.trans hf) (by simp)
  | copyFaults _ hf => exact absurd (hidle.symm.trans hf) (by simp)
  | copies _ hf => exact absurd (hidle.symm.trans hf) (by simp)
  | @lendCaller c ref bytes hc hx =>
    exact ⟨⟨he, hf, hidle, hcs, hpending⟩, rfl, rfl, rfl, rfl, rfl, fun hno => absurd hx (hno c ref bytes hc).1⟩
  | @lendDriver c ref bytes hc hx =>
    exact ⟨⟨he, hf, hidle, hcs, hpending⟩, rfl, rfl, rfl, rfl, rfl, fun hno => absurd hx (hno c ref bytes hc).2⟩
  | powerUp hc hx => exact absurd (hx ▸ State.chosen_mem hc) hpu

/-! ### A word placed before the machine (log 3) -/

namespace Machine

theorem withFetchWord_encode (s : State) (i : Instr) :
    s.withFetchWord 32 (encode i).toNat =
      s.present { issuer := naturalIssuer s i, port := s.port.port, word := encode i, ops := s.port.ops } := by
  have hword : tableWord? 32 (encode i).toNat = some (encode i) := by
    rw [tableWord?, if_pos ⟨rfl, (encode i).isLt⟩, BitVec.ofNat_toNat, BitVec.setWidth_eq]
  simp only [State.withFetchWord, hword, wordIssuer, decode_encode]

/-- A PRODUCER that is the natural issuer of an operation exists. -/
theorem exists_of_naturalIssuer {s : State} {i : Instr} {p : Producer} (h : naturalIssuer s i = .producer p) :
    p.exists? s = true := by
  cases i with
  | rbPush =>
    rw [naturalIssuer] at h
    split at h
    · rename_i hport
      rw [← Issuer.producer.inj h]
      exact hport
    · exact absurd h (by simp)
  | canrxWrite tgt => rw [← Issuer.producer.inj h]; rfl
  | _ => exact absurd h (by simp [naturalIssuer])

/-- A command presented by an agent that exists is the next step. -/
theorem present_enabled {s : State} {c : Command} (hp : ∀ p, c.issuer = .producer p → p.exists? s = true) :
    (Input.command c).enabled (s.present c) = true := by
  rw [Input.enabled_of_running rfl rfl]
  show c.issuer.enabled (s.present c) = true
  cases hi : c.issuer with
  | startup => rw [Issuer.enabled_startup_iff, State.present, hi]
  | producer p =>
    refine Issuer.enabled_producer_iff.mpr ⟨by rw [State.present, hi], ?_⟩
    have hex := hp p hi
    cases p <;> exact hex
  | consumer => rw [Issuer.enabled_consumer_iff, State.present, hi]

theorem step_present {s : State} {c : Command} {i : Instr} (hd : decode c.word = .ok i)
    (hp : ∀ p, c.issuer = .producer p → p.exists? s = true) :
    step (s.present c) = exec i ((s.present c).atCommand s.inputs c) := by
  rw [step_of_head rfl (present_enabled hp), takeInput_command_of_decode hd]

/-- The natural issuer may issue its operation, a push where there is an instance to push to (R179). -/
theorem permitted_naturalIssuer {s : State} {i : Instr}
    (h : i = .rbPush → (s.rb[s.port.port]?).isSome = true) :
    permitted i (naturalIssuer s i) s.port.port true = true := by
  cases i with
  | rbPush =>
    rw [naturalIssuer, if_pos (h rfl)]
    exact permitted_rbPush_iff.mpr rfl
  | canrxWrite tgt =>
    exact permitted_canrxWrite_iff.mpr ⟨_, rfl, fun c hc => by rw [hc]; rfl⟩
  | _ => rfl

end Machine

/-- Settles O6: the placed command is enabled, decodes to `i`, and runs in the state written out. -/
theorem fetchWordIsRunNext : Obligations.FetchWordIsRunNext := by
  refine fun s i => ⟨?_, permitted_naturalIssuer⟩
  rw [withFetchWord_encode]
  refine Eq.trans (step_present (i := i) ?_ fun p => exists_of_naturalIssuer) ?_
  · exact decode_encode i
  · unfold State.atCommand State.present
    cases naturalIssuer s i <;> rfl

end Sys2Proof
end

section
/-! SUPPORT. A send of more than 14 bytes step by step (R148), and two writes of the two controllers in either order
(R59). -/

namespace Sys2Proof

open Machine

namespace Machine

/-! ### The steps of a send with the driver's answers pending -/

theorem core_run_succ {M : Host.Core} {s t : M.State} (h : M.step s = .next t) (k : Nat) :
    M.run (k + 1) s = M.run k t := by
  rw [Host.Core.run, h]

section SendSteps

variable {s : State}

theorem run_succ_of_step {t : State} (h : step s = .next t) (k : Nat) :
    Host.Core.run core (k + 1) s = Host.Core.run core k t :=
  core_run_succ (M := core) h k

/-- ACQUIRE with the driver's answer `a` latched, RECONCILE next (R143). -/
def State.answered (s : State) (a : ProvideAnswer) (rest : List Input) : State :=
  { s with
    inputs := rest
    eth := { s.eth with
      provStatus := a.status, bufIdx := a.bufIdx, bufRef := a.bufPtr, granted := a.lengthInOut, fsm := .reconcile }
    driverRequest := none
    resp := none }

variable (he : s.ended = false) (hn : s.faulted = none)

include he hn

theorem step_of_send {c : Command} {rest : List Input} (hf : s.eth.fsm = .idle)
    (hin : s.inputs = .command c :: rest) (hw : c.word = encode .ethtxSend) (hi : c.issuer = .consumer)
    (hl : 14 < c.ops.len.toNat) (hr : c.ops.len.toNat ≤ RegionStore.size s.caller c.ops.frame) :
    step s = .next (s.atCommand rest c).sendStarted := by
  have hen : (Input.command c).enabled s = true := by
    rw [Input.enabled_of_running he hn]
    show c.issuer.enabled s = true
    rw [hi]
    exact Issuer.enabled_consumer_iff.mpr hf
  have hd : decode c.word = .ok .ethtxSend := by rw [hw]; exact decode_encode _
  have hctx : (s.atCommand rest c).ctx = .consumer := State.ctx_eq_consumer.mpr hi
  rw [step_of_head hin hen, takeInput_command_of_decode hd]
  exact exec_ethtxSend_of_longEnough hctx hf hl hr

theorem step_of_provideAnswer {a : ProvideAnswer} {rest : List Input} (hf : s.eth.fsm = .acquire)
    (hin : s.inputs = .provideAnswer a :: rest) : step s = .next (s.answered a rest) := by
  have hen : (Input.provideAnswer a).enabled s = true := by
    rw [Input.enabled_of_running he hn]
    exact (Input.provideAnswer_enabledUnfaulted_iff a).mpr hf
  rw [step_of_head hin hen]
  rfl

/-- The answer to Transmit waits for SUBMIT, so before it the block takes its own step. -/
theorem step_before_submit {ts : TransmitStatus} (hf : s.eth.fsm ≠ .submit) (hin : s.inputs = [.transmitAnswer ts]) :
    step s = ethInternal s := by
  refine step_of_running he hn (State.choose_eq_none.mpr fun x hx => ?_)
  rw [hin, List.mem_singleton] at hx
  rw [hx, Input.enabled_of_running he hn, Bool.eq_false_iff]
  exact fun hen => hf ((Input.transmitAnswer_enabledUnfaulted_iff ts).mp hen)

theorem step_of_transmitAnswer {ts : TransmitStatus} {rest : List Input} (hf : s.eth.fsm = .submit)
    (hin : s.inputs = .transmitAnswer ts :: rest) :
    step s = .next (State.completeSend { s with inputs := rest, driverRequest := none }
      (if ts = .ok then .ok else .driverBusy)) := by
  have hen : (Input.transmitAnswer ts).enabled s = true := by
    rw [Input.enabled_of_running he hn]
    exact (Input.transmitAnswer_enabledUnfaulted_iff ts).mpr hf
  rw [step_of_head hin hen]
  cases ts <;> rfl

/-- RECONCILE with a refusal or too small a grant ends the send (R144). -/
theorem run_of_refused {ts : TransmitStatus} (hf : s.eth.fsm = .reconcile) (hin : s.inputs = [.transmitAnswer ts])
    (hg : s.eth.provStatus ≠ .ok ∨ s.eth.granted.toNat < s.eth.reqLen.toNat) :
    Host.Core.run core 1 s = .next (s.completeSend .bufferAcquireFailed) := by
  have hstep : step s = .next (s.completeSend .bufferAcquireFailed) := by
    rw [step_before_submit he hn (by simp [hf]) hin, ethInternal_of_reconcile hf, ethReconcile_of_refusal hg]
  exact run_succ_of_step hstep 0

/-- COPY over regions that are long enough, and SUBMIT (R145, R146). -/
theorem run_of_copy {ts : TransmitStatus} (hf : s.eth.fsm = .copy) (hin : s.inputs = [.transmitAnswer ts])
    (hwf : s.storesWf) (hframe : 14 + s.eth.reqLen.toNat ≤ RegionStore.size s.caller s.eth.frame)
    (hd : s.eth.reqLen.toNat ≤ RegionStore.size s.driver s.eth.bufRef) :
    ∃ t4 t5, Host.Core.run core 1 s = .next t4 ∧ Host.Core.run core 2 s = .next t5
      ∧ t4.driverRequest = some (.transmit s.params.ethCtrlIdx s.eth.bufIdx (s.frameByte 12 ++ s.frameByte 13) true
          s.eth.reqLen s.frameMac)
      ∧ (∀ k, k < s.eth.reqLen.toNat →
          RegionStore.byte? t5.driver s.eth.bufRef k = RegionStore.byte? s.caller s.eth.frame (14 + k))
      ∧ (∀ ref k, ¬ (ref = s.eth.bufRef ∧ k < s.eth.reqLen.toNat) →
          RegionStore.byte? t5.driver ref k = RegionStore.byte? s.driver ref k)
      ∧ t5.eth.fsm = .idle ∧ t5.driverRequest = none
      ∧ t5.resp =
          some { agent := .consumer, result := (if ts = .ok then .ok else .driverBusy), data := .none } := by
  obtain ⟨drv, hcopy, hcopied, hother⟩ := ethCopy_of_longEnough hwf hframe hd
  rw [← ethInternal_of_copy hf, ← step_before_submit he hn (by simp [hf]) hin] at hcopy
  have hanswer := step_of_transmitAnswer (s := s.submitted drv) he hn rfl hin
  exact ⟨_, _, run_succ_of_step hcopy 0, (run_succ_of_step hcopy 1).trans (run_succ_of_step hanswer 0), rfl, hcopied,
    hother, rfl, rfl, rfl⟩

/-- RECONCILE with a large enough grant goes on to COPY (R144). -/
theorem step_of_granted {ts : TransmitStatus} (hf : s.eth.fsm = .reconcile) (hin : s.inputs = [.transmitAnswer ts])
    (hok : s.eth.provStatus = .ok) (hg : s.eth.reqLen.toNat ≤ s.eth.granted.toNat) :
    step s = .next { s with eth := { s.eth with fsm := .copy }, resp := none } := by
  rw [step_before_submit he hn (by simp [hf]) hin, ethInternal_of_reconcile hf, ethReconcile_of_grant hok hg]

end SendSteps

/-- The state in RECONCILE after the CONSUMER's send `c` and the driver's answer `a` (R142, R143). -/
def State.sentAndAnswered (s : State) (c : Command) (a : ProvideAnswer) (rest : List Input) : State :=
  (s.atCommand (.provideAnswer a :: rest) c).sendStarted.answered a rest

theorem step_sendStarted {s : State} (he : s.ended = false) (hn : s.faulted = none) (c : Command) (a : ProvideAnswer)
    (rest : List Input) :
    step (s.atCommand (.provideAnswer a :: rest) c).sendStarted = .next (s.sentAndAnswered c a rest) :=
  step_of_provideAnswer (s := (s.atCommand (.provideAnswer a :: rest) c).sendStarted) he hn rfl rfl

end Machine

/-- Settles O30: two steps lead to RECONCILE, which `run_of_refused` and `run_of_granted` take to the end. -/
theorem sendFollowsTheOneStepView : Obligations.SendFollowsTheOneStepView := by
  intro s c a ts he hn hf hreq hwf hin hw hi hl hr
  have hreqLen : (s.sentAndAnswered c a [.transmitAnswer ts]).eth.reqLen.toNat = c.ops.len.toNat - 14 :=
    BitVec.toNat_sub_of_le (BitVec.le_def.mpr hl.le)
  have hsend := step_of_send he hn hf hin hw hi hl hr
  have hanswer := step_sendStarted he hn c a [.transmitAnswer ts]
  refine ⟨⟨_, run_succ_of_step hsend 0, rfl⟩, fun hg => ?_, fun hok hg hd => ?_⟩
  · have hrun := run_of_refused (s := s.sentAndAnswered c a [.transmitAnswer ts]) he hn rfl rfl
      (by rw [hreqLen]; exact hg)
    exact ⟨_, (run_succ_of_step hsend 2).trans ((run_succ_of_step hanswer 1).trans hrun), rfl, rfl, rfl, rfl⟩
  · have hframe : 14 + (s.sentAndAnswered c a [.transmitAnswer ts]).eth.reqLen.toNat
        ≤ RegionStore.size s.caller c.ops.frame := by omega
    have hgrant := step_of_granted (s := s.sentAndAnswered c a [.transmitAnswer ts]) he hn rfl rfl hok
      (hreqLen.trans_le hg)
    obtain ⟨t4, t5, hrun4, hrun5, hrequest, hcopied, hother, hend⟩ :=
      run_of_copy (ts := ts) (s := { s.sentAndAnswered c a [.transmitAnswer ts] with
        eth := { (s.sentAndAnswered c a [.transmitAnswer ts]).eth with fsm := .copy }, resp := none })
        he hn rfl rfl hwf hframe (hreqLen.trans_le hd)
    have hrun {k : Nat} {t : State} (h : Host.Core.run core k _ = .next t) :
        Host.Core.run core (k + 3) s = .next t :=
      (run_succ_of_step hsend (k + 2)).trans ((run_succ_of_step hanswer (k + 1)).trans
        ((run_succ_of_step hgrant k).trans h))
    exact ⟨t4, t5, _, _, _, _, _, _, _, _, hrun hrun4, hrun hrun5,
      RegionStore.memRead_eq_some.mpr ⟨by omega, rfl⟩, RegionStore.memRead_eq_some.mpr ⟨by omega, rfl⟩, hrequest,
      fun k hk => hcopied k (hk.trans_eq hreqLen.symm),
      fun ref k hne => hother ref k fun h => hne ⟨h.1, h.2.trans_eq hreqLen⟩, hend⟩

/-! ### Two writes of the two controllers -/

namespace Machine

/-- What a write of controller `c` does to its buffer: the result, the buffer after it, and the bytes drawn. It reads the
buffer and the draws of `c`, the parameters, the operands and the caller's regions, and nothing else. -/
def State.writeOutcome (s : State) (c : Controller) : Option (ResultCode × RingBuffer CanFrame × Nat) :=
  if s.params.canPayloadMax < s.port.ops.length.toNat then some (.malformedFrame, s.can.buf c, 0)
  else
    (RegionStore.memRead s.caller s.port.ops.data 0 s.port.ops.length.toNat).bind fun bytes =>
      ((s.can.buf c).push (s.canRecord c s.port.ops.rawId s.port.ops.length bytes)).map fun o =>
        (o.1, o.2, if o.1 = .ok then s.padding s.port.ops.length else 0)

theorem State.writeOutcome_congr {s s' : State} {c : Controller} (hp : s'.params = s.params) (hport : s'.port = s.port)
    (hcaller : s'.caller = s.caller) (hbuf : s'.can.buf c = s.can.buf c) (hdraws : s'.draws c = s.draws c) :
    s'.writeOutcome c = s.writeOutcome c := by
  simp only [State.writeOutcome, State.canRecord, State.padding, hp, hport, hcaller, hbuf, hdraws]

/-- A write that raises no fault is its `writeOutcome`. -/
theorem execCanrxWrite_unfaulted {s t : State} {c : Controller} (h : execCanrxWrite c.tgt s = .next t)
    (hf : t.faulted = none) : ∃ r b n, s.writeOutcome c = some (r, b, n)
      ∧ t = ((s.setCanBuf c b).addDraws c n).respond r .none := by
  have hno {P : Prop} {f : ModelFault} (ht : t = s.raise f) : P := by rw [ht] at hf; exact absurd hf (by simp)
  obtain ⟨-, ht⟩ | ⟨p, -, hcase⟩ := execCanrxWrite_next h
  · exact hno ht
  obtain ⟨ht, -⟩ | ⟨c', ht, hcase⟩ := hcase
  · rw [Controller.ofTgt_tgt] at ht
    exact absurd ht (by simp)
  rw [Controller.ofTgt_tgt] at ht
  obtain rfl := Option.some.inj ht
  obtain ⟨-, ht⟩ | ⟨-, -, ht⟩ | ⟨-, -, hl, ht⟩ | ⟨-, -, hl, ⟨-, ht⟩ | ⟨bytes, hm, hpush⟩⟩ := hcase
  · exact hno ht
  · exact hno ht
  · refine ⟨_, s.can.buf c, 0, by rw [State.writeOutcome, if_pos hl], ?_⟩
    rw [State.addDraws_zero, ht, State.setCanBuf, CanRxDemux.setBuf_buf]
  · exact hno ht
  · obtain ⟨r, b, hq, hres⟩ := State.canPush_next hpush
    refine ⟨r, b, if r = .ok then s.padding s.port.ops.length else 0, ?_, ?_⟩
    · rw [State.writeOutcome, if_neg (Nat.not_lt.mpr hl), hm, Option.bind_some, hq, Option.map_some]
    · obtain ⟨rfl, ht⟩ | ⟨rfl, ht⟩ := hres
      · rw [ht, if_pos rfl]
      · rw [ht, if_neg (by simp), State.addDraws_zero]

theorem runCommand_write_unfaulted {s t : State} {x : Command} {c : Controller}
    (hd : decode x.word = .ok (.canrxWrite c.tgt)) (h : runCommand x s = .next t) (hf : t.faulted = none) :
    ∃ r b n, State.writeOutcome { s with port := x } c = some (r, b, n)
      ∧ t = ((State.setCanBuf { s with port := x } c b).addDraws c n).respond r .none := by
  rw [runCommand_of_decode hd] at h
  exact execCanrxWrite_unfaulted h hf

theorem CanRxDemux.setBuf_comm (d : CanRxDemux) (b0 b1 : RingBuffer CanFrame) :
    (d.setBuf .can0 b0).setBuf .can1 b1 = (d.setBuf .can1 b1).setBuf .can0 b0 := rfl

end Machine

/-- Settles O24: neither write changes what the other's `writeOutcome` reads, so each has the same outcome first and
second, and the two replace different buffers. -/
theorem writesOfTheTwoControllersCommute : Obligations.WritesOfTheTwoControllersCommute := by
  intro s a b ab ba x y hx hy ha haf hab habf hb hbf hba hbaf
  have hdx : decode x.word = .ok (.canrxWrite Controller.can0.tgt) := by rw [hx]; rfl
  have hdy : decode y.word = .ok (.canrxWrite Controller.can1.tgt) := by rw [hy]; rfl
  obtain ⟨ra, ba0, na, hoa, rfl⟩ := runCommand_write_unfaulted hdx ha haf
  obtain ⟨rb, bb1, nb, hob, rfl⟩ := runCommand_write_unfaulted hdy hb hbf
  obtain ⟨rab, bab1, nab, hoab, rfl⟩ := runCommand_write_unfaulted hdy hab habf
  obtain ⟨rba, bba0, nba, hoba, rfl⟩ := runCommand_write_unfaulted hdx hba hbaf
  have hsame1 := hob.symm.trans (Eq.trans (by exact State.writeOutcome_congr rfl rfl rfl rfl rfl) hoab)
  have hsame0 := hoa.symm.trans (Eq.trans (by exact State.writeOutcome_congr rfl rfl rfl rfl rfl) hoba)
  simp only [Option.some.injEq, Prod.mk.injEq] at hsame0 hsame1
  obtain ⟨rfl, rfl, rfl⟩ := hsame0
  obtain ⟨rfl, rfl, rfl⟩ := hsame1
  exact ⟨rfl, rfl, rfl, rfl, rfl, rfl, rfl⟩

end Sys2Proof
end

section
/-! SUPPORT. Sequences of operations: one generic instance (R105 to R112) and the two CAN buffers (R125) as queues. -/

namespace Sys2Proof

open Machine

namespace Machine

/-! ### The conservation law of a queue (R107, R112) -/

section Balance

variable {α : Type} {held now : List α} {drops0 drops : BitVec 32} {a : Tally α}

/-- What was held, then what was accepted, is what was popped, then what is held now; and the drop counter has moved by
the pushes dropped, modulo 2^32. -/
def Tally.Balances (held : List α) (drops0 : BitVec 32) (a : Tally α) (now : List α) (drops : BitVec 32) : Prop :=
  held ++ a.accepted = a.popped ++ now ∧ drops = drops0 + BitVec.ofNat 32 a.dropped

theorem Tally.balances_zero (held : List α) (drops0 : BitVec 32) :
    Tally.Balances held drops0 Tally.zero held drops0 := by
  simp [Tally.Balances, Tally.zero]

theorem Tally.Balances.accept (h : Tally.Balances held drops0 a now drops) (x : α) :
    Tally.Balances held drops0 { a with accepted := a.accepted ++ [x] } (now ++ [x]) drops := by
  obtain ⟨hq, hd⟩ := h
  refine ⟨?_, hd⟩
  show held ++ (a.accepted ++ [x]) = a.popped ++ (now ++ [x])
  rw [← List.append_assoc, hq, List.append_assoc]

theorem Tally.Balances.deliver {v : α} (h : Tally.Balances held drops0 a (v :: now) drops) :
    Tally.Balances held drops0 { a with popped := a.popped ++ [v] } now drops := by
  obtain ⟨hq, hd⟩ := h
  refine ⟨?_, hd⟩
  show held ++ a.accepted = a.popped ++ [v] ++ now
  rw [hq, List.append_assoc, List.singleton_append]

theorem Tally.Balances.drop (h : Tally.Balances held drops0 a now drops) :
    Tally.Balances held drops0 { a with dropped := a.dropped + 1 } now (drops + 1) := by
  obtain ⟨hq, rfl⟩ := h
  refine ⟨hq, ?_⟩
  show drops0 + BitVec.ofNat 32 a.dropped + 1 = drops0 + BitVec.ofNat 32 (a.dropped + 1)
  rw [BitVec.ofNat_add, BitVec.add_assoc]
  rfl

end Balance

/-! ### One operation on a generic instance -/

theorem RbEvent.decode_command (p : Nat) (ops : Operands) (e : RbEvent) :
    decode (e.command p ops).word = .ok e.instr := by
  cases e <;> exact decode_encode _

/-- The state in which an event's operation runs. -/
def RbEvent.presented (p : Nat) (e : RbEvent) (s : State) : State :=
  { s with cs := decide (e = .pop), port := e.command p s.port.ops }

theorem RbEvent.issue_eq (p : Nat) (e : RbEvent) (s : State) : e.issue p s = exec e.instr (e.presented p s) :=
  runCommand_of_decode (RbEvent.decode_command p s.port.ops e) _

/-- Instance `p` is READY and sound, has `n` slots, holds `q` and has counted `d` drops, in a block that has not
faulted. -/
def State.Holds (s : State) (p n : Nat) (q : List Record) (d : BitVec 32) : Prop :=
  s.faulted = none ∧ ∃ b, s.rb[p]? = some b ∧ b.phase = .ready ∧ b.occupancy ∧ b.capacity = n ∧ b.contents = q
    ∧ b.drops = d

section Issue

variable {s : State} {p n : Nat} {q : List Record} {d : BitVec 32} (h : s.Holds p n q d)

include h

theorem State.Holds.length_le : q.length ≤ n := by
  obtain ⟨-, b, -, -, hocc, rfl, rfl, -⟩ := h
  rw [RingBuffer.contents_length hocc.capacity_pos]
  exact hocc.count_le

/-- The operation replaces instance `p` by one with these properties. -/
theorem State.Holds.set {b' : RingBuffer Record} {q' : List Record} {d' : BitVec 32} {t : State}
    (ht : t.rb = s.rb.set p b') (hf : t.faulted = s.faulted) (hp : b'.phase = .ready) (hocc : b'.occupancy)
    (hn : b'.capacity = n) (hq : b'.contents = q') (hd : b'.drops = d') : t.Holds p n q' d' := by
  obtain ⟨hnone, b, hb, -⟩ := h
  refine ⟨hf.trans hnone, b', ?_, hp, hocc, hn, hq, hd⟩
  rw [ht, List.getElem?_set_self (List.getElem?_eq_some_iff.mp hb).1]

theorem RbEvent.issue_push_of_room (hq : q.length < n) (x : Record) :
    ∃ t, (RbEvent.push x).issue p s = .next t ∧ t.Holds p n (q ++ [x]) d
      ∧ ∀ a, (RbEvent.push x).count t.resp a = { a with accepted := a.accepted ++ [x] } := by
  obtain ⟨-, b, hb, hp, hocc, rfl, rfl, rfl⟩ := id h
  rw [RingBuffer.contents_length hocc.capacity_pos] at hq
  obtain ⟨b', hpush, hocc', hcont, hdrops, hphase, hcap⟩ := hocc.push_of_not_full hq x
  rw [RbEvent.issue_eq]
  exact ⟨_, exec_rbPush_of_push_some (s := (RbEvent.push x).presented p s) hb rfl hp hpush,
    h.set rfl rfl (hphase.trans hp) hocc' hcap hcont hdrops, fun a => rfl⟩

theorem RbEvent.issue_push_of_full (hq : q.length = n) (x : Record) :
    ∃ t, (RbEvent.push x).issue p s = .next t ∧ t.Holds p n q (d + 1)
      ∧ ∀ a, (RbEvent.push x).count t.resp a = { a with dropped := a.dropped + 1 } := by
  obtain ⟨-, b, hb, hp, hocc, rfl, rfl, rfl⟩ := id h
  rw [RingBuffer.contents_length hocc.capacity_pos] at hq
  have hpush := hocc.push_of_full hq x
  rw [RbEvent.issue_eq]
  exact ⟨_, exec_rbPush_of_push_some (s := (RbEvent.push x).presented p s) hb rfl hp hpush,
    h.set rfl rfl hp (hocc.withDrops _) rfl rfl rfl, fun a => rfl⟩

theorem RbEvent.issue_pop_of_cons {v : Record} {q' : List Record} (hq : q = v :: q') :
    ∃ t, RbEvent.pop.issue p s = .next t ∧ t.Holds p n q' d
      ∧ ∀ a, RbEvent.pop.count t.resp a = { a with popped := a.popped ++ [v] } := by
  obtain ⟨-, b, hb, hp, hocc, rfl, hcont, rfl⟩ := id h
  obtain ⟨b', hpop, hocc', hcont', hdrops, hphase, hcap⟩ := hocc.pop_of_cons (hcont.trans hq)
  rw [RbEvent.issue_eq]
  exact ⟨_, exec_rbPop_of_pop_some (s := RbEvent.pop.presented p s) hb rfl rfl hp hpop,
    h.set rfl rfl (hphase.trans hp) hocc' hcap hcont' hdrops, fun a => rfl⟩

theorem RbEvent.issue_pop_of_nil (hq : q = []) :
    ∃ t, RbEvent.pop.issue p s = .next t ∧ t.Holds p n q d ∧ ∀ a, RbEvent.pop.count t.resp a = a := by
  obtain ⟨-, b, hb, hp, hocc, rfl, hcont, rfl⟩ := id h
  have hpop := hocc.pop_of_nil (hcont.trans hq)
  rw [RbEvent.issue_eq]
  exact ⟨_, exec_rbPop_of_pop_none (s := RbEvent.pop.presented p s) hb rfl rfl hp hpop, h, fun a => rfl⟩

theorem RbEvent.issue_drops :
    ∃ t, RbEvent.drops.issue p s = .next t ∧ t.Holds p n q d ∧ ∀ a, RbEvent.drops.count t.resp a = a := by
  obtain ⟨-, b, hb, hp, -⟩ := id h
  rw [RbEvent.issue_eq]
  exact ⟨_, exec_rbDrops_of_ready (s := RbEvent.drops.presented p s) hb hp, h, fun a => rfl⟩

/-- Any operation keeps the instance sound and the conservation law true. -/
theorem RbEvent.issue_balances (e : RbEvent) : ∃ t q' d', e.issue p s = .next t ∧ t.Holds p n q' d'
    ∧ ∀ {held : List Record} {drops0 : BitVec 32} {a : Tally Record},
        Tally.Balances held drops0 a q d → Tally.Balances held drops0 (e.count t.resp a) q' d' := by
  cases e with
  | push x =>
    rcases h.length_le.lt_or_eq with hlt | heq
    · obtain ⟨t, hi, ht, hc⟩ := RbEvent.issue_push_of_room h hlt x
      exact ⟨t, _, _, hi, ht, fun hb => hc _ ▸ hb.accept x⟩
    · obtain ⟨t, hi, ht, hc⟩ := RbEvent.issue_push_of_full h heq x
      exact ⟨t, _, _, hi, ht, fun hb => hc _ ▸ hb.drop⟩
  | pop =>
    cases q with
    | nil =>
      obtain ⟨t, hi, ht, hc⟩ := RbEvent.issue_pop_of_nil h rfl
      exact ⟨t, _, _, hi, ht, fun hb => (hc _).symm ▸ hb⟩
    | cons v q' =>
      obtain ⟨t, hi, ht, hc⟩ := RbEvent.issue_pop_of_cons h rfl
      exact ⟨t, _, _, hi, ht, fun hb => hc _ ▸ hb.deliver⟩
  | drops =>
    obtain ⟨t, hi, ht, hc⟩ := RbEvent.issue_drops h
    exact ⟨t, _, _, hi, ht, fun hb => (hc _).symm ▸ hb⟩

end Issue

/-! ### Sequences on a generic instance -/

section RunAll

variable {p n : Nat} {q : List Record} {d : BitVec 32} {a : Tally Record} {s t : State}

theorem RbEvent.runAll_cons {e : RbEvent} (hi : e.issue p s = .next t) (hf : t.faulted = none) (es : List RbEvent)
    (a : Tally Record) : RbEvent.runAll p (e :: es) a s = RbEvent.runAll p es (e.count t.resp a) t := by
  simp [RbEvent.runAll, hi, hf]

theorem RbEvent.runAll_append (es fs : List RbEvent) (a : Tally Record) (s : State) :
    RbEvent.runAll p (es ++ fs) a s = (RbEvent.runAll p es a s).bind fun r => RbEvent.runAll p fs r.1 r.2 := by
  induction es generalizing a s with
  | nil => rfl
  | cons e es ih =>
    rw [List.cons_append, RbEvent.runAll, RbEvent.runAll]
    cases e.issue p s with
    | next t =>
      cases hf : t.faulted with
      | none => simpa [hf] using ih _ _
      | some f => simp [hf]
    | fault f => rfl
    | refused r => rfl

theorem RbEvent.runAll_balances {held : List Record} {drops0 : BitVec 32} (es : List RbEvent)
    (h : s.Holds p n q d) (hb : Tally.Balances held drops0 a q d) :
    ∃ a' t q' d', RbEvent.runAll p es a s = some (a', t) ∧ t.Holds p n q' d'
      ∧ Tally.Balances held drops0 a' q' d' := by
  induction es generalizing a s q d with
  | nil => exact ⟨a, s, q, d, rfl, h, hb⟩
  | cons e es ih =>
    obtain ⟨t, q', d', hi, ht, hbal⟩ := RbEvent.issue_balances h e
    rw [RbEvent.runAll_cons hi ht.1]
    exact ih ht (hbal hb)

/-- Pushes into a buffer with room for all of them are all accepted (R111). -/
theorem RbEvent.runAll_pushes (xs : List Record) (h : s.Holds p n q d) (hroom : q.length + xs.length ≤ n) :
    ∃ t, (∀ a, RbEvent.runAll p (xs.map .push) a s = some ({ a with accepted := a.accepted ++ xs }, t))
      ∧ t.Holds p n (q ++ xs) d := by
  induction xs generalizing s q with
  | nil => exact ⟨s, by simp [RbEvent.runAll], by simpa using h⟩
  | cons x xs ih =>
    rw [List.length_cons] at hroom
    obtain ⟨t, hi, ht, hc⟩ := RbEvent.issue_push_of_room h (by omega) x
    obtain ⟨t', hrun, ht'⟩ := ih ht (by rw [List.length_append, List.length_singleton]; omega)
    refine ⟨t', fun a => ?_, by rwa [List.append_assoc] at ht'⟩
    rw [List.map_cons, RbEvent.runAll_cons hi ht.1, hrun, hc, List.append_assoc]
    rfl

/-- Pops of a buffer that holds at least as many records return its first ones in order (R109). -/
theorem RbEvent.runAll_pops (m : Nat) (h : s.Holds p n q d) (hm : m ≤ q.length) :
    ∃ t, (∀ a, RbEvent.runAll p (List.replicate m .pop) a s = some ({ a with popped := a.popped ++ q.take m }, t))
      ∧ t.Holds p n (q.drop m) d := by
  induction m generalizing s q with
  | zero => exact ⟨s, by simp [RbEvent.runAll], h⟩
  | succ m ih =>
    obtain ⟨v, q', rfl⟩ := List.exists_cons_of_length_pos (Nat.zero_lt_of_lt hm)
    obtain ⟨t, hi, ht, hc⟩ := RbEvent.issue_pop_of_cons h rfl
    obtain ⟨t', hrun, ht'⟩ := ih ht (Nat.le_of_succ_le_succ hm)
    refine ⟨t', fun a => ?_, ht'⟩
    rw [List.replicate_succ, RbEvent.runAll_cons hi ht.1, hrun, hc, List.take_succ_cons, List.append_assoc]
    rfl

/-- A push into a full buffer is dropped (R111). -/
theorem RbEvent.runAll_push_of_full (x : Record) (h : s.Holds p n q d) (hq : q.length = n) :
    ∃ t, (∀ a, RbEvent.runAll p [.push x] a s = some ({ a with dropped := a.dropped + 1 }, t))
      ∧ t.Holds p n q (d + 1) := by
  obtain ⟨t, hi, ht, hc⟩ := RbEvent.issue_push_of_full h hq x
  exact ⟨t, fun a => by rw [RbEvent.runAll_cons hi ht.1, hc]; rfl, ht⟩

end RunAll

end Machine

/-- Settles O15: `RbEvent.runAll_balances` from the empty tally, which balances. -/
theorem genericBufferIsFifo : Obligations.GenericBufferIsFifo := by
  intro p es s b hb hp hocc hf
  have hholds : s.Holds p b.capacity b.contents b.drops := ⟨hf, b, hb, hp, hocc, rfl, rfl, rfl⟩
  obtain ⟨a, t, q', d', hrun, ⟨-, b', hb', hp', hocc', -, rfl, rfl⟩, hconserved, hdrops⟩ :=
    RbEvent.runAll_balances es hholds (Tally.balances_zero _ _)
  exact ⟨a, t, b', hrun, hb', hp', hocc', hconserved, hdrops⟩

/-- Settles O16: after INIT nothing is held, so the conservation law says accepted = popped ++ held. -/
theorem popsArePartOfPushesSinceInit : Obligations.PopsArePartOfPushesSinceInit := by
  intro s s' t b es a hb hN hf hinit hf' hrun
  obtain ⟨b', hb', ⟨-, rfl⟩ | ⟨-, -, rfl⟩ | ⟨-, -, rfl⟩⟩ := execRbInit_next hinit
  · exact absurd hf' (by simp)
  · exact absurd hf' (by simp)
  obtain rfl : b = b' := Option.some.inj (hb.symm.trans hb')
  have hholds : State.Holds ((s.setPortBuffer b.init).respond .ok .none) s.port.port b.capacity [] 0 :=
    ⟨hf, b.init, List.getElem?_set_self (List.getElem?_eq_some_iff.mp hb).1, rfl, RingBuffer.occupancy_init hN,
      RingBuffer.capacity_init b, RingBuffer.contents_init b, rfl⟩
  obtain ⟨a', t', q', d', hrun', -, hconserved, -⟩ :=
    RbEvent.runAll_balances es hholds (Tally.balances_zero _ _)
  obtain ⟨rfl, rfl⟩ := Prod.mk.inj (Option.some.inj (hrun.symm.trans hrun'))
  exact ⟨q', hconserved.symm⟩

/-- Settles O17: N pushes, a drop, m pops, m pushes and a drop, one after the other. -/
theorem capacityIsExactlyN : Obligations.CapacityIsExactlyN := by
  intro p s b xs ys x y m hb hp hocc hk hf hxs hm hys
  have hempty : b.contents = [] := by rw [RingBuffer.contents_eq, hk]; rfl
  have h0 : s.Holds p b.capacity [] b.drops := ⟨hf, b, hb, hp, hocc, rfl, hempty, rfl⟩
  obtain ⟨t1, hrun1, h1⟩ := RbEvent.runAll_pushes xs h0 (by simp [hxs])
  rw [List.nil_append] at h1
  obtain ⟨t2, hrun2, h2⟩ := RbEvent.runAll_push_of_full x h1 hxs
  obtain ⟨t3, hrun3, h3⟩ := RbEvent.runAll_pops m h2 (hm.trans_eq hxs.symm)
  obtain ⟨t4, hrun4, h4⟩ := RbEvent.runAll_pushes ys h3 (by rw [List.length_drop]; omega)
  obtain ⟨t5, hrun5, -⟩ := RbEvent.runAll_push_of_full y h4 (by rw [List.length_append, List.length_drop]; omega)
  refine ⟨t5, ?_⟩
  simp only [RbEvent.runAll_append, hrun1, hrun2, hrun3, hrun4, hrun5, Option.bind_some]
  rfl

end Sys2Proof
end

section
/-! SUPPORT. Sequences of CANRX.WRITE, CANRX.READ and CANRX.DROPS on the two CAN buffers, each a queue of its own frames
(R125). -/

namespace Sys2Proof

open Machine

namespace Machine

/-! ### Presenting an event -/

theorem CanEvent.decode_command_write (ops : Operands) (d : Controller) (rawId : Word) (length : Byte) (data : Nat) :
    decode ((CanEvent.write d rawId length data).command ops).word = .ok (.canrxWrite d.tgt) := decode_encode _

theorem CanEvent.decode_command_read (ops : Operands) (d : Controller) :
    decode ((CanEvent.read d).command ops).word = .ok (.canrxRead d.tgt) := decode_encode _

theorem CanEvent.decode_command_drops (ops : Operands) (d : Controller) :
    decode ((CanEvent.drops d).command ops).word = .ok (.canrxDrops d.tgt) := decode_encode _

/-- The state in which an event's operation runs. -/
def CanEvent.presented (e : CanEvent) (s : State) : State :=
  { s with cs := e.isRead, port := e.command s.port.ops }

/-- A frame held in a state's buffers, as the statement compares frames: its defined part (R27). -/
def State.heldFrames (s : State) (c : Controller) : List (Word × Byte × List Byte) :=
  (s.can.buf c).contents.map CanFrame.defined

/-- Both CAN buffers are READY and sound. -/
def State.canReady (s : State) : Prop := ∀ d, (s.can.buf d).phase = .ready ∧ (s.can.buf d).occupancy

/-- The defined part of the frame a write stores is what was handed over, the marker cleared (R121, R122). -/
theorem State.canRecord_defined {s : State} {c : Controller} {rawId : Word} {length : Byte} {bytes : List Byte}
    (hlen : bytes.length = length.toNat) :
    (s.canRecord c rawId length bytes).defined = (rawId &&& ~~~s.params.extMarkerMask, length, bytes) := by
  simp only [CanFrame.defined, State.canRecord, normalise, ← hlen, List.take_left']

/-! ### Counting an event -/

theorem CanEvent.count_of_other {e : CanEvent} {c : Controller} (h : e.controller ≠ c) (s : State) (r : Option Response)
    (a : Tally (Word × Byte × List Byte)) : e.count c s r a = a := by
  unfold CanEvent.count
  exact if_pos h

section Balances

variable {held now : List (Word × Byte × List Byte)} {drops0 drops : BitVec 32} {a : Tally (Word × Byte × List Byte)}

theorem Tally.Balances.count_accepted (hb : Tally.Balances held drops0 a now drops) {e : CanEvent} {s : State}
    {f : Word × Byte × List Byte} (hf : e.frame? s = some f) (agent : Issuer) :
    Tally.Balances held drops0 (e.count e.controller s (some ⟨agent, .ok, .none⟩) a) (now ++ [f]) drops := by
  simp only [CanEvent.count]
  rw [if_neg (not_not.mpr rfl), hf]
  exact hb.accept f

theorem Tally.Balances.count_dropped (hb : Tally.Balances held drops0 a now drops) {e : CanEvent} {s : State}
    {f : Word × Byte × List Byte} (hf : e.frame? s = some f) (agent : Issuer) (data : RespData) :
    Tally.Balances held drops0 (e.count e.controller s (some ⟨agent, .bufferFull, data⟩) a) now (drops + 1) := by
  simp only [CanEvent.count]
  rw [if_neg (not_not.mpr rfl), hf]
  exact hb.drop

theorem Tally.Balances.count_delivered {f : CanFrame}
    (hb : Tally.Balances held drops0 a (f.defined :: now) drops) (d : Controller) (s : State) (agent : Issuer) :
    Tally.Balances held drops0 ((CanEvent.read d).count d s (some ⟨agent, .ok, .frame f⟩) a) now drops := by
  simp only [CanEvent.count]
  rw [if_neg (not_not.mpr (show (CanEvent.read d).controller = d from rfl))]
  exact hb.deliver

end Balances

/-! ### One event -/

/-- What an event does when it raises no fault: it replaces the buffer of its own controller by a READY and sound one,
where the conservation law goes on to hold. -/
structure CanEvent.StepsTo (e : CanEvent) (s t : State) : Prop where
  buf : ∃ b, t.can = s.can.setBuf e.controller b ∧ b.phase = .ready ∧ b.occupancy
    ∧ ∀ {held : List (Word × Byte × List Byte)} {drops0 : BitVec 32} {a : Tally (Word × Byte × List Byte)},
        Tally.Balances held drops0 a (s.heldFrames e.controller) (s.can.buf e.controller).drops →
        Tally.Balances held drops0 (e.count e.controller s t.resp a) (b.contents.map CanFrame.defined) b.drops
  faulted : t.faulted = s.faulted
  params : t.params = s.params
  caller : t.caller = s.caller

section Issue

variable {s : State} (h : s.canReady)

include h

/-- An event that leaves the buffers as they are and is not counted. -/
theorem CanEvent.stepsTo_of_uncounted {e : CanEvent} {t : State} (hcan : t.can = s.can)
    (hcount : ∀ a, e.count e.controller s t.resp a = a) (hf : t.faulted = s.faulted) (hp : t.params = s.params)
    (hc : t.caller = s.caller) : e.StepsTo s t where
  buf := ⟨s.can.buf e.controller, by rw [hcan, CanRxDemux.setBuf_buf], (h _).1, (h _).2,
    fun hb => by rw [hcount]; exact hb⟩
  faulted := hf
  params := hp
  caller := hc

theorem CanEvent.issue_write_tooLong (d : Controller) (rawId : Word) (length : Byte) (data : Nat)
    (hl : s.params.canPayloadMax < length.toNat) :
    ∃ t, (CanEvent.write d rawId length data).issue s = .next t
      ∧ (CanEvent.write d rawId length data).StepsTo s t := by
  have hexec := exec_canrxWrite_of_tooLong (s := (CanEvent.write d rawId length data).presented s)
    (Controller.ofTgt_tgt d) rfl (h d).1 hl
  refine ⟨_, (runCommand_of_decode (CanEvent.decode_command_write ..) _).trans hexec,
    CanEvent.stepsTo_of_uncounted h rfl (fun a => ?_) rfl rfl rfl⟩
  simp only [CanEvent.count]
  rw [if_neg (not_not.mpr rfl)]
  cases (CanEvent.write d rawId length data).frame? s <;> rfl

theorem CanEvent.issue_write (d : Controller) (rawId : Word) (length : Byte) (data : Nat)
    (hl : length.toNat ≤ s.params.canPayloadMax) (hr : length.toNat ≤ RegionStore.size s.caller data) :
    ∃ t, (CanEvent.write d rawId length data).issue s = .next t
      ∧ (CanEvent.write d rawId length data).StepsTo s t := by
  obtain ⟨hp, hocc⟩ := h d
  obtain ⟨bytes, hm⟩ : ∃ bytes, RegionStore.memRead s.caller data 0 length.toNat = some bytes :=
    ⟨_, RegionStore.memRead_eq_some.mpr ⟨by rwa [Nat.zero_add], rfl⟩⟩
  have hframe : (CanEvent.write d rawId length data).frame? s
      = some (rawId &&& ~~~s.params.extMarkerMask, length, bytes) := by
    rw [CanEvent.frame?, hm, Option.map_some]
  have hexec := exec_canrxWrite_of_memRead_some (s := (CanEvent.write d rawId length data).presented s)
    (Controller.ofTgt_tgt d) rfl hp hl hm
  have hissue := (runCommand_of_decode (CanEvent.decode_command_write s.port.ops d rawId length data)
    { s with cs := false }).trans hexec
  obtain ⟨sl, hs⟩ := hocc.slot_at_wr
  cases hv : sl.valid with
  | true =>
    rw [State.canPush_of_valid (s := (CanEvent.write d rawId length data).presented s) hs hv] at hissue
    refine ⟨_, hissue, ⟨_, rfl, hp, hocc.withDrops _, fun hb => ?_⟩, rfl, rfl, rfl⟩
    exact hb.count_dropped hframe _ _
  | false =>
    rw [State.canPush_of_invalid (s := (CanEvent.write d rawId length data).presented s) hs hv] at hissue
    have hheld : ((s.can.buf d).pushed
        (((CanEvent.write d rawId length data).presented s).canRecord d rawId length bytes)).contents.map CanFrame.defined
        = s.heldFrames d ++ [(rawId &&& ~~~s.params.extMarkerMask, length, bytes)] := by
      rw [hocc.contents_pushed hs hv, List.map_append, List.map_singleton,
        State.canRecord_defined (RegionStore.memRead_length hm)]
      rfl
    refine ⟨_, hissue, ⟨(s.can.buf d).pushed _, by simp; rfl, hp, hocc.pushed hs hv _, fun {held drops0 a} hb => ?_⟩,
      by simp; rfl, by simp; rfl, by simp; rfl⟩
    exact hheld.symm ▸ hb.count_accepted hframe _

theorem CanEvent.issue_read (d : Controller) :
    ∃ t, (CanEvent.read d).issue s = .next t ∧ (CanEvent.read d).StepsTo s t := by
  obtain ⟨hp, hocc⟩ := h d
  have hdecode := runCommand_of_decode (CanEvent.decode_command_read s.port.ops d) { s with cs := true }
  cases hc : (s.can.buf d).contents with
  | nil =>
    have hexec := exec_canrxRead_of_pop_none (s := (CanEvent.read d).presented s) rfl rfl (Controller.ofTgt_tgt d) hp
      (hocc.pop_of_nil hc)
    refine ⟨_, hdecode.trans hexec, CanEvent.stepsTo_of_uncounted h rfl (fun a => ?_) rfl rfl rfl⟩
    simp only [CanEvent.count]
    rw [if_neg (not_not.mpr rfl)]
    rfl
  | cons f q =>
    obtain ⟨b, hpop, hocc', rfl, hdrops, hphase, -⟩ := hocc.pop_of_cons hc
    have hexec := exec_canrxRead_of_pop_some (s := (CanEvent.read d).presented s) rfl rfl (Controller.ofTgt_tgt d) hp
      hpop
    refine ⟨_, hdecode.trans hexec, ⟨b, rfl, hphase.trans hp, hocc', fun {held drops0 a} hb => ?_⟩, rfl, rfl, rfl⟩
    have hb : Tally.Balances held drops0 a ((s.can.buf d).contents.map CanFrame.defined) (s.can.buf d).drops := hb
    rw [hc, List.map_cons] at hb
    rw [hdrops]
    exact hb.count_delivered d s _

theorem CanEvent.issue_drops (d : Controller) :
    ∃ t, (CanEvent.drops d).issue s = .next t ∧ (CanEvent.drops d).StepsTo s t := by
  have hexec := exec_canrxDrops_of_ready (s := (CanEvent.drops d).presented s) (Controller.ofTgt_tgt d) (h d).1
  refine ⟨_, (runCommand_of_decode (CanEvent.decode_command_drops ..) _).trans hexec,
    CanEvent.stepsTo_of_uncounted h rfl (fun a => ?_) rfl rfl rfl⟩
  simp only [CanEvent.count]
  rw [if_neg (not_not.mpr rfl)]
  rfl

/-- A write of an admitted length has a region that holds its bytes (R122). -/
def CanEvent.hasRegion (e : CanEvent) (p : Config.Params) (caller : RegionStore) : Prop :=
  ∀ (d : Controller) (rawId : Word) (length : Byte) (data : Nat), e = .write d rawId length data →
    length.toNat ≤ p.canPayloadMax → length.toNat ≤ RegionStore.size caller data

theorem CanEvent.issue_stepsTo (e : CanEvent) (hr : e.hasRegion s.params s.caller) :
    ∃ t, e.issue s = .next t ∧ e.StepsTo s t := by
  cases e with
  | write d rawId length data =>
    by_cases hl : length.toNat ≤ s.params.canPayloadMax
    · exact CanEvent.issue_write h d rawId length data hl (hr d rawId length data rfl hl)
    · exact CanEvent.issue_write_tooLong h d rawId length data (Nat.not_le.mp hl)
  | read d => exact CanEvent.issue_read h d
  | drops d => exact CanEvent.issue_drops h d

theorem CanEvent.StepsTo.canReady {e : CanEvent} {t : State} (ht : e.StepsTo s t) : t.canReady := by
  obtain ⟨b, hcan, hp, hocc, -⟩ := ht.buf
  intro d
  rw [hcan]
  by_cases hd : d = e.controller
  · subst hd
    rw [CanRxDemux.buf_setBuf_self]
    exact ⟨hp, hocc⟩
  · rw [CanRxDemux.buf_setBuf_other _ _ _ _ hd]
    exact h d

end Issue

/-- The conservation law goes on to hold for every controller: the event's own, and the other one, whose buffer stays. -/
theorem CanEvent.StepsTo.balances {e : CanEvent} {s t : State} (ht : e.StepsTo s t) {c : Controller}
    {held : List (Word × Byte × List Byte)} {drops0 : BitVec 32} {a : Tally (Word × Byte × List Byte)}
    (hb : Tally.Balances held drops0 a (s.heldFrames c) (s.can.buf c).drops) :
    Tally.Balances held drops0 (e.count c s t.resp a) (t.heldFrames c) (t.can.buf c).drops := by
  obtain ⟨b, hcan, -, -, hbal⟩ := ht.buf
  rw [State.heldFrames, hcan]
  by_cases hc : c = e.controller
  · subst hc
    rw [CanRxDemux.buf_setBuf_self]
    exact hbal hb
  · rw [CanRxDemux.buf_setBuf_other _ _ _ _ hc, CanEvent.count_of_other (Ne.symm hc)]
    exact hb

/-! ### A sequence of events -/

theorem CanEvent.runAll_cons {c : Controller} {e : CanEvent} {s t : State} (hi : e.issue s = .next t)
    (hf : t.faulted = none) (es : List CanEvent) (a : Tally (Word × Byte × List Byte)) :
    CanEvent.runAll c (e :: es) a s = CanEvent.runAll c es (e.count c s t.resp a) t := by
  simp [CanEvent.runAll, hi, hf]

theorem CanEvent.runAll_balances {c : Controller} {held : List (Word × Byte × List Byte)} {drops0 : BitVec 32}
    (es : List CanEvent) {s : State} {a : Tally (Word × Byte × List Byte)} (h : s.canReady) (hf : s.faulted = none)
    (hr : ∀ e ∈ es, e.hasRegion s.params s.caller)
    (hb : Tally.Balances held drops0 a (s.heldFrames c) (s.can.buf c).drops) :
    ∃ a' t, CanEvent.runAll c es a s = some (a', t) ∧ t.canReady
      ∧ Tally.Balances held drops0 a' (t.heldFrames c) (t.can.buf c).drops := by
  induction es generalizing a s with
  | nil => exact ⟨a, s, rfl, h, hb⟩
  | cons e es ih =>
    obtain ⟨t, hi, ht⟩ := CanEvent.issue_stepsTo h e (hr e List.mem_cons_self)
    have hft : t.faulted = none := ht.faulted.trans hf
    rw [CanEvent.runAll_cons hi hft]
    refine ih (ht.canReady h) hft (fun e' he' => ?_) (ht.balances hb)
    rw [ht.params, ht.caller]
    exact hr e' (List.mem_cons_of_mem _ he')

end Machine

/-- Settles O23: `CanEvent.runAll_balances` from the empty tally, which balances. -/
theorem eachCanBufferIsFifo : Obligations.EachCanBufferIsFifo := by
  intro c es s h hf hr
  obtain ⟨a, t, hrun, ht, hconserved, hdrops⟩ := CanEvent.runAll_balances es h hf hr (Tally.balances_zero _ _)
  exact ⟨a, t, hrun, ht, hconserved, hdrops⟩

end Sys2Proof
end
